-- ==== Sys2Proof/Word.lean ====
section
/-! DEFINITION. The widths of the unit's words (spec/00_scope.md R5, R14; spec/30_encoding.md R80; spec/45_sha512.md R220). -/

namespace Sys2Proof

/-- A byte: 8 bits (spec/00_scope.md R14). -/
abbrev Byte := BitVec 8

/-- A 32-bit command word or control register (spec/30_encoding.md R80, spec/10_state.md R30 to R32). -/
abbrev Word := BitVec 32

/-- A value, modulus, coordinate or scalar: an unsigned 256-bit integer (spec/00_scope.md R5, `W = 256`). -/
abbrev U256 := BitVec 256

/-- A word of SHA-512 (spec/45_sha512.md R220). -/
abbrev Word64 := BitVec 64

end Sys2Proof
end

