-- ==== Sys2Proof/Config.lean ====
section
/-! DEFINITION. The constants an implementation fixes (spec/00_scope.md R5 to R12, spec/10_state.md R20, spec/20_memory.md R51). None of them is state. -/

namespace Sys2Proof.Config

/-- `NF`: how many field registers there are (spec/00_scope.md R6). -/
def numField : Nat := 8

/-- `NP`: how many point registers there are (spec/00_scope.md R6). -/
def numPoint : Nat := 4

/-- `KEYBUF_BYTES` (spec/00_scope.md R7). -/
def keybufBytes : Nat := 256

/-- `MSGBUF_BYTES` (spec/00_scope.md R7). -/
def msgbufBytes : Nat := 256

/-- `OUTBUF_BYTES` (spec/00_scope.md R7). -/
def outbufBytes : Nat := 68

/-- Offset of `KEYBUF` in the register map (spec/20_memory.md R51). -/
def keybufBase : Nat := 0x1000

/-- Offset of `MSGBUF` in the register map (spec/20_memory.md R51). -/
def msgbufBase : Nat := 0x1100

/-- Offset of `OUTBUF` in the register map (spec/20_memory.md R51). -/
def outbufBase : Nat := 0x1200

/-- The size of the register map in bytes (spec/20_memory.md R50). -/
def mapBytes : Nat := 0x2000

/-- `P_FIELD`, the field prime, by EEX's formula `2^256 − 2^32 − 977` (spec/00_scope.md R8). -/
def pField : Nat := 2 ^ 256 - 2 ^ 32 - 977

/-- `N_ORDER`, the curve order (spec/00_scope.md R9). UNVERIFIED against EEX, which prints no digits (log 9). -/
def nOrder : Nat :=
  0xFFFFFFFFFFFFFFFFFFFFFFFFFFFFFFFEBAAEDCE6AF48A03BBFD25E8CD0364141

/-- `GX`, the x coordinate of the base point (spec/00_scope.md R10). UNVERIFIED against EEX (log 9). -/
def gx : Nat :=
  0x79BE667EF9DCBBAC55A06295CE870B07029BFCDB2DCE28D959F2815B16F81798

/-- `GY`, the y coordinate of the base point (spec/00_scope.md R10). UNVERIFIED against EEX (log 9). -/
def gy : Nat :=
  0x483ADA7726A3C4655DA4FBFC0E1108A8FD17B448A68554199C47D08FFB10D4B8

/-- `HBLOCK`, the block size of `HASH512` in bytes (spec/00_scope.md R11). -/
def hashBlock : Nat := 128

/-- `HLEN`, the output size of `HASH512` in bytes (spec/00_scope.md R11). -/
def hashLen : Nat := 64

/-- `PBKDF2_ITER` (spec/00_scope.md R12). -/
def pbkdf2Iter : Nat := 2048

/-- `SEED_PREFIX`: the 8 ASCII bytes of "mnemonic" (spec/00_scope.md R12). -/
def seedPrefix : List Byte := [0x6D, 0x6E, 0x65, 0x6D, 0x6F, 0x6E, 0x69, 0x63]

end Sys2Proof.Config
end

