-- ==== Sys2Proof/Machine/State.lean ====
section
/-! DEFINITION. The state of one unit (spec/10_state.md R20 to R36), the outside world's events as data, and the reasons a step can stop. -/

namespace Sys2Proof.Machine

/-! ## Field and point registers -/

/-- A FieldElement: a value and the modulus it carries (spec/10_state.md R22). -/
structure FieldElement where
  val : U256
  mod : U256
  deriving DecidableEq, Repr

/-- A field register: Empty, or full with a field element (spec/10_state.md R22). -/
inductive FieldReg where
  | empty
  | full (e : FieldElement)
  deriving DecidableEq, Repr

/-- A CurvePoint: the identity `Inf`, a tag of its own and no coordinate pair (spec/10_state.md R27), or `Fin(x, y)` (R25). -/
inductive CurvePoint where
  | inf
  | fin (x y : U256)
  deriving DecidableEq, Repr

/-- A point register: Empty (tag 0), or a point (tag 1 `Inf`, tag 2 `Fin`; tag 3 never occurs) (spec/10_state.md R25). -/
inductive PointReg where
  | empty
  | point (P : CurvePoint)
  deriving DecidableEq, Repr

/-! ## Memory -/

/-- The three byte buffers as one memory, keyed by offset in the register map (spec/20_memory.md R51): the listed bytes, addresses
strictly rising, none of them `00`. An address not listed reads `00`, the reset contents of every buffer (spec/10_state.md R36). -/
abbrev Memory := List Host.Cell

/-! ## Hidden working storage -/

/-- The working storage the host cannot address (spec/10_state.md R35). A command runs as one step, so its intermediate values live inside
that step and this field holds what the step leaves behind (log 5). -/
structure Work where
  /-- `SMUL`'s accumulator `R`. -/
  smulAcc : PointReg
  /-- `SMUL`'s addend `A`. -/
  smulAddend : PointReg
  /-- `SMUL`'s shifting copy of the scalar `k`. -/
  smulScalar : U256
  /-- The 512-bit product. -/
  product : BitVec 512
  /-- The extended-Euclid remainders. -/
  euclidR0 : U256
  euclidR1 : U256
  /-- The extended-Euclid coefficients, signed (spec/40_field.md R113). -/
  euclidT0 : Int
  euclidT1 : Int
  /-- The hash chaining value. -/
  chain : BitVec 512
  /-- The two padded key blocks. -/
  keyIpad : BitVec 1024
  keyOpad : BitVec 1024
  /-- The running exclusive-or of the PBKDF2 commands. -/
  xorAcc : BitVec 512
  deriving DecidableEq, Repr

/-- Working storage cleared to zero (spec/10_state.md R35, R36). -/
def Work.cleared : Work where
  smulAcc := .empty
  smulAddend := .empty
  smulScalar := 0
  product := 0
  euclidR0 := 0
  euclidR1 := 0
  euclidT0 := 0
  euclidT1 := 0
  chain := 0
  keyIpad := 0
  keyOpad := 0
  xorAcc := 0

/-! ## The outside world -/

/-- What the outside world does to the unit (spec/20_memory.md R53, R64). -/
inductive HostAction where
  /-- The host reads `width` bytes at offset `off`; only `width = 4` has a meaning (spec/20_memory.md R54). -/
  | read (off width : Nat)
  /-- The host writes the bytes `data` at offset `off`; only four bytes have a meaning (spec/20_memory.md R54). -/
  | write (off : Nat) (data : List Byte)
  /-- The platform's reset signal (spec/70_reset_and_hazards.md R280). -/
  | reset
  /-- An access by a second initiator, which has no meaning (spec/93_implementation_defined.md U3). -/
  | foreign
  deriving DecidableEq, Repr

/-- One event, and whether it reaches the unit before the pending command, if there is one, is completed.
`early` is the free draw of spec/93_implementation_defined.md U4: it comes from outside and nothing constrains it. -/
structure HostEvent where
  act : HostAction
  early : Bool
  deriving DecidableEq, Repr

/-! ## The state -/

/-- The complete state of one unit (spec/10_state.md R20), and the outside world's events and replies (the model's own, log 1). -/
structure State where
  /-- `F[0..7]` (spec/10_state.md R22). -/
  f : Vector FieldReg 8
  /-- `P[0..3]` (spec/10_state.md R25). -/
  p : Vector PointReg 4
  /-- `OPA` (spec/10_state.md R28). -/
  opa : U256
  /-- `OPM` (spec/10_state.md R28). -/
  opm : U256
  /-- `KEYBUF`, `MSGBUF`, `OUTBUF` (spec/10_state.md R29). -/
  mem : Memory
  /-- `KLEN` (spec/10_state.md R30). -/
  klen : Word
  /-- `MLEN` (spec/10_state.md R30). -/
  mlen : Word
  /-- `OLEN` (spec/10_state.md R30). -/
  olen : Word
  /-- `STATUS.ERR` (spec/10_state.md R31). -/
  err : Bool
  /-- `STATUS.ECODE` (spec/10_state.md R31). -/
  ecode : BitVec 4
  /-- `ECMD` (spec/10_state.md R32). -/
  ecmd : Word
  /-- `PEND` (spec/10_state.md R33); `STATUS.BUSY` is computed from it. -/
  pend : Option Word
  /-- The hidden working storage (spec/10_state.md R35). -/
  work : Work
  /-- The model's own: the events still to come, oldest first (log 1). -/
  inputs : List HostEvent
  /-- The model's own: the data the host's reads have returned, newest first (log 1). -/
  replies : List (List Byte)
  deriving DecidableEq, Repr

/-- The state right after reset (spec/10_state.md R36): everything Empty, zero and idle; `inputs` and `replies` empty (DESIGN CHOICE, log 1). -/
def State.reset : State where
  f := Vector.replicate 8 .empty
  p := Vector.replicate 4 .empty
  opa := 0
  opm := 0
  mem := []
  klen := 0
  mlen := 0
  olen := 0
  err := false
  ecode := 0
  ecmd := 0
  pend := none
  work := Work.cleared
  inputs := []
  replies := []

/-! ## The unit's error kinds, and why the machine can stop -/

/-- The error kinds of spec/60_exceptions.md R241. A command that raises one goes on to a NEXT state, in which the kind is recorded (R245). -/
inductive ErrKind where
  | invalidModulus
  | mismatchedModulus
  | divisionByZero
  | noInverseExists
  | invalidPrivateKeyRange
  | invalidSeedLength
  | invalidPathFormat
  | invalidPathComponent
  | derivedKeyInvalid
  | insecureEntropySize
  | illegalCommand
  | emptyOperand
  | infinityOperand
  | bufferLength
  deriving DecidableEq, Repr

/-- The machine stops with a fault. (The unit's own faults are next states, see `ErrKind`.) -/
inductive Fault where
  /-- Raised by a host access at an offset outside the 8 KiB register map, an address that does not exist (spec/20_memory.md R50; log 4).
  Safe: nothing is proved about a run that makes one. -/
  | outsideMap
  deriving DecidableEq, Repr

/-- The machine has no step: the access is one that the spec refuses, or the instruction has no meaning in the model yet. -/
inductive Refusal where
  /-- Raised by an arm of `exec` whose instruction has no meaning yet (none has this now). Safe. -/
  | notModelled (mnemonic : String)
  /-- Raised by a host access that is not four bytes wide (spec/20_memory.md R54, spec/93_implementation_defined.md U1). Safe. -/
  | accessWidth
  /-- Raised by a host access at an offset that is not a multiple of 4 (spec/20_memory.md R54, U1). Safe. -/
  | misaligned
  /-- Raised by a host access at an unmapped offset of the register map (spec/20_memory.md R56, U2). Safe. -/
  | unmapped
  /-- Raised by a host write to a read-only location (spec/20_memory.md R56, U2). Safe. -/
  | readOnly
  /-- Raised by a host read of `CMD` (spec/20_memory.md R56, U2). Safe. -/
  | writeOnly
  /-- Raised by an access of a second initiator (spec/20_memory.md R57, U3). Safe. -/
  | secondInitiator
  deriving DecidableEq, Repr

end Sys2Proof.Machine
end

