-- ==== Sys2Proof/Machine/Arith.lean ====
section
/-! DEFINITION. The arithmetic helpers of the field and point commands (spec/40_field.md R110 to R113, spec/41_point.md R141, spec/42_scalar.md R171).
Every one computes on exact integers and narrows once, at the end (spec/00_scope.md R5). -/

namespace Sys2Proof.Machine

/-- `OPA mod OPM`, the value `FMAKE` makes (spec/40_field.md R114). -/
def reduceMod (m a : U256) : U256 := BitVec.ofNat 256 (a.toNat % m.toNat)

/-- `fadd_m(a, b) = (a + b) mod m` (spec/40_field.md R112). -/
def faddMod (m a b : U256) : U256 := BitVec.ofNat 256 ((a.toNat + b.toNat) % m.toNat)

/-- `fsub_m(a, b) = (a − b) mod m`, the non-negative remainder (spec/40_field.md R111, R112). -/
def fsubMod (m a b : U256) : U256 := BitVec.ofNat 256 (((a.toNat : Int) - (b.toNat : Int)) % (m.toNat : Int)).toNat

/-- `fmul_m(a, b) = (a · b) mod m` (spec/40_field.md R112). -/
def fmulMod (m a b : U256) : U256 := BitVec.ofNat 256 ((a.toNat * b.toNat) % m.toNat)

/-- The loop of the extended Euclidean algorithm: from `(r0, r1)` and `(t0, t1)` to the last `(r0, t0)` (spec/40_field.md R113).
The first argument bounds the number of turns (log 10). -/
def euclidLoop : Nat → Nat → Nat → Int → Int → Nat × Int
  | 0, r0, _, t0, _ => (r0, t0)
  | n + 1, r0, r1, t0, t1 =>
    if r1 = 0 then (r0, t0)
    else euclidLoop n r1 (r0 - r0 / r1 * r1) t1 (t0 - (r0 / r1 : Nat) * t1)

/-- Turns of the Euclidean loop that are enough for 256-bit operands (log 10). -/
def euclidTurns : Nat := 513

/-- `inv_m(a)`, or `NoInverseExists` when `gcd(a, m) ≠ 1` (spec/40_field.md R113). -/
def invMod (m a : Nat) : Except ErrKind Nat :=
  let (g, t) := euclidLoop euclidTurns m a 0 1
  if g = 1 then .ok (t % (m : Int)).toNat else .error .noInverseExists

/-- The non-negative remainder of an exact integer modulo `P_FIELD` (spec/41_point.md R141). -/
def modP (z : Int) : Nat := (z % (Config.pField : Int)).toNat

/-- `fdiv_p(a, b)` (spec/41_point.md R141). -/
def fdivP (a b : Nat) : Except ErrKind Nat :=
  if b = 0 then .error .divisionByZero
  else
    match invMod Config.pField b with
    | .ok t => .ok (modP ((a : Int) * (t : Int)))
    | .error k => .error k

/-- The slope `lam` of `point_add`: of the tangent when the points are equal, else of the chord (spec/41_point.md R141). -/
def slope (x1 y1 x2 y2 : Int) : Except ErrKind Nat :=
  if x1 = x2 ∧ y1 = y2 then fdivP (modP (3 * x1 * x1)) (modP (2 * y1))
  else fdivP (modP (y2 - y1)) (modP (x2 - x1))

/-- The third point of the addition with slope `lam` (spec/41_point.md R141). -/
def thirdPoint (lam x1 y1 x2 : Int) : CurvePoint :=
  let x3 := modP (lam * lam - x1 - x2)
  let y3 := modP (lam * (x1 - (x3 : Int)) - y1)
  .fin (BitVec.ofNat 256 x3) (BitVec.ofNat 256 y3)

/-- `point_add(A, B)` (spec/41_point.md R141, R142). -/
def pointAdd : CurvePoint → CurvePoint → Except ErrKind CurvePoint
  | .inf, B => .ok B
  | .fin x1 y1, .inf => .ok (.fin x1 y1)
  | .fin x1 y1, .fin x2 y2 =>
    match slope x1.toNat y1.toNat x2.toNat y2.toNat with
    | .ok lam => .ok (thirdPoint lam x1.toNat y1.toNat x2.toNat)
    | .error k => .error k

/-- What the loop of `SMUL` does to the accumulator when the bit is set: `R` is `Inf` or it is not (spec/42_scalar.md R171). -/
def accumulate (R A : CurvePoint) : Except ErrKind CurvePoint :=
  match R with
  | .inf => .ok A
  | .fin x y => pointAdd (.fin x y) A

/-- The loop of `SMUL`: scalar `k`, accumulator `R`, addend `A` (spec/42_scalar.md R171). The first argument bounds the number of turns (log 10). -/
def smulLoop : Nat → Nat → CurvePoint → CurvePoint → Except ErrKind CurvePoint
  | 0, _, R, _ => .ok R
  | n + 1, k, R, A =>
    if k = 0 then .ok R
    else
      match (if k % 2 = 1 then accumulate R A else .ok R) with
      | .error e => .error e
      | .ok R' =>
        match pointAdd A A with
        | .error e => .error e
        | .ok A' => smulLoop n (k / 2) R' A'

/-- Turns of `SMUL`'s loop: one per bit of a 256-bit scalar (spec/42_scalar.md R171). -/
def smulTurns : Nat := 256

/-- `k · P` by double-and-add from the least significant bit (spec/42_scalar.md R171). -/
def scalarMul (k : Nat) (P : CurvePoint) : Except ErrKind CurvePoint := smulLoop smulTurns k .inf P

/-- The base point `G_POINT` (spec/00_scope.md R10). -/
def gPoint : CurvePoint := .fin (BitVec.ofNat 256 Config.gx) (BitVec.ofNat 256 Config.gy)

end Sys2Proof.Machine
end

