-- ==== Sys2Proof/Machine/Bytes.lean ====
section
/-! DEFINITION. Integers as big-endian byte sequences (spec/00_scope.md R15, spec/20_memory.md R52). -/

namespace Sys2Proof

/-- `BE(v, n)`: the `n`-byte big-endian encoding of `v`; byte `i` is bits `8(n−1−i)+7 : 8(n−1−i)` of `v` (spec/00_scope.md R15). -/
def be (v n : Nat) : List Byte :=
  (List.range n).map fun i => BitVec.ofNat 8 (v >>> (8 * (n - 1 - i)))

/-- `INT(X)`: the unsigned integer whose big-endian encoding is `X` (spec/00_scope.md R15). -/
def int (X : List Byte) : Nat :=
  X.foldl (fun acc b => 256 * acc + b.toNat) 0

/-- `X ⊕ Y`: the bytewise exclusive-or of two sequences of equal length (spec/00_scope.md R14). -/
def xorBytes (X Y : List Byte) : List Byte :=
  List.zipWith (· ^^^ ·) X Y

/-- `X` with the bytes from index `k` on replaced by those of `bs`: what a word write does to the bytes of a wider register
(spec/20_memory.md R53, R55). -/
def overwrite (X : List Byte) (k : Nat) (bs : List Byte) : List Byte :=
  X.take k ++ bs ++ X.drop (k + bs.length)

end Sys2Proof
end

