-- ==== Sys2Proof/Syntax.lean ====
section
/-! DEFINITION. The twenty commands of spec/30_encoding.md R84, one constructor per row of spec/opcode_table.json. -/

namespace Sys2Proof

/-- A register index as the command word holds it: 4 bits (spec/30_encoding.md R81, R82).
Whether it names a field or a point register is fixed by the command; which values are legal is `Instr.WellFormed`. -/
abbrev RegIdx := BitVec 4

/-- One command, its operands in the order the assembler writes them (spec/30_encoding.md R88). -/
inductive Instr where
  /-- `CLRERR` (spec/44_system.md R211). -/
  | clrerr
  /-- `ZERO` (spec/44_system.md R212). -/
  | zero
  /-- `FMAKE fd` (spec/40_field.md R114). -/
  | fmake (rd : RegIdx)
  /-- `FADD fd, fs1, fs2` (spec/40_field.md R115). -/
  | fadd (rd rs1 rs2 : RegIdx)
  /-- `FSUB fd, fs1, fs2` (spec/40_field.md R116). -/
  | fsub (rd rs1 rs2 : RegIdx)
  /-- `FMUL fd, fs1, fs2` (spec/40_field.md R117). -/
  | fmul (rd rs1 rs2 : RegIdx)
  /-- `FDIV fd, fs1, fs2` (spec/40_field.md R118). -/
  | fdiv (rd rs1 rs2 : RegIdx)
  /-- `FINV fd, fs1` (spec/40_field.md R119). -/
  | finv (rd rs1 : RegIdx)
  /-- `PMAKE pd, fs1, fs2` (spec/41_point.md R144). -/
  | pmake (rd rs1 rs2 : RegIdx)
  /-- `PINF pd` (spec/41_point.md R145). -/
  | pinf (rd : RegIdx)
  /-- `PLDG pd` (spec/41_point.md R146). -/
  | pldg (rd : RegIdx)
  /-- `PADD pd, ps1, ps2` (spec/41_point.md R147). -/
  | padd (rd rs1 rs2 : RegIdx)
  /-- `PGETX fd, ps1` (spec/41_point.md R148). -/
  | pgetx (rd rs1 : RegIdx)
  /-- `PGETY fd, ps1` (spec/41_point.md R149). -/
  | pgety (rd rs1 : RegIdx)
  /-- `PSER ps1, m`: `m` true is the compressed form (spec/41_point.md R150). -/
  | pser (rs1 : RegIdx) (m : Bool)
  /-- `SMUL pd, fs1, ps2` (spec/42_scalar.md R171). -/
  | smul (rd rs1 rs2 : RegIdx)
  /-- `KCHK fs1` (spec/42_scalar.md R172). -/
  | kchk (rs1 : RegIdx)
  /-- `HMAC` (spec/43_hmac_pbkdf2.md R194). -/
  | hmac
  /-- `PBKDF2` (spec/43_hmac_pbkdf2.md R195). -/
  | pbkdf2
  /-- `MSEED` (spec/43_hmac_pbkdf2.md R196). -/
  | mseed
  deriving DecidableEq, Repr

/-- The pseudo-instruction `PDBL pd, ps` (spec/30_encoding.md R89). -/
def Instr.pdbl (rd ps : RegIdx) : Instr := .padd rd ps ps

/-- The pseudo-instruction `FSQR fd, fs` (spec/30_encoding.md R89). -/
def Instr.fsqr (rd fs : RegIdx) : Instr := .fmul rd fs fs

/-- The pseudo-instruction `FDBL fd, fs` (spec/30_encoding.md R89). -/
def Instr.fdbl (rd fs : RegIdx) : Instr := .fadd rd fs fs

end Sys2Proof
end

