-- ==== Sys2Proof/WellFormed.lean ====
section
/-! DEFINITION. Which commands are well formed: every register index in range (spec/30_encoding.md R82, R83). -/

namespace Sys2Proof

/-- A field-register index is legal below `NF` (spec/30_encoding.md R82). -/
def RegIdx.isField (i : RegIdx) : Bool := decide (i.toNat < Config.numField)

/-- A point-register index is legal below `NP` (spec/30_encoding.md R82). -/
def RegIdx.isPoint (i : RegIdx) : Bool := decide (i.toNat < Config.numPoint)

/-- The index checks of each command's format (spec/30_encoding.md R83). -/
def Instr.wf : Instr → Bool
  | .clrerr => true
  | .zero => true
  | .fmake rd => RegIdx.isField rd
  | .fadd rd rs1 rs2 => RegIdx.isField rd && RegIdx.isField rs1 && RegIdx.isField rs2
  | .fsub rd rs1 rs2 => RegIdx.isField rd && RegIdx.isField rs1 && RegIdx.isField rs2
  | .fmul rd rs1 rs2 => RegIdx.isField rd && RegIdx.isField rs1 && RegIdx.isField rs2
  | .fdiv rd rs1 rs2 => RegIdx.isField rd && RegIdx.isField rs1 && RegIdx.isField rs2
  | .finv rd rs1 => RegIdx.isField rd && RegIdx.isField rs1
  | .pmake rd rs1 rs2 => RegIdx.isPoint rd && RegIdx.isField rs1 && RegIdx.isField rs2
  | .pinf rd => RegIdx.isPoint rd
  | .pldg rd => RegIdx.isPoint rd
  | .padd rd rs1 rs2 => RegIdx.isPoint rd && RegIdx.isPoint rs1 && RegIdx.isPoint rs2
  | .pgetx rd rs1 => RegIdx.isField rd && RegIdx.isPoint rs1
  | .pgety rd rs1 => RegIdx.isField rd && RegIdx.isPoint rs1
  | .pser rs1 _ => RegIdx.isPoint rs1
  | .smul rd rs1 rs2 => RegIdx.isPoint rd && RegIdx.isField rs1 && RegIdx.isPoint rs2
  | .kchk rs1 => RegIdx.isField rs1
  | .hmac => true
  | .pbkdf2 => true
  | .mseed => true

/-- A command whose register indices are all in range. -/
abbrev Instr.WellFormed (i : Instr) : Prop := i.wf = true

end Sys2Proof
end

