-- ==== Sys2Proof/Decode.lean ====
section
/-! DEFINITION. The command words: fields, formats, the opcode map, the decoder and the encoder (spec/30_encoding.md R80 to R89). -/

namespace Sys2Proof

/-! ## Fields of a command word (spec/30_encoding.md R81) -/

/-- `op`, bits 31:24. -/
def opField (w : Word) : BitVec 8 := w.extractLsb' 24 8
/-- `rd`, bits 23:20. -/
def rdField (w : Word) : RegIdx := w.extractLsb' 20 4
/-- `rs1`, bits 19:16. -/
def rs1Field (w : Word) : RegIdx := w.extractLsb' 16 4
/-- `rs2`, bits 15:12. -/
def rs2Field (w : Word) : RegIdx := w.extractLsb' 12 4
/-- `z`, bits 11:1. -/
def zField (w : Word) : BitVec 11 := w.extractLsb' 1 11
/-- `m`, bit 0. -/
def mField (w : Word) : Bool := w.getLsbD 0

/-- The word with the given fields and `z = 0`: `op·2^24 + rd·2^20 + rs1·2^16 + rs2·2^12 + m` (spec/30_encoding.md R88). -/
def packWord (op : BitVec 8) (rd rs1 rs2 : RegIdx) (m : Bool) : Word :=
  op ++ rd ++ rs1 ++ rs2 ++ 0#11 ++ BitVec.ofBool m

/-! ## Formats (spec/30_encoding.md R83) -/

/-- What a format puts in an index field: a field-register index, a point-register index, or nothing (must be zero). -/
inductive Slot where
  | zero
  | field
  | point
  deriving DecidableEq, Repr

/-- Whether an index field's value is one the slot allows (spec/30_encoding.md R82, R83). -/
def Slot.allows (s : Slot) (i : RegIdx) : Bool :=
  match s with
  | .zero => i == 0
  | .field => RegIdx.isField i
  | .point => RegIdx.isPoint i

/-- One row of the table of formats; `m` says whether the mode bit is used. -/
structure Format where
  rd : Slot
  rs1 : Slot
  rs2 : Slot
  m : Bool
  deriving DecidableEq, Repr

namespace Format
/-- Format `Z`. -/
def z : Format := ⟨.zero, .zero, .zero, false⟩
/-- Format `Fd`. -/
def fd : Format := ⟨.field, .zero, .zero, false⟩
/-- Format `FdF`. -/
def fdF : Format := ⟨.field, .field, .zero, false⟩
/-- Format `FdFF`. -/
def fdFF : Format := ⟨.field, .field, .field, false⟩
/-- Format `Pd`. -/
def pd : Format := ⟨.point, .zero, .zero, false⟩
/-- Format `PdFF`. -/
def pdFF : Format := ⟨.point, .field, .field, false⟩
/-- Format `PdPP`. -/
def pdPP : Format := ⟨.point, .point, .point, false⟩
/-- Format `FdP`. -/
def fdP : Format := ⟨.field, .point, .zero, false⟩
/-- Format `Pm`. -/
def pm : Format := ⟨.zero, .point, .zero, true⟩
/-- Format `PdFP`. -/
def pdFP : Format := ⟨.point, .field, .point, false⟩
/-- Format `Fs`. -/
def fs : Format := ⟨.zero, .field, .zero, false⟩
end Format

/-! ## The opcode map (spec/30_encoding.md R84) -/

/-- One row of the opcode map: opcode, mnemonic, format, match, mask, and the command with the word's fields put in. -/
structure OpRow where
  op : BitVec 8
  mnemonic : String
  format : Format
  pattern : Word
  mask : Word
  build : Word → Instr

/-- The twenty rows, in the table's order. -/
def opcodeMap : List OpRow :=
  [ ⟨0x01, "CLRERR", .z, 0x01000000, 0xFFFFFFFF, fun _ => .clrerr⟩,
    ⟨0x02, "ZERO", .z, 0x02000000, 0xFFFFFFFF, fun _ => .zero⟩,
    ⟨0x10, "FMAKE", .fd, 0x10000000, 0xFF8FFFFF, fun w => .fmake (rdField w)⟩,
    ⟨0x11, "FADD", .fdFF, 0x11000000, 0xFF888FFF, fun w => .fadd (rdField w) (rs1Field w) (rs2Field w)⟩,
    ⟨0x12, "FSUB", .fdFF, 0x12000000, 0xFF888FFF, fun w => .fsub (rdField w) (rs1Field w) (rs2Field w)⟩,
    ⟨0x13, "FMUL", .fdFF, 0x13000000, 0xFF888FFF, fun w => .fmul (rdField w) (rs1Field w) (rs2Field w)⟩,
    ⟨0x14, "FDIV", .fdFF, 0x14000000, 0xFF888FFF, fun w => .fdiv (rdField w) (rs1Field w) (rs2Field w)⟩,
    ⟨0x15, "FINV", .fdF, 0x15000000, 0xFF88FFFF, fun w => .finv (rdField w) (rs1Field w)⟩ ] ++
  [ ⟨0x20, "PMAKE", .pdFF, 0x20000000, 0xFFC88FFF, fun w => .pmake (rdField w) (rs1Field w) (rs2Field w)⟩,
    ⟨0x21, "PINF", .pd, 0x21000000, 0xFFCFFFFF, fun w => .pinf (rdField w)⟩,
    ⟨0x22, "PLDG", .pd, 0x22000000, 0xFFCFFFFF, fun w => .pldg (rdField w)⟩,
    ⟨0x23, "PADD", .pdPP, 0x23000000, 0xFFCCCFFF, fun w => .padd (rdField w) (rs1Field w) (rs2Field w)⟩,
    ⟨0x24, "PGETX", .fdP, 0x24000000, 0xFF8CFFFF, fun w => .pgetx (rdField w) (rs1Field w)⟩,
    ⟨0x25, "PGETY", .fdP, 0x25000000, 0xFF8CFFFF, fun w => .pgety (rdField w) (rs1Field w)⟩,
    ⟨0x26, "PSER", .pm, 0x26000000, 0xFFFCFFFE, fun w => .pser (rs1Field w) (mField w)⟩ ] ++
  [ ⟨0x30, "SMUL", .pdFP, 0x30000000, 0xFFC8CFFF, fun w => .smul (rdField w) (rs1Field w) (rs2Field w)⟩,
    ⟨0x31, "KCHK", .fs, 0x31000000, 0xFFF8FFFF, fun w => .kchk (rs1Field w)⟩,
    ⟨0x40, "HMAC", .z, 0x40000000, 0xFFFFFFFF, fun _ => .hmac⟩,
    ⟨0x41, "PBKDF2", .z, 0x41000000, 0xFFFFFFFF, fun _ => .pbkdf2⟩,
    ⟨0x42, "MSEED", .z, 0x42000000, 0xFFFFFFFF, fun _ => .mseed⟩ ]

/-- A word is a row's command exactly when `w AND mask = match` (spec/30_encoding.md R84). -/
def OpRow.accepts (r : OpRow) (w : Word) : Bool := w &&& r.mask == r.pattern

/-! ## Decoding (spec/30_encoding.md R85, R86) -/

/-- Why a word is illegal: the conditions of spec/30_encoding.md R86, and a byte sequence that is not one word long (R80).
The unit reports one kind, `IllegalCommand`, for all of them; the name is for the reader. -/
inductive Illegal where
  /-- `op` is not one of the twenty opcodes. -/
  | opcode
  /-- `z ≠ 0`. -/
  | zNotZero
  /-- A field the format marks `0`, or `m` outside `PSER`, is not zero. -/
  | unusedNotZero
  /-- A field-register index is 8 or more. -/
  | fieldIndex
  /-- A point-register index is 4 or more. -/
  | pointIndex
  /-- The byte sequence is not four bytes long. -/
  | length
  deriving DecidableEq, Repr

/-- The first slot of a format that refuses its index, if any. -/
def Format.badSlot (f : Format) (w : Word) : Option Slot :=
  (([(f.rd, rdField w), (f.rs1, rs1Field w), (f.rs2, rs2Field w)]).find? fun x => !x.1.allows x.2).map (·.1)

/-- The name of the first condition of spec/30_encoding.md R86 that the word meets. -/
def whyIllegal (w : Word) : Illegal :=
  match opcodeMap.find? (fun r => r.op == opField w) with
  | none => .opcode
  | some r =>
    if zField w ≠ 0 then .zNotZero
    else
      match r.format.badSlot w with
      | some .field => .fieldIndex
      | some .point => .pointIndex
      | _ => .unusedNotZero

/-- `decode(w)`: the command of the row whose match and mask the word satisfies, else illegal (spec/30_encoding.md R85). -/
def decode (w : Word) : Except Illegal Instr :=
  match opcodeMap.find? (fun r => r.accepts w) with
  | some r => .ok (r.build w)
  | none => .error (whyIllegal w)

/-- Decoding the bytes of a `CMD` write: four bytes `b0 b1 b2 b3` are the word `INT(b0 b1 b2 b3)` (spec/20_memory.md R52 (d)). -/
def decodeBytes (bs : List Byte) : Except Illegal Instr :=
  if bs.length = 4 then decode (BitVec.ofNat 32 (int bs)) else .error .length

/-- The command read from an opcode-table word: the word's four bytes, big-endian, given to the decoder. -/
def decodeTableWord (nbits w : Nat) : Option Instr :=
  if nbits ≤ 32 then (decodeBytes (be (w % 2 ^ nbits) 4)).toOption else none

/-! ## Encoding (spec/30_encoding.md R84, R88) -/

/-- The word of a command. -/
def encode : Instr → Word
  | .clrerr => packWord 0x01 0 0 0 false
  | .zero => packWord 0x02 0 0 0 false
  | .fmake rd => packWord 0x10 rd 0 0 false
  | .fadd rd rs1 rs2 => packWord 0x11 rd rs1 rs2 false
  | .fsub rd rs1 rs2 => packWord 0x12 rd rs1 rs2 false
  | .fmul rd rs1 rs2 => packWord 0x13 rd rs1 rs2 false
  | .fdiv rd rs1 rs2 => packWord 0x14 rd rs1 rs2 false
  | .finv rd rs1 => packWord 0x15 rd rs1 0 false
  | .pmake rd rs1 rs2 => packWord 0x20 rd rs1 rs2 false
  | .pinf rd => packWord 0x21 rd 0 0 false
  | .pldg rd => packWord 0x22 rd 0 0 false
  | .padd rd rs1 rs2 => packWord 0x23 rd rs1 rs2 false
  | .pgetx rd rs1 => packWord 0x24 rd rs1 0 false
  | .pgety rd rs1 => packWord 0x25 rd rs1 0 false
  | .pser rs1 m => packWord 0x26 0 rs1 0 m
  | .smul rd rs1 rs2 => packWord 0x30 rd rs1 rs2 false
  | .kchk rs1 => packWord 0x31 0 rs1 0 false
  | .hmac => packWord 0x40 0 0 0 false
  | .pbkdf2 => packWord 0x41 0 0 0 false
  | .mseed => packWord 0x42 0 0 0 false

/-- The four bytes of a command as the host writes them to `CMD` (spec/30_encoding.md R90). -/
def encodeBytes (i : Instr) : List Byte := be (encode i).toNat 4

/-! ## Assembler syntax (spec/30_encoding.md R88) -/

/-- A field register's assembler name. -/
def fieldName (i : RegIdx) : String := "f" ++ toString i.toNat
/-- A point register's assembler name. -/
def pointName (i : RegIdx) : String := "p" ++ toString i.toNat

/-- The assembler line of a command. -/
def Instr.asm : Instr → String
  | .clrerr => "CLRERR"
  | .zero => "ZERO"
  | .fmake rd => "FMAKE " ++ fieldName rd
  | .fadd rd rs1 rs2 => "FADD " ++ fieldName rd ++ ", " ++ fieldName rs1 ++ ", " ++ fieldName rs2
  | .fsub rd rs1 rs2 => "FSUB " ++ fieldName rd ++ ", " ++ fieldName rs1 ++ ", " ++ fieldName rs2
  | .fmul rd rs1 rs2 => "FMUL " ++ fieldName rd ++ ", " ++ fieldName rs1 ++ ", " ++ fieldName rs2
  | .fdiv rd rs1 rs2 => "FDIV " ++ fieldName rd ++ ", " ++ fieldName rs1 ++ ", " ++ fieldName rs2
  | .finv rd rs1 => "FINV " ++ fieldName rd ++ ", " ++ fieldName rs1
  | .pmake rd rs1 rs2 => "PMAKE " ++ pointName rd ++ ", " ++ fieldName rs1 ++ ", " ++ fieldName rs2
  | .pinf rd => "PINF " ++ pointName rd
  | .pldg rd => "PLDG " ++ pointName rd
  | .padd rd rs1 rs2 => "PADD " ++ pointName rd ++ ", " ++ pointName rs1 ++ ", " ++ pointName rs2
  | .pgetx rd rs1 => "PGETX " ++ fieldName rd ++ ", " ++ pointName rs1
  | .pgety rd rs1 => "PGETY " ++ fieldName rd ++ ", " ++ pointName rs1
  | .pser rs1 m => "PSER " ++ pointName rs1 ++ ", " ++ (if m then "1" else "0")
  | .smul rd rs1 rs2 => "SMUL " ++ pointName rd ++ ", " ++ fieldName rs1 ++ ", " ++ pointName rs2
  | .kchk rs1 => "KCHK " ++ fieldName rs1
  | .hmac => "HMAC"
  | .pbkdf2 => "PBKDF2"
  | .mseed => "MSEED"

end Sys2Proof
end

