-- ==== Sys2Proof/Machine/Flags.lean ====
section
/-! DEFINITION. The status word and the error codes (spec/10_state.md R31, spec/60_exceptions.md R241). The unit has no flags or condition codes (spec/10_state.md R34). -/

namespace Sys2Proof.Machine

/-- The code a kind shows in `STATUS.ECODE` (spec/60_exceptions.md R241). -/
def ErrKind.code : ErrKind → BitVec 4
  | .invalidModulus => 1
  | .mismatchedModulus => 2
  | .divisionByZero => 3
  | .noInverseExists => 4
  | .invalidPrivateKeyRange => 5
  | .invalidSeedLength => 6
  | .invalidPathFormat => 7
  | .invalidPathComponent => 8
  | .derivedKeyInvalid => 9
  | .insecureEntropySize => 10
  | .illegalCommand => 11
  | .emptyOperand => 12
  | .infinityOperand => 13
  | .bufferLength => 14

/-- `STATUS.BUSY`: 1 exactly when `PEND` is a word (spec/10_state.md R33). -/
def State.busy (s : State) : Bool := s.pend.isSome

/-- The word of `STATUS`: bit 0 `BUSY`, bit 1 `ERR`, bits 7:4 `ECODE`, every other bit 0 (spec/10_state.md R31). -/
def State.statusWord (s : State) : Word :=
  0#24 ++ s.ecode ++ 0#2 ++ BitVec.ofBool s.err ++ BitVec.ofBool s.busy

end Sys2Proof.Machine
end

