-- ==== Sys2Proof/Machine/Ops.lean ====
section
/-! DEFINITION. The named operations over registers and memory, fault entry and the return from it, and the frame every command runs in. -/

namespace Sys2Proof.Machine

/-! ## Memory (spec/10_state.md R29, spec/00_scope.md R16) -/

/-- What an address not listed in memory reads as (spec/10_state.md R36: every byte of the buffers is `00`). -/
def Memory.unlisted : Byte := 0

/-- Whether `a` is the offset of a byte of one of the three buffers (spec/20_memory.md R51). -/
def Memory.inBuffers (a : Nat) : Bool :=
  decide (Config.keybufBase ≤ a ∧ a < Config.outbufBase + Config.outbufBytes)

/-- Every listed address is at least `lo`, addresses rise strictly, and no byte is what an unlisted address reads as. -/
def Memory.sortedFrom : Nat → Memory → Bool
  | _, [] => true
  | lo, (a, b) :: m => decide (lo ≤ a) && decide (b ≠ Memory.unlisted) && Memory.sortedFrom (a + 1) m

/-- The canonical form: strictly rising addresses, no byte equal to `unlisted`, and only bytes of the buffers. -/
def Memory.wf (m : Memory) : Bool :=
  Memory.sortedFrom 0 m && m.all fun c => Memory.inBuffers c.1

/-- The byte at offset `a`. -/
def Memory.read : Memory → Nat → Byte
  | [], _ => Memory.unlisted
  | (a, b) :: m, x => if x = a then b else Memory.read m x

/-- One cell in canonical form: none for the byte an unlisted address reads as. -/
def Memory.cell (x : Nat) (v : Byte) : Memory :=
  if v = Memory.unlisted then [] else [(x, v)]

/-- Memory with the byte at offset `x` set to `v`, in canonical form. -/
def Memory.write : Memory → Nat → Byte → Memory
  | [], x, v => Memory.cell x v
  | (a, b) :: m, x, v =>
    if x < a then Memory.cell x v ++ (a, b) :: m
    else if x = a then Memory.cell x v ++ m
    else (a, b) :: Memory.write m x v

/-- `BufWrite` and the buffers' part of `HostWrite32`: the bytes of `X` stored at `x`, `x + 1`, … (spec/00_scope.md R16). -/
def Memory.writeBytes : Memory → Nat → List Byte → Memory
  | m, _, [] => m
  | m, x, v :: X => Memory.writeBytes (Memory.write m x v) (x + 1) X

/-- `BufRead`: the `n` bytes at `x`, `x + 1`, … (spec/00_scope.md R16). -/
def Memory.readBytes (m : Memory) (x n : Nat) : List Byte :=
  (List.range n).map fun k => Memory.read m (x + k)

/-! ## Registers (spec/00_scope.md R16) -/

/-- Field register `i`. The index of a legal command is below 8 (spec/30_encoding.md R82). -/
def State.readF (s : State) (i : RegIdx) : FieldReg := (s.f[i.toNat]?).getD .empty

/-- `F[i] <- {val: v, mod: m}`, which also sets `full` (spec/00_scope.md R16). -/
def State.writeF (s : State) (i : RegIdx) (e : FieldElement) : State :=
  { s with f := s.f.setIfInBounds i.toNat (.full e) }

/-- Point register `j`. The index of a legal command is below 4 (spec/30_encoding.md R82). -/
def State.readP (s : State) (j : RegIdx) : PointReg := (s.p[j.toNat]?).getD .empty

/-- `P[j] <- v` (spec/00_scope.md R16). -/
def State.writeP (s : State) (j : RegIdx) (P : CurvePoint) : State :=
  { s with p := s.p.setIfInBounds j.toNat (.point P) }

/-- A result of at most 68 bytes into `OUTBUF`: all 68 bytes are written, the result first, then `00`, and `OLEN` is its length
(spec/10_state.md R29, spec/41_point.md R150, spec/43_hmac_pbkdf2.md R193). -/
def State.writeOut (s : State) (X : List Byte) : State :=
  { s with
    mem := Memory.writeBytes s.mem Config.outbufBase (X ++ List.replicate (Config.outbufBytes - X.length) 0)
    olen := BitVec.ofNat 32 X.length }

/-! ## Fault entry, and the return from the faulted state -/

/-- Fault entry (spec/60_exceptions.md R245): the kind's code and the command word are recorded, the working storage is cleared, nothing is
pending, and nothing else is written. -/
def State.raise (s : State) (k : ErrKind) (w : Word) : State :=
  { s with err := true, ecode := k.code, ecmd := w, work := Work.cleared, pend := none }

/-- The return from the faulted state (spec/44_system.md R211, spec/60_exceptions.md R248): the record is cleared and nothing else. -/
def State.clearRecord (s : State) : State :=
  { s with err := false, ecode := 0, ecmd := 0 }

/-- The end of a command that did not fault: nothing is pending and the working storage is cleared (spec/10_state.md R33, R35). -/
def State.retire (s : State) : State :=
  { s with pend := none, work := Work.cleared }

/-- A dropped word changes no state; it is not pending either (spec/60_exceptions.md R247). -/
def State.drop (s : State) : State :=
  { s with pend := none }

/-! ## The frame every command runs in -/

/-- The two commands the unit executes while it is faulted (spec/44_system.md R210). -/
def runsWhileFaulted : Instr → Bool
  | .clrerr => true
  | .zero => true
  | .fmake _ => false
  | .fadd _ _ _ => false
  | .fsub _ _ _ => false
  | .fmul _ _ _ => false
  | .fdiv _ _ _ => false
  | .finv _ _ => false
  | .pmake _ _ _ => false
  | .pinf _ => false
  | .pldg _ => false
  | .padd _ _ _ => false
  | .pgetx _ _ => false
  | .pgety _ _ => false
  | .pser _ _ => false
  | .smul _ _ _ => false
  | .kchk _ => false
  | .hmac => false
  | .pbkdf2 => false
  | .mseed => false

/-- What a command computes: the state with its one write made, or the kind of its first failing check (spec/60_exceptions.md R244, R246). -/
abbrev Effect := Except ErrKind State

/-- A command, whole: dropped while the unit is faulted, unless it is `CLRERR` or `ZERO` (spec/60_exceptions.md R247); an index out of range is
an illegal command (spec/30_encoding.md R86); else its effect, or fault entry with nothing else written (spec/60_exceptions.md R245). -/
def runCommand (i : Instr) (s : State) (effect : Effect) : Host.Outcome State Fault Refusal :=
  if s.err && !runsWhileFaulted i then .next s.drop
  else if i.wf then
    match effect with
    | .ok t => .next t.retire
    | .error k => .next (s.raise k (encode i))
  else .next (s.raise .illegalCommand (encode i))

end Sys2Proof.Machine
end

