-- ==== Sys2Proof/Machine/Operands.lean ====
section
/-! DEFINITION. Every operand form: a field-register source, a point-register source, a finite point, a scalar, the staging registers and the buffers
(spec/30_encoding.md R82, R83; spec/10_state.md R24, R26, R28 to R30). -/

namespace Sys2Proof.Machine

/-- A field-register source: Empty raises `EmptyOperand` (spec/10_state.md R24). -/
def State.srcF (s : State) (i : RegIdx) : Except ErrKind FieldElement :=
  match s.readF i with
  | .full e => .ok e
  | .empty => .error .emptyOperand

/-- A point-register source: Empty raises `EmptyOperand` (spec/10_state.md R26). -/
def State.srcP (s : State) (j : RegIdx) : Except ErrKind CurvePoint :=
  match s.readP j with
  | .point P => .ok P
  | .empty => .error .emptyOperand

/-- The coordinates of a finite point; `Inf` has none and raises `InfinityOperand` (spec/41_point.md R148 to R150). -/
def coordinates : CurvePoint → Except ErrKind (U256 × U256)
  | .fin x y => .ok (x, y)
  | .inf => .error .infinityOperand

/-- A source that must be a finite point: Empty before Inf (spec/60_exceptions.md R244). -/
def State.srcFin (s : State) (j : RegIdx) : Except ErrKind (U256 × U256) :=
  match s.srcP j with
  | .ok P => coordinates P
  | .error k => .error k

/-- Two field-register sources, `rs1` before `rs2` (spec/60_exceptions.md R244). -/
def State.srcFF (s : State) (i j : RegIdx) : Except ErrKind (FieldElement × FieldElement) :=
  match s.srcF i with
  | .error k => .error k
  | .ok a =>
    match s.srcF j with
    | .error k => .error k
    | .ok b => .ok (a, b)

/-- Two point-register sources, `rs1` before `rs2` (spec/60_exceptions.md R244). -/
def State.srcPP (s : State) (i j : RegIdx) : Except ErrKind (CurvePoint × CurvePoint) :=
  match s.srcP i with
  | .error k => .error k
  | .ok A =>
    match s.srcP j with
    | .error k => .error k
    | .ok B => .ok (A, B)

/-- The key or password and the message or salt: `KLEN` bytes of `KEYBUF` and `MLEN` bytes of `MSGBUF`; a length above the capacity raises
`BufferLength`, `KLEN` checked first (spec/43_hmac_pbkdf2.md R193). -/
def State.srcBuffers (s : State) : Except ErrKind (List Byte × List Byte) :=
  if Config.keybufBytes < s.klen.toNat then .error .bufferLength
  else if Config.msgbufBytes < s.mlen.toNat then .error .bufferLength
  else .ok (Memory.readBytes s.mem Config.keybufBase s.klen.toNat, Memory.readBytes s.mem Config.msgbufBase s.mlen.toNat)

end Sys2Proof.Machine
end

