-- ==== Sys2Proof/Machine/Field.lean ====
section
/-! DEFINITION. The field commands FMAKE, FADD, FSUB, FMUL, FDIV, FINV (spec/40_field.md). -/

namespace Sys2Proof.Machine

/-- The shape of `FADD`, `FSUB` and `FMUL`: two sources of one modulus, and a result in that modulus (spec/40_field.md R110, R115 to R117). -/
def fieldBinary (op : U256 → U256 → U256 → U256) (s : State) (rd rs1 rs2 : RegIdx) : Effect :=
  match s.srcFF rs1 rs2 with
  | .error k => .error k
  | .ok (a, b) =>
    if a.mod = b.mod then .ok (s.writeF rd ⟨op a.mod a.val b.val, a.mod⟩)
    else .error .mismatchedModulus

/-- `FMAKE fd` (spec/40_field.md R114). -/
def execFmake (rd : RegIdx) (s : State) : Host.Outcome State Fault Refusal :=
  runCommand (.fmake rd) s
    (if s.opm.toNat ≤ 1 then .error .invalidModulus
     else .ok (s.writeF rd ⟨reduceMod s.opm s.opa, s.opm⟩))

/-- `FADD fd, fs1, fs2` (spec/40_field.md R115). -/
def execFadd (rd rs1 rs2 : RegIdx) (s : State) : Host.Outcome State Fault Refusal :=
  runCommand (.fadd rd rs1 rs2) s (fieldBinary faddMod s rd rs1 rs2)

/-- `FSUB fd, fs1, fs2` (spec/40_field.md R116). -/
def execFsub (rd rs1 rs2 : RegIdx) (s : State) : Host.Outcome State Fault Refusal :=
  runCommand (.fsub rd rs1 rs2) s (fieldBinary fsubMod s rd rs1 rs2)

/-- `FMUL fd, fs1, fs2` (spec/40_field.md R117). -/
def execFmul (rd rs1 rs2 : RegIdx) (s : State) : Host.Outcome State Fault Refusal :=
  runCommand (.fmul rd rs1 rs2) s (fieldBinary fmulMod s rd rs1 rs2)

/-- The effect of `FDIV`: a zero divisor, then no inverse, then different moduli (spec/40_field.md R118). -/
def fieldDivide (s : State) (rd rs1 rs2 : RegIdx) : Effect :=
  match s.srcFF rs1 rs2 with
  | .error k => .error k
  | .ok (a, b) =>
    if b.val = 0 then .error .divisionByZero
    else
      match invMod b.mod.toNat b.val.toNat with
      | .error k => .error k
      | .ok i =>
        if a.mod = b.mod then .ok (s.writeF rd ⟨fmulMod a.mod a.val (BitVec.ofNat 256 i), a.mod⟩)
        else .error .mismatchedModulus

/-- `FDIV fd, fs1, fs2` (spec/40_field.md R118). -/
def execFdiv (rd rs1 rs2 : RegIdx) (s : State) : Host.Outcome State Fault Refusal :=
  runCommand (.fdiv rd rs1 rs2) s (fieldDivide s rd rs1 rs2)

/-- The effect of `FINV` (spec/40_field.md R119). -/
def fieldInvert (s : State) (rd rs1 : RegIdx) : Effect :=
  match s.srcF rs1 with
  | .error k => .error k
  | .ok a =>
    match invMod a.mod.toNat a.val.toNat with
    | .error k => .error k
    | .ok t => .ok (s.writeF rd ⟨BitVec.ofNat 256 t, a.mod⟩)

/-- `FINV fd, fs1` (spec/40_field.md R119). -/
def execFinv (rd rs1 : RegIdx) (s : State) : Host.Outcome State Fault Refusal :=
  runCommand (.finv rd rs1) s (fieldInvert s rd rs1)

end Sys2Proof.Machine
end

