-- ==== Sys2Proof/Machine/Sha512.lean ====
section
/-! DEFINITION. SHA-512, the instance of `HASH512` (spec/45_sha512.md R220 to R223; general knowledge there, log 9). -/

namespace Sys2Proof.Machine

/-- Eight 64-bit words: a hash value `H[0..7]`, or the working variables `a .. h` (spec/45_sha512.md R221). -/
structure HashWords where
  a : Word64
  b : Word64
  c : Word64
  d : Word64
  e : Word64
  f : Word64
  g : Word64
  h : Word64
  deriving DecidableEq, Repr

/-- The initial hash value `H0[0..7]` (spec/45_sha512.md R222). -/
def hashInit : HashWords where
  a := 0x6A09E667F3BCC908
  b := 0xBB67AE8584CAA73B
  c := 0x3C6EF372FE94F82B
  d := 0xA54FF53A5F1D36F1
  e := 0x510E527FADE682D1
  f := 0x9B05688C2B3E6C1F
  g := 0x1F83D9ABFB41BD6B
  h := 0x5BE0CD19137E2179

/-- The round constants `K[0..79]` (spec/45_sha512.md R223). -/
def roundConstants : List Word64 :=
  [ 0x428A2F98D728AE22, 0x7137449123EF65CD, 0xB5C0FBCFEC4D3B2F, 0xE9B5DBA58189DBBC,
    0x3956C25BF348B538, 0x59F111F1B605D019, 0x923F82A4AF194F9B, 0xAB1C5ED5DA6D8118,
    0xD807AA98A3030242, 0x12835B0145706FBE, 0x243185BE4EE4B28C, 0x550C7DC3D5FFB4E2,
    0x72BE5D74F27B896F, 0x80DEB1FE3B1696B1, 0x9BDC06A725C71235, 0xC19BF174CF692694,
    0xE49B69C19EF14AD2, 0xEFBE4786384F25E3, 0x0FC19DC68B8CD5B5, 0x240CA1CC77AC9C65 ] ++
  [ 0x2DE92C6F592B0275, 0x4A7484AA6EA6E483, 0x5CB0A9DCBD41FBD4, 0x76F988DA831153B5,
    0x983E5152EE66DFAB, 0xA831C66D2DB43210, 0xB00327C898FB213F, 0xBF597FC7BEEF0EE4,
    0xC6E00BF33DA88FC2, 0xD5A79147930AA725, 0x06CA6351E003826F, 0x142929670A0E6E70,
    0x27B70A8546D22FFC, 0x2E1B21385C26C926, 0x4D2C6DFC5AC42AED, 0x53380D139D95B3DF,
    0x650A73548BAF63DE, 0x766A0ABB3C77B2A8, 0x81C2C92E47EDAEE6, 0x92722C851482353B ] ++
  [ 0xA2BFE8A14CF10364, 0xA81A664BBC423001, 0xC24B8B70D0F89791, 0xC76C51A30654BE30,
    0xD192E819D6EF5218, 0xD69906245565A910, 0xF40E35855771202A, 0x106AA07032BBD1B8,
    0x19A4C116B8D2D0C8, 0x1E376C085141AB53, 0x2748774CDF8EEB99, 0x34B0BCB5E19B48A8,
    0x391C0CB3C5C95A63, 0x4ED8AA4AE3418ACB, 0x5B9CCA4F7763E373, 0x682E6FF3D6B2B8A3,
    0x748F82EE5DEFB2FC, 0x78A5636F43172F60, 0x84C87814A1F0AB72, 0x8CC702081A6439EC ] ++
  [ 0x90BEFFFA23631E28, 0xA4506CEBDE82BDE9, 0xBEF9A3F7B2C67915, 0xC67178F2E372532B,
    0xCA273ECEEA26619C, 0xD186B8C721C0C207, 0xEADA7DD6CDE0EB1E, 0xF57D4F7FEE6ED178,
    0x06F067AA72176FBA, 0x0A637DC5A2C898A6, 0x113F9804BEF90DAE, 0x1B710B35131C471B,
    0x28DB77F523047D84, 0x32CAAB7B40C72493, 0x3C9EBE0A15C9BEBC, 0x431D67C49C100D4C,
    0x4CC5D4BECB3E42B6, 0x597F299CFC657E2A, 0x5FCB6FAB3AD6FAEC, 0x6C44198C4A475817 ]

/-- `Ch` (spec/45_sha512.md R221). -/
def shaCh (x y z : Word64) : Word64 := (x &&& y) ^^^ (~~~x &&& z)
/-- `Maj` (spec/45_sha512.md R221). -/
def shaMaj (x y z : Word64) : Word64 := (x &&& y) ^^^ (x &&& z) ^^^ (y &&& z)
/-- `S0` (spec/45_sha512.md R221). -/
def shaBigS0 (x : Word64) : Word64 := x.rotateRight 28 ^^^ x.rotateRight 34 ^^^ x.rotateRight 39
/-- `S1` (spec/45_sha512.md R221). -/
def shaBigS1 (x : Word64) : Word64 := x.rotateRight 14 ^^^ x.rotateRight 18 ^^^ x.rotateRight 41
/-- `s0` (spec/45_sha512.md R221). -/
def shaSmallS0 (x : Word64) : Word64 := x.rotateRight 1 ^^^ x.rotateRight 8 ^^^ (x >>> 7)
/-- `s1` (spec/45_sha512.md R221). -/
def shaSmallS1 (x : Word64) : Word64 := x.rotateRight 19 ^^^ x.rotateRight 61 ^^^ (x >>> 6)

/-- The padded message: one byte `80`, the fewest `00` bytes that make the length 112 modulo 128, and the bit length in 16 bytes
(spec/45_sha512.md R221). -/
def shaPad (M : List Byte) : List Byte :=
  M ++ [0x80] ++ List.replicate ((((112 : Int) - (M.length + 1)) % 128).toNat) 0 ++ be (8 * M.length) 16

/-- The first `n` words of a byte sequence, 8 bytes each, big-endian (spec/45_sha512.md R220). -/
def shaWords (n : Nat) (B : List Byte) : List Word64 :=
  (List.range n).map fun t => BitVec.ofNat 64 (int ((B.drop (8 * t)).take 8))

/-- The message schedule grown by `n` words; the words so far are listed newest first, so `W[t−2]` is at index 1
(spec/45_sha512.md R221). -/
def shaExtend : Nat → List Word64 → List Word64
  | 0, W => W
  | n + 1, W =>
    shaExtend n ((shaSmallS1 (W.getD 1 0) + W.getD 6 0 + shaSmallS0 (W.getD 14 0) + W.getD 15 0) :: W)

/-- The 80 words `W[0..79]` of a block (spec/45_sha512.md R221). -/
def shaSchedule (B : List Byte) : List Word64 :=
  (shaExtend 64 (shaWords 16 B).reverse).reverse

/-- One round (spec/45_sha512.md R221). -/
def shaRound (v : HashWords) (k w : Word64) : HashWords :=
  let t1 := v.h + shaBigS1 v.e + shaCh v.e v.f v.g + k + w
  let t2 := shaBigS0 v.a + shaMaj v.a v.b v.c
  ⟨t1 + t2, v.a, v.b, v.c, v.d + t1, v.e, v.f, v.g⟩

/-- The rounds of a block, one per round constant and schedule word. -/
def shaRounds : HashWords → List Word64 → List Word64 → HashWords
  | v, k :: ks, w :: ws => shaRounds (shaRound v k w) ks ws
  | v, _, _ => v

/-- The hash value after one 128-byte block (spec/45_sha512.md R221). -/
def shaBlock (H : HashWords) (B : List Byte) : HashWords :=
  let v := shaRounds H roundConstants (shaSchedule B)
  ⟨H.a + v.a, H.b + v.b, H.c + v.c, H.d + v.d, H.e + v.e, H.f + v.f, H.g + v.g, H.h + v.h⟩

/-- The hash value after the first `n` blocks of the padded message, in order. -/
def shaBlocks : Nat → HashWords → List Byte → HashWords
  | 0, H, _ => H
  | n + 1, H, Mp => shaBlocks n (shaBlock H (Mp.take 128)) (Mp.drop 128)

/-- The 64 bytes of a hash value (spec/45_sha512.md R221). -/
def HashWords.bytes (H : HashWords) : List Byte :=
  be H.a.toNat 8 ++ be H.b.toNat 8 ++ be H.c.toNat 8 ++ be H.d.toNat 8 ++
  be H.e.toNat 8 ++ be H.f.toNat 8 ++ be H.g.toNat 8 ++ be H.h.toNat 8

/-- `SHA512(M)` (spec/45_sha512.md R221). -/
def sha512 (M : List Byte) : List Byte :=
  (shaBlocks ((shaPad M).length / 128) hashInit (shaPad M)).bytes

end Sys2Proof.Machine
end

