-- ==== Sys2Proof/Machine/Hmac.lean ====
section
/-! DEFINITION. HMAC and PBKDF2 over `HASH512` (spec/43_hmac_pbkdf2.md R190 to R192; general knowledge there, log 9). -/

namespace Sys2Proof.Machine

/-- `HASH512`, the one hash function of both cores; its instance in this hardware is SHA-512 (spec/00_scope.md R11, spec/43_hmac_pbkdf2.md R190). -/
def hash512 (M : List Byte) : List Byte := sha512 M

/-- The key as one block: a key longer than a block is hashed first, and `00` bytes fill the block (spec/43_hmac_pbkdf2.md R191). -/
def hmacKeyBlock (K : List Byte) : List Byte :=
  let K0 := if Config.hashBlock < K.length then hash512 K else K
  K0 ++ List.replicate (Config.hashBlock - K0.length) 0

/-- `HMAC512(K, M)` (spec/43_hmac_pbkdf2.md R191). -/
def hmac512 (K M : List Byte) : List Byte :=
  let K0 := hmacKeyBlock K
  let ipad := List.replicate Config.hashBlock (0x36 : Byte)
  let opad := List.replicate Config.hashBlock (0x5C : Byte)
  let inner := hash512 (xorBytes K0 ipad ++ M)
  hash512 (xorBytes K0 opad ++ inner)

/-- `n` more iterations of PBKDF2 from `U` and the running exclusive-or `T` (spec/43_hmac_pbkdf2.md R192). -/
def pbkdf2Loop (Pw : List Byte) : Nat → List Byte → List Byte → List Byte
  | 0, _, T => T
  | n + 1, U, T =>
    let U' := hmac512 Pw U
    pbkdf2Loop Pw n U' (xorBytes T U')

/-- `PBKDF2_512(Pw, S)`: 2048 iterations, one output block (spec/43_hmac_pbkdf2.md R192). -/
def pbkdf2_512 (Pw S : List Byte) : List Byte :=
  let U := hmac512 Pw (S ++ be 1 4)
  pbkdf2Loop Pw (Config.pbkdf2Iter - 1) U U

end Sys2Proof.Machine
end

