-- ==== Sys2Proof/Machine/Hash.lean ====
section
/-! DEFINITION. The hash commands HMAC, PBKDF2, MSEED (spec/43_hmac_pbkdf2.md). -/

namespace Sys2Proof.Machine

/-- The shape of the three commands: the buffers' bytes in, 64 bytes out into `OUTBUF` (spec/43_hmac_pbkdf2.md R193). -/
def hashEffect (digest : List Byte → List Byte → List Byte) (s : State) : Effect :=
  match s.srcBuffers with
  | .error k => .error k
  | .ok (K, M) => .ok (s.writeOut (digest K M))

/-- `HMAC` (spec/43_hmac_pbkdf2.md R194). -/
def execHmac (s : State) : Host.Outcome State Fault Refusal :=
  runCommand .hmac s (hashEffect hmac512 s)

/-- `PBKDF2` (spec/43_hmac_pbkdf2.md R195). -/
def execPbkdf2 (s : State) : Host.Outcome State Fault Refusal :=
  runCommand .pbkdf2 s (hashEffect pbkdf2_512 s)

/-- The seed of a phrase and a passphrase: the salt is "mnemonic" and the passphrase (spec/43_hmac_pbkdf2.md R196). -/
def mnemonicSeed (phrase passphrase : List Byte) : List Byte :=
  pbkdf2_512 phrase (Config.seedPrefix ++ passphrase)

/-- `MSEED` (spec/43_hmac_pbkdf2.md R196). -/
def execMseed (s : State) : Host.Outcome State Fault Refusal :=
  runCommand .mseed s (hashEffect mnemonicSeed s)

end Sys2Proof.Machine
end

