-- ==== Sys2Proof/Machine/Point.lean ====
section
/-! DEFINITION. The point commands PMAKE, PINF, PLDG, PADD, PGETX, PGETY, PSER (spec/41_point.md). -/

namespace Sys2Proof.Machine

/-- `P_FIELD` as a 256-bit modulus. -/
def pFieldWord : U256 := BitVec.ofNat 256 Config.pField

/-- The effect of `PMAKE`: both sources full, then each of modulus `P_FIELD`, `rs1` first (spec/41_point.md R144). -/
def makePoint (s : State) (rd rs1 rs2 : RegIdx) : Effect :=
  match s.srcFF rs1 rs2 with
  | .error k => .error k
  | .ok (a, b) =>
    if a.mod = pFieldWord then
      if b.mod = pFieldWord then .ok (s.writeP rd (.fin a.val b.val))
      else .error .mismatchedModulus
    else .error .mismatchedModulus

/-- `PMAKE pd, fs1, fs2` (spec/41_point.md R144). -/
def execPmake (rd rs1 rs2 : RegIdx) (s : State) : Host.Outcome State Fault Refusal :=
  runCommand (.pmake rd rs1 rs2) s (makePoint s rd rs1 rs2)

/-- `PINF pd` (spec/41_point.md R145). -/
def execPinf (rd : RegIdx) (s : State) : Host.Outcome State Fault Refusal :=
  runCommand (.pinf rd) s (.ok (s.writeP rd .inf))

/-- `PLDG pd` (spec/41_point.md R146). -/
def execPldg (rd : RegIdx) (s : State) : Host.Outcome State Fault Refusal :=
  runCommand (.pldg rd) s (.ok (s.writeP rd gPoint))

/-- The effect of `PADD` (spec/41_point.md R147). -/
def addPoints (s : State) (rd rs1 rs2 : RegIdx) : Effect :=
  match s.srcPP rs1 rs2 with
  | .error k => .error k
  | .ok (A, B) =>
    match pointAdd A B with
    | .error k => .error k
    | .ok C => .ok (s.writeP rd C)

/-- `PADD pd, ps1, ps2` (spec/41_point.md R147). -/
def execPadd (rd rs1 rs2 : RegIdx) (s : State) : Host.Outcome State Fault Refusal :=
  runCommand (.padd rd rs1 rs2) s (addPoints s rd rs1 rs2)

/-- The effect of `PGETX` and `PGETY`: one coordinate, chosen by `pick`, as an element of the field of `P_FIELD` (spec/41_point.md R148, R149). -/
def getCoordinate (pick : U256 × U256 → U256) (s : State) (rd rs1 : RegIdx) : Effect :=
  match s.srcFin rs1 with
  | .error k => .error k
  | .ok xy => .ok (s.writeF rd ⟨pick xy, pFieldWord⟩)

/-- `PGETX fd, ps1` (spec/41_point.md R148). -/
def execPgetx (rd rs1 : RegIdx) (s : State) : Host.Outcome State Fault Refusal :=
  runCommand (.pgetx rd rs1) s (getCoordinate Prod.fst s rd rs1)

/-- `PGETY fd, ps1` (spec/41_point.md R149). -/
def execPgety (rd rs1 : RegIdx) (s : State) : Host.Outcome State Fault Refusal :=
  runCommand (.pgety rd rs1) s (getCoordinate Prod.snd s rd rs1)

/-- `serialize`: 33 bytes compressed, 65 bytes uncompressed (spec/41_point.md R150). -/
def serialize (x y : U256) (m : Bool) : List Byte :=
  if m then (if y.getLsbD 0 then (0x03 : Byte) else 0x02) :: be x.toNat 32
  else (0x04 : Byte) :: (be x.toNat 32 ++ be y.toNat 32)

/-- The effect of `PSER` (spec/41_point.md R150). -/
def serializePoint (s : State) (rs1 : RegIdx) (m : Bool) : Effect :=
  match s.srcFin rs1 with
  | .error k => .error k
  | .ok xy => .ok (s.writeOut (serialize xy.1 xy.2 m))

/-- `PSER ps1, m` (spec/41_point.md R150). -/
def execPser (rs1 : RegIdx) (m : Bool) (s : State) : Host.Outcome State Fault Refusal :=
  runCommand (.pser rs1 m) s (serializePoint s rs1 m)

end Sys2Proof.Machine
end

