-- ==== Sys2Proof/Machine/Scalar.lean ====
section
/-! DEFINITION. The scalar commands SMUL and KCHK (spec/42_scalar.md). -/

namespace Sys2Proof.Machine

/-- The effect of `SMUL`: the scalar is the field register's `val` alone (spec/42_scalar.md R170, R171). -/
def multiplyPoint (s : State) (rd rs1 rs2 : RegIdx) : Effect :=
  match s.srcF rs1 with
  | .error k => .error k
  | .ok a =>
    match s.srcP rs2 with
    | .error k => .error k
    | .ok P =>
      match scalarMul a.val.toNat P with
      | .error k => .error k
      | .ok R => .ok (s.writeP rd R)

/-- `SMUL pd, fs1, ps2` (spec/42_scalar.md R171). -/
def execSmul (rd rs1 rs2 : RegIdx) (s : State) : Host.Outcome State Fault Refusal :=
  runCommand (.smul rd rs1 rs2) s (multiplyPoint s rd rs1 rs2)

/-- The effect of `KCHK`: nothing, or `InvalidPrivateKeyRange` (spec/42_scalar.md R172). -/
def checkKey (s : State) (rs1 : RegIdx) : Effect :=
  match s.srcF rs1 with
  | .error k => .error k
  | .ok a => if a.val.toNat = 0 ∨ Config.nOrder ≤ a.val.toNat then .error .invalidPrivateKeyRange else .ok s

/-- `KCHK fs1` (spec/42_scalar.md R172). -/
def execKchk (rs1 : RegIdx) (s : State) : Host.Outcome State Fault Refusal :=
  runCommand (.kchk rs1) s (checkKey s rs1)

end Sys2Proof.Machine
end

