-- ==== Sys2Proof/Machine/System.lean ====
section
/-! DEFINITION. The system commands CLRERR and ZERO (spec/44_system.md). -/

namespace Sys2Proof.Machine

/-- `ZERO`'s wipe: every register, buffer and length; `ERR`, `ECODE` and `ECMD` are kept (spec/44_system.md R212). -/
def State.wipe (s : State) : State :=
  { s with
    f := Vector.replicate 8 .empty
    p := Vector.replicate 4 .empty
    opa := 0
    opm := 0
    mem := []
    klen := 0
    mlen := 0
    olen := 0
    work := Work.cleared }

/-- `CLRERR` (spec/44_system.md R211). -/
def execClrerr (s : State) : Host.Outcome State Fault Refusal :=
  runCommand .clrerr s (.ok s.clearRecord)

/-- `ZERO` (spec/44_system.md R212). -/
def execZero (s : State) : Host.Outcome State Fault Refusal :=
  runCommand .zero s (.ok s.wipe)

end Sys2Proof.Machine
end

