-- ==== Sys2Proof/Machine/Dispatch.lean ====
section
/-! DEFINITION. One arm per command: the meaning it calls. -/

namespace Sys2Proof.Machine

def exec (i : Instr) (s : State) : Host.Outcome State Fault Refusal :=
  match i with
  | .clrerr => Sys2Proof.Machine.execClrerr s
  | .zero => Sys2Proof.Machine.execZero s
  | .fmake rd => Sys2Proof.Machine.execFmake rd s
  | .fadd rd rs1 rs2 => Sys2Proof.Machine.execFadd rd rs1 rs2 s
  | .fsub rd rs1 rs2 => Sys2Proof.Machine.execFsub rd rs1 rs2 s
  | .fmul rd rs1 rs2 => Sys2Proof.Machine.execFmul rd rs1 rs2 s
  | .fdiv rd rs1 rs2 => Sys2Proof.Machine.execFdiv rd rs1 rs2 s
  | .finv rd rs1 => Sys2Proof.Machine.execFinv rd rs1 s
  | .pmake rd rs1 rs2 => Sys2Proof.Machine.execPmake rd rs1 rs2 s
  | .pinf rd => Sys2Proof.Machine.execPinf rd s
  | .pldg rd => Sys2Proof.Machine.execPldg rd s
  | .padd rd rs1 rs2 => Sys2Proof.Machine.execPadd rd rs1 rs2 s
  | .pgetx rd rs1 => Sys2Proof.Machine.execPgetx rd rs1 s
  | .pgety rd rs1 => Sys2Proof.Machine.execPgety rd rs1 s
  | .pser rs1 m => Sys2Proof.Machine.execPser rs1 m s
  | .smul rd rs1 rs2 => Sys2Proof.Machine.execSmul rd rs1 rs2 s
  | .kchk rs1 => Sys2Proof.Machine.execKchk rs1 s
  | .hmac => Sys2Proof.Machine.execHmac s
  | .pbkdf2 => Sys2Proof.Machine.execPbkdf2 s
  | .mseed => Sys2Proof.Machine.execMseed s

end Sys2Proof.Machine
end

