-- ==== Sys2Proof/Machine/RegMap.lean ====
section
/-! DEFINITION. The register map: its regions, what they hold, and the host's two primitives on them (spec/20_memory.md R50 to R56). -/

namespace Sys2Proof.Machine

/-- What a region of the register map holds (spec/20_memory.md R51). -/
inductive Region where
  | cmd
  | status
  | ecmd
  | klen
  | mlen
  | olen
  | opa
  | opm
  | fieldVal (i : RegIdx)
  | fieldMod (i : RegIdx)
  | fieldFull (i : RegIdx)
  | pointX (j : RegIdx)
  | pointY (j : RegIdx)
  | pointTag (j : RegIdx)
  | keybuf
  | msgbuf
  | outbuf
  deriving DecidableEq, Repr

/-- What the host may do with a region: read and write, read only, write only (spec/20_memory.md R51). -/
inductive Access where
  | rw
  | ro
  | wo
  deriving DecidableEq, Repr

/-- One row of the register map. -/
structure MapRow where
  base : Nat
  size : Nat
  access : Access
  region : Region
  deriving DecidableEq, Repr

/-- The rows of one field register's window (spec/20_memory.md R51). -/
def fieldWindow (i : RegIdx) : List MapRow :=
  [ ⟨0x0400 + 0x80 * i.toNat, 32, .ro, .fieldVal i⟩,
    ⟨0x0420 + 0x80 * i.toNat, 32, .ro, .fieldMod i⟩,
    ⟨0x0440 + 0x80 * i.toNat, 4, .ro, .fieldFull i⟩ ]

/-- The rows of one point register's window (spec/20_memory.md R51). -/
def pointWindow (j : RegIdx) : List MapRow :=
  [ ⟨0x0800 + 0x80 * j.toNat, 32, .ro, .pointX j⟩,
    ⟨0x0820 + 0x80 * j.toNat, 32, .ro, .pointY j⟩,
    ⟨0x0840 + 0x80 * j.toNat, 4, .ro, .pointTag j⟩ ]

/-- The control and staging registers (spec/20_memory.md R51). -/
def controlRows : List MapRow :=
  [ ⟨0x0000, 4, .wo, .cmd⟩,
    ⟨0x0004, 4, .ro, .status⟩,
    ⟨0x0008, 4, .ro, .ecmd⟩,
    ⟨0x0010, 4, .rw, .klen⟩,
    ⟨0x0014, 4, .rw, .mlen⟩,
    ⟨0x0018, 4, .ro, .olen⟩,
    ⟨0x0040, 32, .rw, .opa⟩,
    ⟨0x0060, 32, .rw, .opm⟩ ]

/-- The byte buffers (spec/20_memory.md R51). -/
def bufferRows : List MapRow :=
  [ ⟨Config.keybufBase, Config.keybufBytes, .rw, .keybuf⟩,
    ⟨Config.msgbufBase, Config.msgbufBytes, .rw, .msgbuf⟩,
    ⟨Config.outbufBase, Config.outbufBytes, .ro, .outbuf⟩ ]

/-- The register map (spec/20_memory.md R51). -/
def registerMap : List MapRow :=
  controlRows ++ [0, 1, 2, 3, 4, 5, 6, 7].flatMap fieldWindow ++ [0, 1, 2, 3].flatMap pointWindow ++ bufferRows

/-- The row that holds offset `a`, if it is mapped. -/
def findRow (a : Nat) : Option MapRow :=
  registerMap.find? fun r => decide (r.base ≤ a ∧ a < r.base + r.size)

/-- `F[i].val`, 0 when Empty (spec/10_state.md R22). -/
def FieldReg.val : FieldReg → U256
  | .empty => 0
  | .full e => e.val

/-- `F[i].mod`, 0 when Empty (spec/10_state.md R22). -/
def FieldReg.mod : FieldReg → U256
  | .empty => 0
  | .full e => e.mod

/-- `F[i].full`: 0 Empty, 1 full (spec/10_state.md R22). -/
def FieldReg.fullBit : FieldReg → Nat
  | .empty => 0
  | .full _ => 1

/-- `P[j].x`, 0 unless finite (spec/10_state.md R25). -/
def PointReg.x : PointReg → U256
  | .empty => 0
  | .point .inf => 0
  | .point (.fin x _) => x

/-- `P[j].y`, 0 unless finite (spec/10_state.md R25). -/
def PointReg.y : PointReg → U256
  | .empty => 0
  | .point .inf => 0
  | .point (.fin _ y) => y

/-- `P[j].tag`: 0 Empty, 1 Inf, 2 Fin (spec/10_state.md R25). -/
def PointReg.tag : PointReg → Nat
  | .empty => 0
  | .point .inf => 1
  | .point (.fin _ _) => 2

/-- The bytes of a region: an integer register of `n` bytes is `BE(v, n)`, a buffer is its bytes (spec/20_memory.md R52).
`CMD` holds nothing (spec/10_state.md R33) and is never read. -/
def regionBytes (s : State) : Region → List Byte
  | .cmd => []
  | .status => be s.statusWord.toNat 4
  | .ecmd => be s.ecmd.toNat 4
  | .klen => be s.klen.toNat 4
  | .mlen => be s.mlen.toNat 4
  | .olen => be s.olen.toNat 4
  | .opa => be s.opa.toNat 32
  | .opm => be s.opm.toNat 32
  | .fieldVal i => be (s.readF i).val.toNat 32
  | .fieldMod i => be (s.readF i).mod.toNat 32
  | .fieldFull i => be (s.readF i).fullBit 4
  | .pointX j => be (s.readP j).x.toNat 32
  | .pointY j => be (s.readP j).y.toNat 32
  | .pointTag j => be (s.readP j).tag 4
  | .keybuf => Memory.readBytes s.mem Config.keybufBase Config.keybufBytes
  | .msgbuf => Memory.readBytes s.mem Config.msgbufBase Config.msgbufBytes
  | .outbuf => Memory.readBytes s.mem Config.outbufBase Config.outbufBytes

/-- `HostRead32` at a mapped, readable offset `a` of row `r`: the four bytes at `a` (spec/20_memory.md R53). -/
def readRow (s : State) (r : MapRow) (a : Nat) : List Byte :=
  ((regionBytes s r.region).drop (a - r.base)).take 4

/-- A register of `n` bytes with the bytes of a word write put in at byte `k`. -/
def patchInt (old n k : Nat) (bs : List Byte) : Nat := int (overwrite (be old n) k bs)

/-- `HostWrite32` at a mapped, writable offset `a` of row `r`, other than `CMD`: the bytes are stored and nothing else happens
(spec/20_memory.md R53, R60). -/
def writeRow (s : State) (r : MapRow) (a : Nat) (bs : List Byte) : State :=
  match r.region with
  | .klen => { s with klen := BitVec.ofNat 32 (patchInt s.klen.toNat 4 (a - r.base) bs) }
  | .mlen => { s with mlen := BitVec.ofNat 32 (patchInt s.mlen.toNat 4 (a - r.base) bs) }
  | .opa => { s with opa := BitVec.ofNat 256 (patchInt s.opa.toNat 32 (a - r.base) bs) }
  | .opm => { s with opm := BitVec.ofNat 256 (patchInt s.opm.toNat 32 (a - r.base) bs) }
  | .keybuf => { s with mem := Memory.writeBytes s.mem a bs }
  | .msgbuf => { s with mem := Memory.writeBytes s.mem a bs }
  | .cmd => s
  | .status => s
  | .ecmd => s
  | .olen => s
  | .fieldVal _ => s
  | .fieldMod _ => s
  | .fieldFull _ => s
  | .pointX _ => s
  | .pointY _ => s
  | .pointTag _ => s
  | .outbuf => s

end Sys2Proof.Machine
end

