-- ==== Sys2Proof/Machine/Port.lean ====
section
/-! DEFINITION. The host's port: what an access or a reset does when it reaches the unit (spec/20_memory.md R53 to R60, spec/70_reset_and_hazards.md R280, R281). -/

namespace Sys2Proof.Machine

/-- Whether a word is a legal `CLRERR` or `ZERO`, the only words taken while the unit is faulted (spec/60_exceptions.md R247). -/
def acceptedWhileFaulted (w : Word) : Bool :=
  match decode w with
  | .ok i => runsWhileFaulted i
  | .error _ => false

/-- A write of the word `w` to `CMD`: it becomes the pending command; while the unit is faulted, any word but a legal `CLRERR` or `ZERO` is dropped
and nothing happens at all (spec/20_memory.md R60, spec/60_exceptions.md R247). -/
def State.issue (s : State) (w : Word) : State :=
  if s.err && !acceptedWhileFaulted w then s else { s with pend := some w }

/-- The state after the reset signal: every piece of the unit's state at its reset value, a pending command abandoned
(spec/70_reset_and_hazards.md R280, R281). The events to come and the replies given are the outside world's and stay (log 6). -/
def State.afterReset (s : State) : State :=
  { State.reset with inputs := s.inputs, replies := s.replies }

/-- The data of a read is returned to the host. -/
def State.reply (s : State) (bs : List Byte) : State := { s with replies := bs :: s.replies }

/-- What stops an access of `width` bytes at offset `off` before its location is looked at (spec/20_memory.md R54; log 4), else its row. -/
def locate (off width : Nat) : Except (Host.Outcome State Fault Refusal) MapRow :=
  if width ≠ 4 then .error (.refused .accessWidth)
  else if off % 4 ≠ 0 then .error (.refused .misaligned)
  else if Config.mapBytes ≤ off then .error (.fault .outsideMap)
  else
    match findRow off with
    | some r => .ok r
    | none => .error (.refused .unmapped)

/-- `HostRead32(off)` (spec/20_memory.md R53, R56, R60). -/
def hostRead (s : State) (off width : Nat) : Host.Outcome State Fault Refusal :=
  match locate off width with
  | .error o => o
  | .ok r =>
    match r.access with
    | .wo => .refused .writeOnly
    | .rw => .next (s.reply (readRow s r off))
    | .ro => .next (s.reply (readRow s r off))

/-- `HostWrite32(off, data)`: at `CMD` it issues a command (spec/20_memory.md R53, R56, R60). -/
def hostWrite (s : State) (off : Nat) (data : List Byte) : Host.Outcome State Fault Refusal :=
  match locate off data.length with
  | .error o => o
  | .ok r =>
    match r.access with
    | .ro => .refused .readOnly
    | .wo => .next (s.issue (BitVec.ofNat 32 (int data)))
    | .rw => .next (writeRow s r off data)

/-- One event of the outside world at a unit that is not busy. -/
def hostAction (a : HostAction) (s : State) : Host.Outcome State Fault Refusal :=
  match a with
  | .read off width => hostRead s off width
  | .write off data => hostWrite s off data
  | .reset => .next s.afterReset
  | .foreign => .refused .secondInitiator

/-- The offset of `STATUS` (spec/20_memory.md R51). -/
def statusOffset : Nat := 0x0004

/-- Whether an event takes effect while the unit is busy: a read of `STATUS` is not held (spec/20_memory.md R58), and the reset signal is not an
access (spec/70_reset_and_hazards.md R281). Every other access is held. -/
def notHeld : HostAction → Bool
  | .read off width => decide (off = statusOffset ∧ width = 4)
  | .write _ _ => false
  | .reset => true
  | .foreign => false

end Sys2Proof.Machine
end

