-- ==== Sys2Proof/Machine/Unit.lean ====
section
/-! DEFINITION. The unit's own step, completing the pending command, and the choice between it and the host's next event
(spec/10_state.md R21, R33; spec/20_memory.md R58, R59). -/

namespace Sys2Proof.Machine

/-- An illegal word raises `IllegalCommand`, whatever the registers hold; while the unit is faulted it is dropped like any other
(spec/30_encoding.md R86, spec/60_exceptions.md R247). -/
def State.illegalWord (s : State) (w : Word) : State :=
  if s.err then s.drop else s.raise .illegalCommand w

/-- The unit completes the pending word `w`: it is decoded and executed, whole (spec/20_memory.md R59, spec/30_encoding.md R85). -/
def completePending (w : Word) (s : State) : Host.Outcome State Fault Refusal :=
  match decode w with
  | .ok i => exec i s
  | .error _ => .next (s.illegalWord w)

/-- The next event, if it reaches the unit before the pending command is completed and is not held (spec/20_memory.md R58, U4; log 2). -/
def State.earlyEvent (s : State) : Option HostAction :=
  match s.inputs with
  | [] => none
  | e :: _ => if e.early && notHeld e.act then some e.act else none

/-- The state with the first of the events to come taken away. -/
def State.popInput (s : State) : State := { s with inputs := s.inputs.tail }

/-- A busy unit: an early event that is not held takes effect, else the unit completes the pending word (spec/20_memory.md R58, R59). -/
def stepBusy (w : Word) (s : State) : Host.Outcome State Fault Refusal :=
  match s.earlyEvent with
  | some a => hostAction a s.popInput
  | none => completePending w s

/-- A unit that is not busy: the next event takes effect; with none to come the unit stays idle (spec/10_state.md R21, spec/60_exceptions.md R255). -/
def stepIdle (s : State) : Host.Outcome State Fault Refusal :=
  match s.inputs with
  | [] => .next s
  | e :: _ => hostAction e.act s.popInput

/-- One step of the two-agent machine. -/
def stepUnit (s : State) : Host.Outcome State Fault Refusal :=
  match s.pend with
  | some w => stepBusy w s
  | none => stepIdle s

/-- The first of the events to come, made to reach the unit after the pending command's completion. -/
def deferFirst : List HostEvent → List HostEvent
  | [] => []
  | e :: es => { e with early := false } :: es

/-- The word `w` pending, and nothing getting in before it is completed. -/
def State.pendWord (s : State) (w : Word) : State :=
  { s with pend := some w, inputs := deferFirst s.inputs }

end Sys2Proof.Machine
end

