-- ==== Sys2Proof/Machine/Step.lean ====
section
/-! DEFINITION. The step of the machine, and how a command word is placed for it. -/

namespace Sys2Proof.Machine

/-- One step: the host's next event or the unit's completion of the pending command (spec/20_memory.md R59). -/
def step (s : State) : Host.Outcome State Fault Refusal := stepUnit s

/-- `s` with the opcode-table word `w` pending, so that the very next step runs it (log 3). -/
def State.withFetchWord (s : State) (nbits w : Nat) : State :=
  s.pendWord (BitVec.ofNat 32 (w % 2 ^ nbits))

end Sys2Proof.Machine
end

