-- ==== Sys2Proof/Machine/Script.lean ====
section
/-! DEFINITION. The host-script notation `wr`, `cmd`, `rd`, `cp` as lists of host events (spec/20_memory.md R53, spec/30_encoding.md R90). -/

namespace Sys2Proof.Machine

/-- An access that waits for the pending command, if there is one. -/
def held (a : HostAction) : HostEvent := ⟨a, false⟩

/-- Word `t` of a byte sequence, the last word padded with `00` bytes (spec/20_memory.md R53). -/
def wordOf (X : List Byte) (t : Nat) : List Byte :=
  (X.drop (4 * t)).take 4 ++ List.replicate (4 - ((X.drop (4 * t)).take 4).length) 0

/-- `wr NAME, X` for a buffer and a byte sequence: `ceil(len(X)/4)` word writes from offset `off` (spec/20_memory.md R53). -/
def wrBytes (off : Nat) (X : List Byte) : List HostEvent :=
  (List.range ((X.length + 3) / 4)).map fun t => held (.write (off + 4 * t) (wordOf X t))

/-- `wr NAME, v` for a 4-byte register (spec/20_memory.md R53). -/
def wrWord (off v : Nat) : List HostEvent := [held (.write off (be v 4))]

/-- `wr NAME, v` for a 32-byte register: eight word writes in ascending order (spec/20_memory.md R53). -/
def wrWide (off v : Nat) : List HostEvent := wrBytes off (be v 32)

/-- `cmd <assembly line>`: the command's word written to `CMD` (spec/30_encoding.md R90). -/
def cmd (i : Instr) : List HostEvent := [held (.write 0x0000 (encodeBytes i))]

/-- `rd NAME` for a location of `n` bytes: the matching sequence of word reads (spec/20_memory.md R53). -/
def rdBytes (off n : Nat) : List HostEvent :=
  (List.range ((n + 3) / 4)).map fun t => held (.read (off + 4 * t) 4)

/-- The four bytes a read at offset `off` would return, if the read has a meaning. -/
def visibleWord (s : State) (off : Nat) : List Byte :=
  match findRow off with
  | some r => readRow s r off
  | none => []

/-- `cp DST, SRC[i:j]`: bytes `i .. j−1` of the readable location at `src`, as they stand in `s`, written from `dst` on, word by word
(spec/30_encoding.md R90). -/
def cp (s : State) (dst src i j : Nat) : List HostEvent :=
  wrBytes dst ((List.range ((j - i) / 4)).flatMap fun t => visibleWord s (src + i + 4 * t))

/-- `s` with a script's events to come after those it already has. -/
def State.withScript (s : State) (es : List HostEvent) : State := { s with inputs := s.inputs ++ es }

end Sys2Proof.Machine
end

