-- ==== Sys2Proof/Safety.lean ====
section
/-! DEFINITION. What counts as a good state of the unit: the invariants the spec states of its registers, buffers and fault record. -/

namespace Sys2Proof.Machine

/-- A full field register satisfies `mod > 1` and `val < mod` (spec/10_state.md R22). -/
def FieldReg.Canonical : FieldReg → Prop
  | .empty => True
  | .full e => 1 < e.mod.toNat ∧ e.val.toNat < e.mod.toNat

/-- The coordinates of a finite point are below `P_FIELD` (spec/10_state.md R25). -/
def CurvePoint.Canonical : CurvePoint → Prop
  | .inf => True
  | .fin x y => x.toNat < Config.pField ∧ y.toNat < Config.pField

/-- A point register holds nothing, or a canonical point (spec/10_state.md R25). -/
def PointReg.Canonical : PointReg → Prop
  | .empty => True
  | .point P => P.Canonical

/-- The kinds a command can raise, in the order they are checked (spec/60_exceptions.md R242). -/
def raisable : Instr → List ErrKind
  | .clrerr => []
  | .zero => []
  | .fmake _ => [.invalidModulus]
  | .fadd _ _ _ => [.emptyOperand, .mismatchedModulus]
  | .fsub _ _ _ => [.emptyOperand, .mismatchedModulus]
  | .fmul _ _ _ => [.emptyOperand, .mismatchedModulus]
  | .fdiv _ _ _ => [.emptyOperand, .divisionByZero, .noInverseExists, .mismatchedModulus]
  | .finv _ _ => [.emptyOperand, .noInverseExists]
  | .pmake _ _ _ => [.emptyOperand, .mismatchedModulus]
  | .pinf _ => []
  | .pldg _ => []
  | .padd _ _ _ => [.emptyOperand, .divisionByZero]
  | .pgetx _ _ => [.emptyOperand, .infinityOperand]
  | .pgety _ _ => [.emptyOperand, .infinityOperand]
  | .pser _ _ => [.emptyOperand, .infinityOperand]
  | .smul _ _ _ => [.emptyOperand, .divisionByZero]
  | .kchk _ => [.emptyOperand, .invalidPrivateKeyRange]
  | .hmac => [.bufferLength]
  | .pbkdf2 => [.bufferLength]
  | .mseed => [.bufferLength]

/-- The fault record names a command word and a kind that this word can raise (spec/60_exceptions.md R241 to R243). -/
def RecordFits (ecmd : Word) (ecode : BitVec 4) : Prop :=
  match decode ecmd with
  | .ok i => ∃ k ∈ raisable i, ecode = k.code
  | .error _ => ecode = ErrKind.illegalCommand.code

/-- The invariant of the unit's state. -/
structure State.Inv (s : State) : Prop where
  /-- Full field registers are canonical (spec/10_state.md R22). -/
  fields : ∀ i, (s.readF i).Canonical
  /-- Finite points have coordinates below `P_FIELD` (spec/10_state.md R25). -/
  points : ∀ j, (s.readP j).Canonical
  /-- Memory is in canonical form and lists only bytes of the buffers. -/
  memWf : Memory.wf s.mem = true
  /-- While the unit is not faulted there is no record (spec/10_state.md R31, R32). -/
  noRecord : s.err = false → s.ecode = 0 ∧ s.ecmd = 0
  /-- While it is faulted the record fits the word that faulted (spec/60_exceptions.md R241, R242). -/
  record : s.err = true → RecordFits s.ecmd s.ecode
  /-- While it is faulted only `CLRERR` and `ZERO` are ever pending (spec/60_exceptions.md R247). -/
  pending : s.err = true → ∀ w, s.pend = some w → acceptedWhileFaulted w = true
  /-- `OLEN` is 0, 33, 64 or 65 (spec/10_state.md R30). -/
  outLen : s.olen.toNat ∈ [0, 33, 64, 65]
  /-- The bytes of `OUTBUF` at or beyond `OLEN` are `00` (spec/93_implementation_defined.md U6). -/
  outPad : ∀ k, s.olen.toNat ≤ k → k < Config.outbufBytes → Memory.read s.mem (Config.outbufBase + k) = 0
  /-- Working storage is cleared between commands (spec/10_state.md R35). -/
  workCleared : s.work = Work.cleared

end Sys2Proof.Machine
end

