-- ==== Sys2Proof/Certificates/Slice0/Obligations.lean ====
section
/-! DEFINITION. The statements about the unit, for the provers. Each says in its docstring which rule of spec/ it formalises. -/

namespace Sys2Proof.Claims

open Sys2Proof.Machine

/-! Shapes of next states, written out once: every field not named is as in `s`. -/

/-- Fault entry (spec/60_exceptions.md R245): the record, the working storage and `PEND`, and nothing else. -/
def faulted (s : State) (code : BitVec 4) (w : Word) : State :=
  { s with err := true, ecode := code, ecmd := w, pend := none, work := Work.cleared }

/-- A command that wrote nothing: it is no longer pending and the working storage is cleared (spec/10_state.md R33, R35). -/
def unchanged (s : State) : State :=
  { s with pend := none, work := Work.cleared }

/-- A command that wrote field register `i` and nothing else. -/
def wroteF (s : State) (i : RegIdx) (v m : U256) : State :=
  { s with f := s.f.setIfInBounds i.toNat (.full ⟨v, m⟩), pend := none, work := Work.cleared }

/-- A command that wrote point register `j` and nothing else. -/
def wroteP (s : State) (j : RegIdx) (P : CurvePoint) : State :=
  { s with p := s.p.setIfInBounds j.toNat (.point P), pend := none, work := Work.cleared }

/-- `t` is `s` after a command that wrote the bytes `X` to `OUTBUF`, filled up with `00` to 68 bytes, and their number to `OLEN`, and nothing
else: every byte of memory outside `OUTBUF` reads as before. -/
def WroteOut (s t : State) (X : List Byte) : Prop :=
  (∀ k < 68, Memory.read t.mem (0x1200 + k) = X.getD k 0) ∧
  (∀ a, a < 0x1200 ∨ 0x1244 ≤ a → Memory.read t.mem a = Memory.read s.mem a) ∧
  t.olen.toNat = X.length ∧
  t = { s with mem := t.mem, olen := t.olen, pend := none, work := Work.cleared }

/-- Nothing gets in before the pending command is completed: the next event, if there is one, comes after the completion, or it is an access that is
held (spec/20_memory.md R58). What gets in is an early read of `STATUS` or an early reset (log 2). -/
def NothingGetsIn (es : List HostEvent) : Prop :=
  ∀ e, es.head? = some e → ¬ (e.early = true ∧ (e.act = .read 0x0004 4 ∨ e.act = .reset))

/-- The step at `s` completes the word `w`: it is the decoded command's execution, or, when the word is illegal, fault entry with code 11, which a faulted
unit leaves out (spec/20_memory.md R59, spec/30_encoding.md R85, R86, spec/60_exceptions.md R245, R247). -/
def Completes (w : Word) (s : State) : Prop :=
  (∀ i, decode w = .ok i → step s = exec i s) ∧
  (∀ e, decode w = .error e → step s = .next (if s.err then { s with pend := none } else faulted s 11 w))

/-- What a read of `STATUS` returns while a command is pending: `BUSY = 1`, with `ERR` and `ECODE` as they are (spec/20_memory.md R58). -/
def busyStatus (s : State) : List Byte := be (1 + 2 * s.err.toNat + 16 * s.ecode.toNat) 4

/-- A busy unit after `k` reads of `STATUS` got in: the events are taken, each read is answered, and nothing else is changed (spec/20_memory.md R58). -/
def afterStatusReads (s : State) (k : Nat) : State :=
  { s with inputs := s.inputs.drop k, replies := List.replicate k (busyStatus s) ++ s.replies }

/-- The four bytes that a read at offset `off` shows, location by location (spec/20_memory.md R51, R52). -/
def Shows (s : State) (off : Nat) (bs : List Byte) : Prop :=
  (off = 0x0004 ∧ bs = be s.statusWord.toNat 4) ∨
  (off = 0x0008 ∧ bs = be s.ecmd.toNat 4) ∨
  (off = 0x0010 ∧ bs = be s.klen.toNat 4) ∨
  (off = 0x0014 ∧ bs = be s.mlen.toNat 4) ∨
  (off = 0x0018 ∧ bs = be s.olen.toNat 4) ∨
  (∃ t < 8, off = 0x0040 + 4 * t ∧ bs = ((be s.opa.toNat 32).drop (4 * t)).take 4) ∨
  (∃ t < 8, off = 0x0060 + 4 * t ∧ bs = ((be s.opm.toNat 32).drop (4 * t)).take 4) ∨
  (∃ i : RegIdx, i.toNat < 8 ∧ ∃ t < 8, off = 0x0400 + 0x80 * i.toNat + 4 * t ∧ bs = ((be (s.readF i).val.toNat 32).drop (4 * t)).take 4) ∨
  (∃ i : RegIdx, i.toNat < 8 ∧ ∃ t < 8, off = 0x0420 + 0x80 * i.toNat + 4 * t ∧ bs = ((be (s.readF i).mod.toNat 32).drop (4 * t)).take 4) ∨
  (∃ i : RegIdx, i.toNat < 8 ∧ off = 0x0440 + 0x80 * i.toNat ∧ bs = be (if s.readF i = .empty then 0 else 1) 4) ∨
  (∃ j : RegIdx, j.toNat < 4 ∧ ∃ t < 8, off = 0x0800 + 0x80 * j.toNat + 4 * t ∧ bs = ((be (s.readP j).x.toNat 32).drop (4 * t)).take 4) ∨
  (∃ j : RegIdx, j.toNat < 4 ∧ ∃ t < 8, off = 0x0820 + 0x80 * j.toNat + 4 * t ∧ bs = ((be (s.readP j).y.toNat 32).drop (4 * t)).take 4) ∨
  (∃ j : RegIdx, j.toNat < 4 ∧ off = 0x0840 + 0x80 * j.toNat ∧
    bs = be (if s.readP j = .empty then 0 else if s.readP j = .point .inf then 1 else 2) 4) ∨
  (∃ t < 64, off = 0x1000 + 4 * t ∧ bs = (List.range 4).map fun k => Memory.read s.mem (off + k)) ∨
  (∃ t < 64, off = 0x1100 + 4 * t ∧ bs = (List.range 4).map fun k => Memory.read s.mem (off + k)) ∨
  (∃ t < 17, off = 0x1200 + 4 * t ∧ bs = (List.range 4).map fun k => Memory.read s.mem (off + k))

/-- The offsets of the words the host may write as storage, all of `RW` (spec/20_memory.md R51). -/
def Writable (off : Nat) : Prop :=
  off % 4 = 0 ∧ (off = 0x0010 ∨ off = 0x0014 ∨ (0x0040 ≤ off ∧ off < 0x0080) ∨ (0x1000 ≤ off ∧ off < 0x1200))

/-- The offsets of the words the host may only read (spec/20_memory.md R51, R56). -/
def ReadOnly (off : Nat) : Prop :=
  off % 4 = 0 ∧ (off = 0x0004 ∨ off = 0x0008 ∨ off = 0x0018 ∨
    (∃ i < 8, 0x0400 + 0x80 * i ≤ off ∧ off < 0x0444 + 0x80 * i) ∨
    (∃ j < 4, 0x0800 + 0x80 * j ≤ off ∧ off < 0x0844 + 0x80 * j) ∨
    (0x1200 ≤ off ∧ off < 0x1244))

/-- The word offsets of the 8 KiB map that are not listed in it (spec/20_memory.md R51, R56). -/
def Unmapped (off : Nat) : Prop :=
  off % 4 = 0 ∧ off < 0x2000 ∧ off ≠ 0x0000 ∧ ¬ Writable off ∧ ¬ ReadOnly off

/-- `k` additions of `P` to itself, one after the other: `P`, `P + P`, `(P + P) + P`, … -/
def addTimes (P : CurvePoint) : Nat → Except ErrKind CurvePoint
  | 0 => .ok P
  | n + 1 =>
    match addTimes P n with
    | .error k => .error k
    | .ok R => pointAdd R P

end Sys2Proof.Claims

open Sys2Proof Sys2Proof.Machine Sys2Proof.Claims

/-! ## Encoding -/

/-- Decoding the word of a well-formed command gives the command back (spec/30_encoding.md R83 to R85, R88). -/
def Obligations.DecodeOfEncodeIsTheCommand : Prop :=
  ∀ i : Instr, i.WellFormed → decode (encode i) = .ok i

/-- A word that decodes is the word of the command it decodes to, and that command is well formed: no bit of a legal word is dropped
(spec/30_encoding.md R81 to R85). -/
def Obligations.EncodeOfDecodeIsTheWord : Prop :=
  ∀ (w : Word) (i : Instr), decode w = .ok i → encode i = w ∧ i.WellFormed

/-- Which words are illegal, and what an illegal word does (spec/30_encoding.md R86): written while the unit is not faulted it is accepted and
raises `IllegalCommand` (code 11) and changes nothing else; written while it is faulted it is dropped. -/
def Obligations.IllegalWordsAndWhatTheyDo : Prop :=
  (∀ w : Word, (∃ e, decode w = .error e) ↔
    ((∀ r ∈ opcodeMap, r.op ≠ opField w) ∨ zField w ≠ 0 ∨
      ∃ r ∈ opcodeMap, r.op = opField w ∧
        ((r.format.rd = .zero ∧ rdField w ≠ 0) ∨ (r.format.rs1 = .zero ∧ rs1Field w ≠ 0) ∨ (r.format.rs2 = .zero ∧ rs2Field w ≠ 0) ∨
         (r.format.m = false ∧ mField w = true) ∨
         (r.format.rd = .field ∧ 8 ≤ (rdField w).toNat) ∨ (r.format.rs1 = .field ∧ 8 ≤ (rs1Field w).toNat) ∨
         (r.format.rs2 = .field ∧ 8 ≤ (rs2Field w).toNat) ∨
         (r.format.rd = .point ∧ 4 ≤ (rdField w).toNat) ∨ (r.format.rs1 = .point ∧ 4 ≤ (rs1Field w).toNat) ∨
         (r.format.rs2 = .point ∧ 4 ≤ (rs2Field w).toNat)))) ∧
  (∃ e, decode 0x00000000 = .error e) ∧ (∃ e, decode 0xFFFFFFFF = .error e) ∧
  (∀ (w : Word) (e : Illegal) (s : State), decode w = .error e → s.pend = none →
    (s.err = false → ∀ b rest, s.inputs = ⟨.write 0x0000 (be w.toNat 4), b⟩ :: rest → NothingGetsIn rest →
      core.run 2 s = .next (faulted { s with inputs := rest } 11 w)) ∧
    (s.err = true → ∀ b rest, s.inputs = ⟨.write 0x0000 (be w.toNat 4), b⟩ :: rest → step s = .next { s with inputs := rest }))

/-- Words written out from the spec's encodings decode to the commands they stand for (spec/30_encoding.md R84, R88, R89). -/
def Obligations.WordsWrittenOutDecode : Prop :=
  decode 0x01000000 = .ok .clrerr ∧ decode 0x02000000 = .ok .zero ∧
  decode 0x11201000 = .ok (.fadd 2 0 1) ∧ decode 0x14510000 = .ok (.fdiv 5 1 0) ∧
  decode 0x20367000 = .ok (.pmake 3 6 7) ∧ decode 0x23300000 = .ok (Instr.pdbl 3 0) ∧
  decode 0x24030000 = .ok (.pgetx 0 3) ∧ decode 0x26010001 = .ok (.pser 1 true) ∧
  decode 0x30100000 = .ok (.smul 1 0 0) ∧ decode 0x31050000 = .ok (.kchk 5) ∧
  decode 0x42000000 = .ok .mseed

/-! ## Reset and the invariant -/

/-- Reset, at any time, also while a command is pending (spec/10_state.md R36, spec/70_reset_and_hazards.md R280, R281): every piece of the unit's
state at its reset value, no result written and no fault recorded. The events to come and the replies given are the model's own (log 6). -/
def Obligations.ResetPutsEverythingAtItsResetValue : Prop :=
  ∀ (s : State) (b : Bool) (rest : List HostEvent), s.inputs = ⟨.reset, b⟩ :: rest → (s.pend = none ∨ b = true) →
    ∃ t, step s = .next t ∧ (∀ i, t.readF i = .empty) ∧ (∀ j, t.readP j = .empty) ∧ t.opa = 0 ∧ t.opm = 0 ∧
      (∀ a, Memory.read t.mem a = 0) ∧ t.klen = 0 ∧ t.mlen = 0 ∧ t.olen = 0 ∧ t.statusWord = 0 ∧ t.ecmd = 0 ∧ t.pend = none ∧
      t.work = Work.cleared ∧ t.inputs = rest ∧ t.replies = s.replies

/-- The reset state meets the invariant (spec/10_state.md R36). -/
def Obligations.ResetStateMeetsTheInvariant : Prop := State.reset.Inv

/-- Every step keeps the invariant of the unit's state: full field registers canonical, finite points below `P_FIELD`, memory in canonical form,
the fault record present exactly while faulted and fitting its word, nothing but `CLRERR` and `ZERO` pending while faulted, `OLEN` and the padding
of `OUTBUF`, and cleared working storage (spec/10_state.md R22, R25, R30 to R32, R35; spec/60_exceptions.md R241, R242, R247). -/
def Obligations.EveryStepKeepsTheInvariant : Prop :=
  ∀ s t : State, s.Inv → step s = .next t → t.Inv

/-! ## The status register -/

/-- The layout of `STATUS` (spec/10_state.md R31, R33): bit 0 is 1 exactly while a command is pending, bit 1 is `ERR`, bits 7:4 are `ECODE`, bits 3:2
and 31:8 read as 0. -/
def Obligations.StatusWordLayout : Prop :=
  ∀ s : State, s.statusWord.getLsbD 0 = s.pend.isSome ∧ s.statusWord.getLsbD 1 = s.err ∧
    s.statusWord.extractLsb' 4 4 = s.ecode ∧ s.statusWord.extractLsb' 2 2 = 0 ∧ s.statusWord.extractLsb' 8 24 = 0

/-- No step ever puts one of the codes 6 to 10 or 15 into `ECODE`: the codes are allocated and never produced (spec/60_exceptions.md R241). -/
def Obligations.CodesSixToTenAndFifteenAreNeverProduced : Prop :=
  ∀ s t : State, step s = .next t → t.ecode.toNat ∈ [6, 7, 8, 9, 10, 15] → t.ecode = s.ecode

/-! ## The host's accesses -/

/-- A read of a mapped, readable word at a unit that is not busy returns the bytes it shows and has no side effect: the state is the same but for the
event taken and the reply given (spec/20_memory.md R51 to R53, R60). -/
def Obligations.ReadReturnsTheBytesShown : Prop :=
  ∀ (s : State) (off : Nat) (bs : List Byte) (b : Bool) (rest : List HostEvent), s.pend = none →
    s.inputs = ⟨.read off 4, b⟩ :: rest → Shows s off bs → step s = .next { s with inputs := rest, replies := bs :: s.replies }

/-- A write of a word of storage stores its bytes and does nothing else: the word reads back as written, every other readable word reads as before, and
no register but the one written changes (spec/20_memory.md R53, R57, R60). -/
def Obligations.WriteStoresItsBytesAndNothingElse : Prop :=
  ∀ (s : State) (off : Nat) (data : List Byte) (b : Bool) (rest : List HostEvent), Memory.wf s.mem = true → s.pend = none →
    s.inputs = ⟨.write off data, b⟩ :: rest → data.length = 4 → Writable off →
    ∃ t, step s = .next t ∧ t.inputs = rest ∧ Shows t off data ∧
      (∀ off' bs, off' ≠ off → Shows s off' bs → Shows t off' bs) ∧
      t = { s with opa := t.opa, opm := t.opm, klen := t.klen, mlen := t.mlen, mem := t.mem, inputs := rest }

/-- Eight word writes in ascending order put a 256-bit value into `OPA`, most significant byte first, and change nothing else
(spec/20_memory.md R52, R53, R55; spec/10_state.md R28). -/
def Obligations.WritingOpaWordByWord : Prop :=
  ∀ (s : State) (v : U256), s.pend = none → s.inputs = wrWide 0x0040 v.toNat → core.run 8 s = .next { s with opa := v, inputs := [] }

/-- The accesses the spec refuses have no step: other widths, offsets that are not a multiple of 4, unmapped offsets, writes to read-only words, reads of
`CMD`, a second initiator (spec/20_memory.md R54, R56, R57). The names of the refusals, and the fault beyond the map, are the model's (log 4). -/
def Obligations.RefusedAccessesHaveNoStep : Prop :=
  ∀ (s : State) (b : Bool) (rest : List HostEvent), s.pend = none →
    (∀ off width, s.inputs = ⟨.read off width, b⟩ :: rest →
      (width ≠ 4 → step s = .refused .accessWidth) ∧
      (width = 4 → off % 4 ≠ 0 → step s = .refused .misaligned) ∧
      (width = 4 → off % 4 = 0 → 0x2000 ≤ off → step s = .fault .outsideMap) ∧
      (width = 4 → Unmapped off → step s = .refused .unmapped) ∧
      (width = 4 → off = 0x0000 → step s = .refused .writeOnly)) ∧
    (s.inputs = ⟨.foreign, b⟩ :: rest → step s = .refused .secondInitiator) ∧
    (∀ off data, s.inputs = ⟨.write off data, b⟩ :: rest →
      (data.length ≠ 4 → step s = .refused .accessWidth) ∧
      (data.length = 4 → off % 4 ≠ 0 → step s = .refused .misaligned) ∧
      (data.length = 4 → off % 4 = 0 → 0x2000 ≤ off → step s = .fault .outsideMap) ∧
      (data.length = 4 → Unmapped off → step s = .refused .unmapped) ∧
      (data.length = 4 → ReadOnly off → step s = .refused .readOnly))

/-- A write to `CMD` makes the written word the pending command, or, if the unit is faulted and the word is not a legal `CLRERR` or `ZERO`, does nothing at
all (spec/20_memory.md R60, spec/60_exceptions.md R247). -/
def Obligations.CmdWriteMakesTheWordPending : Prop :=
  ∀ (s : State) (w : Word) (b : Bool) (rest : List HostEvent), s.pend = none →
    s.inputs = ⟨.write 0x0000 (be w.toNat 4), b⟩ :: rest →
    ((s.err = false ∨ decode w = .ok .clrerr ∨ decode w = .ok .zero) → step s = .next { s with pend := some w, inputs := rest }) ∧
    (s.err = true → decode w ≠ .ok .clrerr → decode w ≠ .ok .zero → step s = .next { s with inputs := rest })

/-- While the unit is busy every access but a read of `STATUS` is held: unless the next event gets in, the step completes the pending word (the decoded command's
execution, or the illegal word's fault entry), and the event is still to come. A read of `STATUS` that gets in returns `BUSY = 1` with `ERR` and `ECODE` as they
were (spec/20_memory.md R58). Two choices of the model stand beside the rule: which event gets in is an input (log 2), and an access the spec refuses is held like
any other (log 15). -/
def Obligations.AccessesAreHeldWhileBusy : Prop :=
  ∀ (s : State) (w : Word) (e : HostEvent) (rest : List HostEvent), s.pend = some w → s.inputs = e :: rest →
    (¬ (e.early = true ∧ (e.act = .read 0x0004 4 ∨ e.act = .reset)) →
      Completes w s ∧ ∃ t, step s = .next t ∧ t.pend = none ∧ t.inputs = s.inputs ∧ t.replies = s.replies) ∧
    (e.early = true → e.act = .read 0x0004 4 → step s = .next { s with inputs := rest, replies := busyStatus s :: s.replies })

/-- A pending command is completed, or a reset abandons it, after at most as many steps as there are events to come: first `k` reads of `STATUS` get in, each
answered with `BUSY = 1` and changing nothing else, and the next step completes the pending word or is the reset; then `BUSY` is 0 (spec/70_reset_and_hazards.md
R281, R287; spec/20_memory.md R58, R59). R59 bounds the reads by no number: that `k` is at most the length of `inputs` is the model's, whose schedule is a
finite list (log 2). -/
def Obligations.PendingCommandIsEventuallyCompleted : Prop :=
  ∀ (s : State) (w : Word), s.pend = some w → ∃ k ≤ s.inputs.length, ∃ t,
    core.run k s = .next (afterStatusReads s k) ∧ step (afterStatusReads s k) = .next t ∧ core.run (k + 1) s = .next t ∧ t.pend = none ∧
    (Completes w (afterStatusReads s k) ∨ ∃ rest, s.inputs.drop k = ⟨.reset, true⟩ :: rest ∧
      t = { State.reset with inputs := rest, replies := (afterStatusReads s k).replies })

/-- The atomic-command view (spec/20_memory.md R59): when no event of the host gets in before the completion, the write of a command's word to `CMD`
and the unit's completion are together one execution of the whole command. -/
def Obligations.CmdWriteThenCompletionIsOneCommand : Prop :=
  ∀ (s : State) (i : Instr) (b : Bool) (rest : List HostEvent), i.WellFormed → s.pend = none →
    (s.err = false ∨ i = .clrerr ∨ i = .zero) → s.inputs = ⟨.write 0x0000 (encodeBytes i), b⟩ :: rest →
    NothingGetsIn rest → core.run 2 s = exec i { s with inputs := rest }

/-! ## The unit's step -/

/-- A step of the unit runs the decoded command: when the pending word decodes to a command and no event gets in, the step is that command's execution at that
state; so is the step from a state in which an opcode-table word was placed. Nothing is fetched and nothing is added around the command
(spec/10_state.md R21, R33; spec/30_encoding.md R85). -/
def Obligations.StepRunsTheDecodedCommand : Prop :=
  (∀ (s : State) (w : Word) (i : Instr), s.pend = some w → decode w = .ok i → NothingGetsIn s.inputs → step s = exec i s) ∧
  (∀ (s : State) (w : Nat) (i : Instr), decodeTableWord 32 w = some i → step (s.withFetchWord 32 w) = exec i (s.withFetchWord 32 w))

/-- Every command, from every state, ends in a next state: no command stops the machine (spec/60_exceptions.md R245, spec/70_reset_and_hazards.md R287). -/
def Obligations.EveryCommandAnswersANextState : Prop :=
  ∀ (i : Instr) (s : State), ∃ t, exec i s = .next t ∧ t.pend = none

/-! ## Faults -/

/-- Fault entry is precise (spec/60_exceptions.md R242, R243, R245): a command that leaves the unit faulted wrote the record (the code of a kind it can raise, and
its own word) and cleared the working storage and `PEND`, and wrote nothing else; so does an illegal word with code 11. -/
def Obligations.FaultEntryWritesTheRecordAndNothingElse : Prop :=
  (∀ (i : Instr) (s t : State), i.WellFormed → s.err = false → exec i s = .next t → t.err = true →
    ∃ k ∈ raisable i, t = faulted s k.code (encode i)) ∧
  (∀ (s : State) (w : Word) (e : Illegal), decode w = .error e → s.pend = some w → s.err = false → NothingGetsIn s.inputs →
    step s = .next (faulted s 11 w))

/-- While the unit is faulted every command but `CLRERR` and `ZERO` is dropped: nothing changes, the record of the first fault stays, and the unit is not busy
(spec/60_exceptions.md R247). -/
def Obligations.FaultedUnitDropsCommands : Prop :=
  ∀ (i : Instr) (s : State), s.err = true → i ≠ .clrerr → i ≠ .zero → exec i s = .next { s with pend := none }

/-- After `CLRERR` the unit is as it was before the faulting command, and the same command faults again with the same record
(spec/60_exceptions.md R248, spec/44_system.md R211). -/
def Obligations.ClearedFaultRecurs : Prop :=
  ∀ (i : Instr) (s t : State), i.WellFormed → s.err = false → s.ecode = 0 → s.ecmd = 0 → s.pend = none → s.work = Work.cleared →
    exec i s = .next t → t.err = true → ∃ u, exec .clrerr t = .next u ∧ u = s ∧ exec i u = .next t

/-- Only `CLRERR` leaves the faulted state, and until then the record of the first fault is kept (spec/60_exceptions.md R247, R248; spec/10_state.md R32). -/
def Obligations.OnlyClrerrLeavesTheFaultedState : Prop :=
  ∀ (i : Instr) (s t : State), s.err = true → exec i s = .next t → i ≠ .clrerr → t.err = true ∧ t.ecode = s.ecode ∧ t.ecmd = s.ecmd

/-! ## Which commands write what -/

/-- No command but `ZERO` writes `OPA`, `OPM`, `KLEN`, `MLEN`, `KEYBUF` or `MSGBUF` (spec/10_state.md R28, R29; spec/43_hmac_pbkdf2.md R193). -/
def Obligations.NoCommandButZeroWritesTheHostsOperands : Prop :=
  ∀ (i : Instr) (s t : State), Memory.wf s.mem = true → exec i s = .next t → i ≠ .zero →
    t.opa = s.opa ∧ t.opm = s.opm ∧ t.klen = s.klen ∧ t.mlen = s.mlen ∧
    ∀ a, a < 0x1200 ∨ 0x1244 ≤ a → Memory.read t.mem a = Memory.read s.mem a

/-- A field register changes only as the destination of one of its writers, and then becomes full, or by `ZERO`, and then becomes Empty (spec/10_state.md R23). -/
def Obligations.WritersOfFieldRegisters : Prop :=
  ∀ (i : Instr) (s t : State) (j : RegIdx), i.WellFormed → exec i s = .next t → t.readF j ≠ s.readF j →
    (i = .zero ∧ t.readF j = .empty) ∨
    ((∃ e, t.readF j = .full e) ∧
      (i = .fmake j ∨ (∃ a b, i = .fadd j a b) ∨ (∃ a b, i = .fsub j a b) ∨ (∃ a b, i = .fmul j a b) ∨ (∃ a b, i = .fdiv j a b) ∨
       (∃ a, i = .finv j a) ∨ (∃ a, i = .pgetx j a) ∨ ∃ a, i = .pgety j a))

/-- A point register changes only as the destination of one of its writers, or by `ZERO`, and then becomes Empty (spec/10_state.md R26). -/
def Obligations.WritersOfPointRegisters : Prop :=
  ∀ (i : Instr) (s t : State) (j : RegIdx), i.WellFormed → exec i s = .next t → t.readP j ≠ s.readP j →
    (i = .zero ∧ t.readP j = .empty) ∨
    ((∃ P, t.readP j = .point P) ∧
      ((∃ a b, i = .pmake j a b) ∨ i = .pinf j ∨ i = .pldg j ∨ (∃ a b, i = .padd j a b) ∨ ∃ a b, i = .smul j a b))

/-- `OUTBUF` and `OLEN` change only by `PSER`, `HMAC`, `PBKDF2`, `MSEED` and `ZERO` (spec/10_state.md R29, R30). -/
def Obligations.WritersOfTheOutputBuffer : Prop :=
  ∀ (i : Instr) (s t : State), exec i s = .next t → (t.mem ≠ s.mem ∨ t.olen ≠ s.olen) →
    i = .zero ∨ (∃ j m, i = .pser j m) ∨ i = .hmac ∨ i = .pbkdf2 ∨ i = .mseed

/-! ## System commands -/

/-- `CLRERR` clears the record and nothing else, faulted or not (spec/44_system.md R211). -/
def Obligations.ClrerrClearsTheRecord : Prop :=
  (encode .clrerr).toNat = 0x01000000 ∧
  ∀ s : State, exec .clrerr s = .next { s with err := false, ecode := 0, ecmd := 0, pend := none, work := Work.cleared }

/-- `ZERO` leaves the reset state but for `ERR`, `ECODE` and `ECMD`, faulted or not (spec/44_system.md R212). The events to come and the replies are the
model's own (log 1). -/
def Obligations.ZeroLeavesTheResetStateButTheRecord : Prop :=
  (encode .zero).toNat = 0x02000000 ∧
  ∀ s : State, ∃ t, exec .zero s = .next t ∧
    t = { State.reset with err := s.err, ecode := s.ecode, ecmd := s.ecmd, inputs := s.inputs, replies := s.replies } ∧
    (∀ i, t.readF i = .empty) ∧ (∀ j, t.readP j = .empty) ∧ t.opa = 0 ∧ t.opm = 0 ∧ (∀ a, Memory.read t.mem a = 0) ∧
    t.klen = 0 ∧ t.mlen = 0 ∧ t.olen = 0 ∧ t.work = Work.cleared ∧ t.pend = none

/-! ## Field commands -/

/-- `FMAKE` (spec/40_field.md R114): a modulus of 0 or 1 raises `InvalidModulus`; else `F[rd]` becomes `OPA mod OPM` in the modulus `OPM`, and nothing else changes. -/
def Obligations.FmakeReducesTheStagedValue : Prop :=
  ∀ (rd : RegIdx) (s : State), rd.toNat < 8 → s.err = false →
    (encode (.fmake rd)).toNat = 0x10000000 + rd.toNat * 2 ^ 20 ∧
    (s.opm.toNat ≤ 1 → exec (.fmake rd) s = .next (faulted s 1 (encode (.fmake rd)))) ∧
    (1 < s.opm.toNat → ∃ v : U256, v.toNat = s.opa.toNat % s.opm.toNat ∧ exec (.fmake rd) s = .next (wroteF s rd v s.opm))

/-- `FADD` (spec/40_field.md R115): Empty sources, then different moduli, then `(a + b) mod m`, exact; nothing but `F[rd]` changes. -/
def Obligations.FaddAddsModuloTheSourcesModulus : Prop :=
  ∀ (rd rs1 rs2 : RegIdx) (s : State), rd.toNat < 8 → rs1.toNat < 8 → rs2.toNat < 8 → s.err = false →
    (encode (.fadd rd rs1 rs2)).toNat = 0x11000000 + rd.toNat * 2 ^ 20 + rs1.toNat * 2 ^ 16 + rs2.toNat * 2 ^ 12 ∧
    ((s.readF rs1 = .empty ∨ s.readF rs2 = .empty) → exec (.fadd rd rs1 rs2) s = .next (faulted s 12 (encode (.fadd rd rs1 rs2)))) ∧
    ∀ a b, s.readF rs1 = .full a → s.readF rs2 = .full b →
      (a.mod ≠ b.mod → exec (.fadd rd rs1 rs2) s = .next (faulted s 2 (encode (.fadd rd rs1 rs2)))) ∧
      (a.mod = b.mod → 1 < a.mod.toNat →
        ∃ v : U256, v.toNat = (a.val.toNat + b.val.toNat) % a.mod.toNat ∧ exec (.fadd rd rs1 rs2) s = .next (wroteF s rd v a.mod))

/-- `FSUB` (spec/40_field.md R116): as `FADD`, with the non-negative remainder of `a − b`: `a − b`, or `a − b + m` when `a < b`. -/
def Obligations.FsubSubtractsModuloTheSourcesModulus : Prop :=
  ∀ (rd rs1 rs2 : RegIdx) (s : State), rd.toNat < 8 → rs1.toNat < 8 → rs2.toNat < 8 → s.err = false →
    (encode (.fsub rd rs1 rs2)).toNat = 0x12000000 + rd.toNat * 2 ^ 20 + rs1.toNat * 2 ^ 16 + rs2.toNat * 2 ^ 12 ∧
    ((s.readF rs1 = .empty ∨ s.readF rs2 = .empty) → exec (.fsub rd rs1 rs2) s = .next (faulted s 12 (encode (.fsub rd rs1 rs2)))) ∧
    ∀ a b, s.readF rs1 = .full a → s.readF rs2 = .full b →
      (a.mod ≠ b.mod → exec (.fsub rd rs1 rs2) s = .next (faulted s 2 (encode (.fsub rd rs1 rs2)))) ∧
      (a.mod = b.mod → a.val.toNat < a.mod.toNat → b.val.toNat < b.mod.toNat →
        ∃ v : U256, v.toNat = (if b.val.toNat ≤ a.val.toNat then a.val.toNat - b.val.toNat else a.val.toNat + a.mod.toNat - b.val.toNat) ∧
          exec (.fsub rd rs1 rs2) s = .next (wroteF s rd v a.mod))

/-- `FMUL` (spec/40_field.md R117): as `FADD`, with the remainder of the full product. -/
def Obligations.FmulMultipliesModuloTheSourcesModulus : Prop :=
  ∀ (rd rs1 rs2 : RegIdx) (s : State), rd.toNat < 8 → rs1.toNat < 8 → rs2.toNat < 8 → s.err = false →
    (encode (.fmul rd rs1 rs2)).toNat = 0x13000000 + rd.toNat * 2 ^ 20 + rs1.toNat * 2 ^ 16 + rs2.toNat * 2 ^ 12 ∧
    ((s.readF rs1 = .empty ∨ s.readF rs2 = .empty) → exec (.fmul rd rs1 rs2) s = .next (faulted s 12 (encode (.fmul rd rs1 rs2)))) ∧
    ∀ a b, s.readF rs1 = .full a → s.readF rs2 = .full b →
      (a.mod ≠ b.mod → exec (.fmul rd rs1 rs2) s = .next (faulted s 2 (encode (.fmul rd rs1 rs2)))) ∧
      (a.mod = b.mod → 1 < a.mod.toNat →
        ∃ v : U256, v.toNat = (a.val.toNat * b.val.toNat) % a.mod.toNat ∧ exec (.fmul rd rs1 rs2) s = .next (wroteF s rd v a.mod))

/-- `FDIV` (spec/40_field.md R118): Empty, then a zero divisor, then a divisor with no inverse, then different moduli; else `a` times the inverse of `b`, which is
the one quotient `v` with `v · b = a` modulo the modulus. -/
def Obligations.FdivMultipliesByTheInverse : Prop :=
  ∀ (rd rs1 rs2 : RegIdx) (s : State), rd.toNat < 8 → rs1.toNat < 8 → rs2.toNat < 8 → s.err = false →
    (encode (.fdiv rd rs1 rs2)).toNat = 0x14000000 + rd.toNat * 2 ^ 20 + rs1.toNat * 2 ^ 16 + rs2.toNat * 2 ^ 12 ∧
    ((s.readF rs1 = .empty ∨ s.readF rs2 = .empty) → exec (.fdiv rd rs1 rs2) s = .next (faulted s 12 (encode (.fdiv rd rs1 rs2)))) ∧
    ∀ a b, s.readF rs1 = .full a → s.readF rs2 = .full b → (FieldReg.full a).Canonical → (FieldReg.full b).Canonical →
      (b.val = 0 → exec (.fdiv rd rs1 rs2) s = .next (faulted s 3 (encode (.fdiv rd rs1 rs2)))) ∧
      (b.val ≠ 0 → Nat.gcd b.val.toNat b.mod.toNat ≠ 1 → exec (.fdiv rd rs1 rs2) s = .next (faulted s 4 (encode (.fdiv rd rs1 rs2)))) ∧
      (b.val ≠ 0 → Nat.gcd b.val.toNat b.mod.toNat = 1 → a.mod ≠ b.mod →
        exec (.fdiv rd rs1 rs2) s = .next (faulted s 2 (encode (.fdiv rd rs1 rs2)))) ∧
      (b.val ≠ 0 → Nat.gcd b.val.toNat b.mod.toNat = 1 → a.mod = b.mod →
        ∃ (v : U256) (i : Nat), i < a.mod.toNat ∧ i * b.val.toNat % a.mod.toNat = 1 ∧ v.toNat = a.val.toNat * i % a.mod.toNat ∧
          v.toNat * b.val.toNat % a.mod.toNat = a.val.toNat ∧ exec (.fdiv rd rs1 rs2) s = .next (wroteF s rd v a.mod))

/-- `FINV` (spec/40_field.md R119): Empty, then no inverse; else the one inverse below the modulus. -/
def Obligations.FinvInverts : Prop :=
  ∀ (rd rs1 : RegIdx) (s : State), rd.toNat < 8 → rs1.toNat < 8 → s.err = false →
    (encode (.finv rd rs1)).toNat = 0x15000000 + rd.toNat * 2 ^ 20 + rs1.toNat * 2 ^ 16 ∧
    (s.readF rs1 = .empty → exec (.finv rd rs1) s = .next (faulted s 12 (encode (.finv rd rs1)))) ∧
    ∀ a, s.readF rs1 = .full a → (FieldReg.full a).Canonical →
      (Nat.gcd a.val.toNat a.mod.toNat ≠ 1 → exec (.finv rd rs1) s = .next (faulted s 4 (encode (.finv rd rs1)))) ∧
      (Nat.gcd a.val.toNat a.mod.toNat = 1 → ∃ v : U256, v.toNat < a.mod.toNat ∧ v.toNat * a.val.toNat % a.mod.toNat = 1 ∧
        exec (.finv rd rs1) s = .next (wroteF s rd v a.mod))

/-- The inverse helper (spec/40_field.md R113): when the gcd is 1 it gives the unique inverse below the modulus, and when it is not it raises
`NoInverseExists`; `inv(1) = 1` and `inv(m − 1) = m − 1`. -/
def Obligations.InverseHelperFindsTheUniqueInverse : Prop :=
  ∀ m a : Nat, 2 ≤ m → m < 2 ^ 256 → a < m →
    (Nat.gcd a m = 1 → ∃ t, invMod m a = .ok t ∧ t < m ∧ t * a % m = 1 ∧ ∀ u, u < m → u * a % m = 1 → u = t) ∧
    (Nat.gcd a m ≠ 1 → invMod m a = .error .noInverseExists) ∧
    invMod m 0 = .error .noInverseExists ∧ invMod m 1 = .ok 1 ∧ invMod m (m - 1) = .ok (m - 1)

/-- The ring helpers as case splits, with no truncation at 256 bits (spec/40_field.md R111, R112). -/
def Obligations.RingHelpersGiveTheCanonicalRepresentative : Prop :=
  ∀ m a b : U256, 2 ≤ m.toNat → a.toNat < m.toNat → b.toNat < m.toNat →
    (faddMod m a b).toNat = (if a.toNat + b.toNat < m.toNat then a.toNat + b.toNat else a.toNat + b.toNat - m.toNat) ∧
    (fsubMod m a b).toNat = (if b.toNat ≤ a.toNat then a.toNat - b.toNat else a.toNat + m.toNat - b.toNat) ∧
    (fmulMod m a b).toNat = a.toNat * b.toNat % m.toNat ∧
    (faddMod m a b).toNat < m.toNat ∧ (fsubMod m a b).toNat < m.toNat ∧ (fmulMod m a b).toNat < m.toNat

/-- The laws of a fixed modulus (spec/40_field.md R120): addition and multiplication commute and associate, multiplication distributes over addition,
subtraction undoes addition, and for an invertible element the inverse undoes multiplication and is an involution. -/
def Obligations.FieldLawsOfAFixedModulus : Prop :=
  ∀ m a b c : U256, 2 ≤ m.toNat → a.toNat < m.toNat → b.toNat < m.toNat → c.toNat < m.toNat →
    faddMod m a b = faddMod m b a ∧ faddMod m (faddMod m a b) c = faddMod m a (faddMod m b c) ∧
    fmulMod m a b = fmulMod m b a ∧ fmulMod m (fmulMod m a b) c = fmulMod m a (fmulMod m b c) ∧
    fmulMod m a (faddMod m b c) = faddMod m (fmulMod m a b) (fmulMod m a c) ∧
    fsubMod m (faddMod m a b) b = a ∧
    (Nat.gcd b.toNat m.toNat = 1 → ∃ i, invMod m.toNat b.toNat = .ok i ∧ fmulMod m (fmulMod m a b) (BitVec.ofNat 256 i) = a ∧
      invMod m.toNat i = .ok b.toNat)

/-- A field command depends only on the registers it names: from two states that agree on the sources, the results and the fault codes agree, whatever
else the states hold (spec/40_field.md R121, spec/10_state.md R21). -/
def Obligations.FieldCommandsDependOnlyOnTheirSources : Prop :=
  ∀ (rd rs1 rs2 : RegIdx) (s s' t t' : State) (i : Instr), rd.toNat < 8 → rs1.toNat < 8 → rs2.toNat < 8 →
    s.err = false → s'.err = false → s.readF rs1 = s'.readF rs1 → s.readF rs2 = s'.readF rs2 →
    i ∈ [.fadd rd rs1 rs2, .fsub rd rs1 rs2, .fmul rd rs1 rs2, .fdiv rd rs1 rs2, .finv rd rs1] →
    exec i s = .next t → exec i s' = .next t' →
    t.err = t'.err ∧ (t.err = true → t.ecode = t'.ecode) ∧ (t.err = false → t.readF rd = t'.readF rd)

/-! ## Point commands -/

/-- The addition of two finite points by its defining equations (spec/41_point.md R141): a slope `lam` with `lam · denominator = numerator` modulo `P_FIELD`, the
tangent's for equal points and the chord's otherwise, and the two coordinates reduced modulo `P_FIELD`. -/
def Obligations.PointAdditionFormulas : Prop :=
  ∀ (x1 y1 x2 y2 : U256) (C : CurvePoint), x1.toNat < Config.pField → y1.toNat < Config.pField → x2.toNat < Config.pField → y2.toNat < Config.pField →
    pointAdd (.fin x1 y1) (.fin x2 y2) = .ok C →
    ∃ (x3 y3 : U256) (lam : Nat), C = .fin x3 y3 ∧ x3.toNat < Config.pField ∧ y3.toNat < Config.pField ∧ lam < Config.pField ∧
      (x1 = x2 ∧ y1 = y2 → (lam * (2 * y1.toNat) : Int) ≡ 3 * x1.toNat * x1.toNat [ZMOD Config.pField]) ∧
      (¬ (x1 = x2 ∧ y1 = y2) → (lam * ((x2.toNat : Int) - x1.toNat)) ≡ (y2.toNat : Int) - y1.toNat [ZMOD Config.pField]) ∧
      (x3.toNat : Int) ≡ lam * lam - x1.toNat - x2.toNat [ZMOD Config.pField] ∧
      (y3.toNat : Int) ≡ lam * ((x1.toNat : Int) - x3.toNat) - y1.toNat [ZMOD Config.pField]

/-- When point addition faults (spec/41_point.md R142, R143): with `Inf` on either side it gives the other point; it raises `DivisionByZero`, and only that,
exactly when both points are finite with equal `x` and either different `y` or `y = 0`; it never gives `Inf` from two finite points. -/
def Obligations.PointAdditionFaultsExactlyOnAZeroDenominator : Prop :=
  (∀ A, pointAdd .inf A = .ok A ∧ pointAdd A .inf = .ok A) ∧
  ∀ (x1 y1 x2 y2 : U256), x1.toNat < Config.pField → y1.toNat < Config.pField → x2.toNat < Config.pField → y2.toNat < Config.pField →
    (∀ k, pointAdd (.fin x1 y1) (.fin x2 y2) = .error k → k = .divisionByZero) ∧
    ((∃ k, pointAdd (.fin x1 y1) (.fin x2 y2) = .error k) ↔ x1 = x2 ∧ (y1 ≠ y2 ∨ y1 = 0)) ∧
    pointAdd (.fin x1 y1) (.fin x2 y2) ≠ .ok .inf

/-- Point addition is commutative on canonical points, faults included (spec/41_point.md R147). -/
def Obligations.PointAdditionCommutes : Prop :=
  ∀ A B : CurvePoint, A.Canonical → B.Canonical → pointAdd A B = pointAdd B A

/-- `PMAKE` (spec/41_point.md R144): Empty sources, then a source whose modulus is not `P_FIELD`; else the pair of values, with no check of the curve. -/
def Obligations.PmakeBuildsAFinitePoint : Prop :=
  ∀ (rd rs1 rs2 : RegIdx) (s : State), rd.toNat < 4 → rs1.toNat < 8 → rs2.toNat < 8 → s.err = false →
    (encode (.pmake rd rs1 rs2)).toNat = 0x20000000 + rd.toNat * 2 ^ 20 + rs1.toNat * 2 ^ 16 + rs2.toNat * 2 ^ 12 ∧
    ((s.readF rs1 = .empty ∨ s.readF rs2 = .empty) → exec (.pmake rd rs1 rs2) s = .next (faulted s 12 (encode (.pmake rd rs1 rs2)))) ∧
    ∀ a b, s.readF rs1 = .full a → s.readF rs2 = .full b →
      ((a.mod.toNat ≠ Config.pField ∨ b.mod.toNat ≠ Config.pField) → exec (.pmake rd rs1 rs2) s = .next (faulted s 2 (encode (.pmake rd rs1 rs2)))) ∧
      (a.mod.toNat = Config.pField → b.mod.toNat = Config.pField → exec (.pmake rd rs1 rs2) s = .next (wroteP s rd (.fin a.val b.val)))

/-- `PINF` and `PLDG` write the point at infinity and the base point, and nothing else (spec/41_point.md R145, R146). -/
def Obligations.PinfAndPldgWriteTheirConstant : Prop :=
  ∀ (rd : RegIdx) (s : State), rd.toNat < 4 → s.err = false →
    (encode (.pinf rd)).toNat = 0x21000000 + rd.toNat * 2 ^ 20 ∧ exec (.pinf rd) s = .next (wroteP s rd .inf) ∧
    (encode (.pldg rd)).toNat = 0x22000000 + rd.toNat * 2 ^ 20 ∧
    exec (.pldg rd) s = .next (wroteP s rd (.fin 0x79BE667EF9DCBBAC55A06295CE870B07029BFCDB2DCE28D959F2815B16F81798
      0x483ADA7726A3C4655DA4FBFC0E1108A8FD17B448A68554199C47D08FFB10D4B8))

/-- `PADD` (spec/41_point.md R147): Empty sources; else the sum of the two points, or `DivisionByZero` and nothing written. -/
def Obligations.PaddAddsPoints : Prop :=
  ∀ (rd rs1 rs2 : RegIdx) (s : State), rd.toNat < 4 → rs1.toNat < 4 → rs2.toNat < 4 → s.err = false →
    (encode (.padd rd rs1 rs2)).toNat = 0x23000000 + rd.toNat * 2 ^ 20 + rs1.toNat * 2 ^ 16 + rs2.toNat * 2 ^ 12 ∧
    ((s.readP rs1 = .empty ∨ s.readP rs2 = .empty) → exec (.padd rd rs1 rs2) s = .next (faulted s 12 (encode (.padd rd rs1 rs2)))) ∧
    ∀ A B, s.readP rs1 = .point A → s.readP rs2 = .point B →
      (∀ C, pointAdd A B = .ok C → exec (.padd rd rs1 rs2) s = .next (wroteP s rd C)) ∧
      (∀ k, pointAdd A B = .error k → exec (.padd rd rs1 rs2) s = .next (faulted s 3 (encode (.padd rd rs1 rs2))))

/-- `PGETX` and `PGETY` (spec/41_point.md R148, R149): Empty, then Inf; else the coordinate, in the field of `P_FIELD`. -/
def Obligations.PgetxAndPgetyCopyACoordinate : Prop :=
  ∀ (rd rs1 : RegIdx) (s : State), rd.toNat < 8 → rs1.toNat < 4 → s.err = false →
    (encode (.pgetx rd rs1)).toNat = 0x24000000 + rd.toNat * 2 ^ 20 + rs1.toNat * 2 ^ 16 ∧
    (encode (.pgety rd rs1)).toNat = 0x25000000 + rd.toNat * 2 ^ 20 + rs1.toNat * 2 ^ 16 ∧
    (s.readP rs1 = .empty → exec (.pgetx rd rs1) s = .next (faulted s 12 (encode (.pgetx rd rs1))) ∧
      exec (.pgety rd rs1) s = .next (faulted s 12 (encode (.pgety rd rs1)))) ∧
    (s.readP rs1 = .point .inf → exec (.pgetx rd rs1) s = .next (faulted s 13 (encode (.pgetx rd rs1))) ∧
      exec (.pgety rd rs1) s = .next (faulted s 13 (encode (.pgety rd rs1)))) ∧
    ∀ x y, s.readP rs1 = .point (.fin x y) → ∃ m : U256, m.toNat = Config.pField ∧
      exec (.pgetx rd rs1) s = .next (wroteF s rd x m) ∧ exec (.pgety rd rs1) s = .next (wroteF s rd y m)

/-- `PSER` (spec/41_point.md R150): Empty, then Inf; else 33 bytes with the parity of `y` in the first, or 65 bytes, into `OUTBUF`, the rest of it `00`, and
their number into `OLEN`. -/
def Obligations.PserSerializesAFinitePoint : Prop :=
  ∀ (rs1 : RegIdx) (m : Bool) (s : State), rs1.toNat < 4 → s.err = false → Memory.wf s.mem = true →
    (encode (.pser rs1 m)).toNat = 0x26000000 + rs1.toNat * 2 ^ 16 + m.toNat ∧
    (s.readP rs1 = .empty → exec (.pser rs1 m) s = .next (faulted s 12 (encode (.pser rs1 m)))) ∧
    (s.readP rs1 = .point .inf → exec (.pser rs1 m) s = .next (faulted s 13 (encode (.pser rs1 m)))) ∧
    ∀ x y, s.readP rs1 = .point (.fin x y) →
      (m = true → ∃ t, exec (.pser rs1 m) s = .next t ∧ t.olen.toNat = 33 ∧
        WroteOut s t ((if y.toNat % 2 = 0 then (0x02 : Byte) else 0x03) :: be x.toNat 32)) ∧
      (m = false → ∃ t, exec (.pser rs1 m) s = .next t ∧ t.olen.toNat = 65 ∧ WroteOut s t ((0x04 : Byte) :: (be x.toNat 32 ++ be y.toNat 32)))

/-! ## Scalar commands -/

/-- `SMUL` (spec/42_scalar.md R170, R171) computes what the unbounded double-and-add loop computes, from the least significant bit, the doubling made in the last
turn too; any fault in the loop is `DivisionByZero` and leaves the destination as it was. The scalar's modulus plays no part. -/
def Obligations.SmulRunsTheDoubleAndAddLoop : Prop :=
  ∃ loop : Nat → CurvePoint → CurvePoint → Except ErrKind CurvePoint,
    (∀ R A, loop 0 R A = .ok R) ∧
    (∀ k R A, k ≠ 0 → loop k R A =
      ((if k % 2 = 1 then (if R = .inf then .ok A else pointAdd R A) else .ok R) >>= fun R' => pointAdd A A >>= fun A' => loop (k / 2) R' A')) ∧
    ∀ (rd rs1 rs2 : RegIdx) (s : State), rd.toNat < 4 → rs1.toNat < 8 → rs2.toNat < 4 → s.err = false →
      (encode (.smul rd rs1 rs2)).toNat = 0x30000000 + rd.toNat * 2 ^ 20 + rs1.toNat * 2 ^ 16 + rs2.toNat * 2 ^ 12 ∧
      ((s.readF rs1 = .empty ∨ s.readP rs2 = .empty) → exec (.smul rd rs1 rs2) s = .next (faulted s 12 (encode (.smul rd rs1 rs2)))) ∧
      ∀ a P, s.readF rs1 = .full a → s.readP rs2 = .point P →
        (∀ C, loop a.val.toNat .inf P = .ok C → exec (.smul rd rs1 rs2) s = .next (wroteP s rd C)) ∧
        (∀ k, loop a.val.toNat .inf P = .error k → exec (.smul rd rs1 rs2) s = .next (faulted s 3 (encode (.smul rd rs1 rs2))))

/-- Fault-freedom of `SMUL` on the base point (spec/42_scalar.md R173): it completes for every scalar but `N_ORDER`, with `Inf` only for 0, and repeats with period
`N_ORDER` above it; for `N_ORDER` it raises `DivisionByZero`. -/
def Obligations.SmulOfTheBasePointFaultsOnlyAtTheOrder : Prop :=
  ∀ (rd rs1 rs2 : RegIdx) (s : State) (a : FieldElement), rd.toNat < 4 → rs1.toNat < 8 → rs2.toNat < 4 → s.err = false →
    s.readF rs1 = .full a →
    s.readP rs2 = .point (.fin 0x79BE667EF9DCBBAC55A06295CE870B07029BFCDB2DCE28D959F2815B16F81798
      0x483ADA7726A3C4655DA4FBFC0E1108A8FD17B448A68554199C47D08FFB10D4B8) →
    (a.val.toNat = Config.nOrder → exec (.smul rd rs1 rs2) s = .next (faulted s 3 (encode (.smul rd rs1 rs2)))) ∧
    (a.val.toNat ≠ Config.nOrder → ∃ C, exec (.smul rd rs1 rs2) s = .next (wroteP s rd C) ∧ (C = .inf ↔ a.val.toNat = 0) ∧
      (Config.nOrder < a.val.toNat → scalarMul (a.val.toNat - Config.nOrder) gPoint = .ok C))

/-- For every valid private key `k`, the double-and-add helper `scalarMul`, which `SMUL` computes with, gives on the base point what `k − 1` additions by the
helper `pointAdd`, which `PADD` computes with, give (spec/41_point.md R151, spec/42_scalar.md R171). -/
def Obligations.SmulOfTheBasePointIsRepeatedAddition : Prop :=
  ∀ k : Nat, k + 1 < Config.nOrder → ∃ C, scalarMul (k + 1) gPoint = .ok C ∧ addTimes gPoint k = .ok C

/-- `KCHK` (spec/42_scalar.md R172): Empty, then out of the range `1 .. N_ORDER − 1`; else nothing changes. -/
def Obligations.KchkChecksTheKeyRange : Prop :=
  ∀ (rs1 : RegIdx) (s : State), rs1.toNat < 8 → s.err = false →
    (encode (.kchk rs1)).toNat = 0x31000000 + rs1.toNat * 2 ^ 16 ∧
    (s.readF rs1 = .empty → exec (.kchk rs1) s = .next (faulted s 12 (encode (.kchk rs1)))) ∧
    ∀ a, s.readF rs1 = .full a →
      ((a.val.toNat = 0 ∨ 0xFFFFFFFFFFFFFFFFFFFFFFFFFFFFFFFEBAAEDCE6AF48A03BBFD25E8CD0364141 ≤ a.val.toNat) →
        exec (.kchk rs1) s = .next (faulted s 5 (encode (.kchk rs1)))) ∧
      (1 ≤ a.val.toNat → a.val.toNat < 0xFFFFFFFFFFFFFFFFFFFFFFFFFFFFFFFEBAAEDCE6AF48A03BBFD25E8CD0364141 →
        exec (.kchk rs1) s = .next (unchanged s))

/-- `publicKeyFromPrivate` (spec/42_scalar.md R174): for a key in range staged in `OPA` with `OPM = 2^256 − 1`, the commands `FMAKE f0`, `KCHK f0`, `PLDG p0`,
`SMUL p1, f0, p0`, `PSER p1, c` all complete without a fault and leave the serialized public key in `OUTBUF` and its length in `OLEN`. -/
def Obligations.PublicKeyFromPrivateNeverFaults : Prop :=
  ∀ (s : State) (c : Bool), s.Inv → s.err = false → s.opm.toNat = 2 ^ 256 - 1 → 1 ≤ s.opa.toNat → s.opa.toNat < Config.nOrder →
    ∃ s1 s2 s3 s4 s5 x y, exec (.fmake 0) s = .next s1 ∧ exec (.kchk 0) s1 = .next s2 ∧ exec (.pldg 0) s2 = .next s3 ∧
      exec (.smul 1 0 0) s3 = .next s4 ∧ exec (.pser 1 c) s4 = .next s5 ∧ s5.err = false ∧
      scalarMul s.opa.toNat gPoint = .ok (.fin x y) ∧
      s5.olen.toNat = (if c then 33 else 65) ∧
      Memory.readBytes s5.mem 0x1200 s5.olen.toNat =
        (if c then (if y.toNat % 2 = 0 then (0x02 : Byte) else 0x03) :: be x.toNat 32 else (0x04 : Byte) :: (be x.toNat 32 ++ be y.toNat 32))

/-! ## Hash commands -/

/-- `HMAC` (spec/43_hmac_pbkdf2.md R193, R194): a length above 256 raises `BufferLength`; else 64 bytes into `OUTBUF`, `00` after them, 64 into `OLEN`. -/
def Obligations.HmacWritesTheDigest : Prop :=
  ∀ s : State, s.err = false → Memory.wf s.mem = true →
    (encode .hmac).toNat = 0x40000000 ∧
    ((256 < s.klen.toNat ∨ 256 < s.mlen.toNat) → exec .hmac s = .next (faulted s 14 (encode .hmac))) ∧
    (s.klen.toNat ≤ 256 → s.mlen.toNat ≤ 256 → ∃ t, exec .hmac s = .next t ∧ t.olen.toNat = 64 ∧
      WroteOut s t (hmac512 (Memory.readBytes s.mem 0x1000 s.klen.toNat) (Memory.readBytes s.mem 0x1100 s.mlen.toNat)))

/-- `PBKDF2` (spec/43_hmac_pbkdf2.md R193, R195): as `HMAC`, with the salt used exactly as given. -/
def Obligations.Pbkdf2WritesTheDerivedKey : Prop :=
  ∀ s : State, s.err = false → Memory.wf s.mem = true →
    (encode .pbkdf2).toNat = 0x41000000 ∧
    ((256 < s.klen.toNat ∨ 256 < s.mlen.toNat) → exec .pbkdf2 s = .next (faulted s 14 (encode .pbkdf2))) ∧
    (s.klen.toNat ≤ 256 → s.mlen.toNat ≤ 256 → ∃ t, exec .pbkdf2 s = .next t ∧ t.olen.toNat = 64 ∧
      WroteOut s t (pbkdf2_512 (Memory.readBytes s.mem 0x1000 s.klen.toNat) (Memory.readBytes s.mem 0x1100 s.mlen.toNat)))

/-- `MSEED` (spec/43_hmac_pbkdf2.md R193, R196): as `PBKDF2`, with the eight bytes of "mnemonic" before the salt. -/
def Obligations.MseedPrependsMnemonicToTheSalt : Prop :=
  ∀ s : State, s.err = false → Memory.wf s.mem = true →
    (encode .mseed).toNat = 0x42000000 ∧
    ((256 < s.klen.toNat ∨ 256 < s.mlen.toNat) → exec .mseed s = .next (faulted s 14 (encode .mseed))) ∧
    (s.klen.toNat ≤ 256 → s.mlen.toNat ≤ 256 → ∃ t, exec .mseed s = .next t ∧ t.olen.toNat = 64 ∧
      WroteOut s t (pbkdf2_512 (Memory.readBytes s.mem 0x1000 s.klen.toNat)
        ([0x6D, 0x6E, 0x65, 0x6D, 0x6F, 0x6E, 0x69, 0x63] ++ Memory.readBytes s.mem 0x1100 s.mlen.toNat)))

/-- The HMAC construction (spec/43_hmac_pbkdf2.md R191), byte by byte: the key block is the key, or its hash when the key is longer than 128 bytes, filled with
`00`; the inner and the outer hash take it with every byte exclusive-ored with `36` and `5C`; the result is always 64 bytes. -/
def Obligations.HmacConstruction : Prop :=
  ∀ K M : List Byte, ∃ K0 : List Byte, K0.length = 128 ∧
    (∀ n < 128, K0.getD n 0 = (if 128 < K.length then hash512 K else K).getD n 0) ∧
    hmac512 K M = hash512 (K0.map (· ^^^ 0x5C) ++ hash512 (K0.map (· ^^^ 0x36) ++ M)) ∧ (hmac512 K M).length = 64

/-- The PBKDF2 construction (spec/43_hmac_pbkdf2.md R192): the exclusive-or of `U 1 .. U 2048`, where `U 1` is the HMAC of the salt and `00 00 00 01` and each
further `U` is the HMAC of the one before; the result is 64 bytes. -/
def Obligations.Pbkdf2Construction : Prop :=
  ∀ Pw S : List Byte, ∃ U T : Nat → List Byte, U 1 = hmac512 Pw (S ++ [0x00, 0x00, 0x00, 0x01]) ∧ (∀ j, 1 ≤ j → U (j + 1) = hmac512 Pw (U j)) ∧
    T 1 = U 1 ∧ (∀ j, 1 ≤ j → T (j + 1) = List.zipWith (· ^^^ ·) (T j) (U (j + 1))) ∧
    pbkdf2_512 Pw S = T 2048 ∧ (pbkdf2_512 Pw S).length = 64

/-- The padding of SHA-512 (spec/45_sha512.md R221): the message, one byte `80`, the fewest `00` bytes that make a multiple of 128 bytes in all, and the length in
bits in 16 bytes; the digest is 64 bytes. -/
def Obligations.Sha512PaddingAndDigestLength : Prop :=
  ∀ M : List Byte, (∃ z < 128, shaPad M = M ++ [0x80] ++ List.replicate z 0 ++ be (8 * M.length) 16) ∧ (shaPad M).length % 128 = 0 ∧
    (sha512 M).length = 64

/-- `MSEED` equals `PBKDF2` run with `MSGBUF` holding "mnemonic" and the passphrase (spec/43_hmac_pbkdf2.md R196). -/
def Obligations.MseedIsPbkdf2WithTheHostsPrefix : Prop :=
  ∀ s s' t t' : State, s.err = false → s'.err = false → Memory.wf s.mem = true → Memory.wf s'.mem = true → s.klen.toNat ≤ 256 → s'.klen = s.klen →
    s.mlen.toNat + 8 ≤ 256 → s'.mlen.toNat = s.mlen.toNat + 8 →
    (∀ k < s.klen.toNat, Memory.read s'.mem (0x1000 + k) = Memory.read s.mem (0x1000 + k)) →
    Memory.readBytes s'.mem 0x1100 8 = [0x6D, 0x6E, 0x65, 0x6D, 0x6F, 0x6E, 0x69, 0x63] →
    (∀ k < s.mlen.toNat, Memory.read s'.mem (0x1100 + 8 + k) = Memory.read s.mem (0x1100 + k)) →
    exec .mseed s = .next t → exec .pbkdf2 s' = .next t' →
    t.olen = t'.olen ∧ ∀ k < 68, Memory.read t.mem (0x1200 + k) = Memory.read t'.mem (0x1200 + k)

/-- Bytes of `KEYBUF` at or beyond `KLEN`, and of `MSGBUF` at or beyond `MLEN`, take no part in the hash commands, nor does anything else but the bytes before
them (spec/10_state.md R29, spec/43_hmac_pbkdf2.md R193). -/
def Obligations.HashCommandsDependOnlyOnTheMeaningfulBytes : Prop :=
  ∀ (i : Instr) (s s' t t' : State), i ∈ [.hmac, .pbkdf2, .mseed] → s.err = false → s'.err = false →
    Memory.wf s.mem = true → Memory.wf s'.mem = true → s'.klen = s.klen → s'.mlen = s.mlen →
    (∀ k < s.klen.toNat, Memory.read s'.mem (0x1000 + k) = Memory.read s.mem (0x1000 + k)) →
    (∀ k < s.mlen.toNat, Memory.read s'.mem (0x1100 + k) = Memory.read s.mem (0x1100 + k)) →
    exec i s = .next t → exec i s' = .next t' →
    t.err = t'.err ∧ (t.err = true → t.ecode = t'.ecode) ∧
    (t.err = false → t.olen = t'.olen ∧ ∀ k < 68, Memory.read t.mem (0x1200 + k) = Memory.read t'.mem (0x1200 + k))
end

