-- ==== Sys2Proof/Laws/Arith.lean ====
section
/-! SUPPORT. The arithmetic helpers: no result is truncated, the Euclidean loop finds the gcd and a Bézout coefficient within its bound, and the
point helpers give coordinates below `P_FIELD`. -/

namespace Sys2Proof.Machine

theorem pField_lt : Config.pField < 2 ^ 256 := by decide
theorem pField_pos : 0 < Config.pField := by decide
theorem nOrder_lt : Config.nOrder < 2 ^ 256 := by decide
theorem gx_lt : Config.gx < Config.pField := by decide
theorem gy_lt : Config.gy < Config.pField := by decide

/-- A remainder fits in 256 bits. -/
theorem mod_lt_256 (a : Nat) (m : U256) (h : 0 < m.toNat) : a % m.toNat < 2 ^ 256 :=
  lt_trans (Nat.mod_lt _ h) m.isLt

/-- Narrowing a number that fits changes nothing. -/
theorem toNat_ofNat_of_lt {a : Nat} (h : a < 2 ^ 256) : (BitVec.ofNat 256 a).toNat = a := by
  rw [BitVec.toNat_ofNat, Nat.mod_eq_of_lt h]

theorem reduceMod_toNat (m a : U256) (h : 0 < m.toNat) : (reduceMod m a).toNat = a.toNat % m.toNat :=
  toNat_ofNat_of_lt (mod_lt_256 _ m h)

theorem faddMod_toNat (m a b : U256) (h : 0 < m.toNat) : (faddMod m a b).toNat = (a.toNat + b.toNat) % m.toNat :=
  toNat_ofNat_of_lt (mod_lt_256 _ m h)

theorem fmulMod_toNat (m a b : U256) (h : 0 < m.toNat) : (fmulMod m a b).toNat = (a.toNat * b.toNat) % m.toNat :=
  toNat_ofNat_of_lt (mod_lt_256 _ m h)

/-- The non-negative remainder of an integer, as a natural number below the modulus. -/
theorem emod_toNat_lt (z : Int) {m : Nat} (h : 0 < m) : (z % (m : Int)).toNat < m := by
  have h₁ := Int.emod_nonneg z (b := (m : Int)) (by omega)
  have h₂ := Int.emod_lt_of_pos z (b := (m : Int)) (by omega)
  omega

theorem fsubMod_toNat (m a b : U256) (h : 0 < m.toNat) :
    ((fsubMod m a b).toNat : Int) = ((a.toNat : Int) - b.toNat) % m.toNat := by
  unfold fsubMod
  rw [toNat_ofNat_of_lt (lt_trans (emod_toNat_lt _ h) m.isLt)]
  exact Int.toNat_of_nonneg (Int.emod_nonneg _ (by omega))

/-! ## The Euclidean loop -/

/-- With a bound that `r0 · r1` does not reach, the loop ends at the gcd, and its coefficient is a Bézout coefficient modulo `m`. -/
theorem euclidLoop_spec (m a : Nat) (n : Nat) : ∀ (r0 r1 : Nat) (t0 t1 : Int), r0 * r1 < 2 ^ n → r1 < r0 →
    (m : Int) ∣ t0 * a - r0 → (m : Int) ∣ t1 * a - r1 →
    (euclidLoop n r0 r1 t0 t1).1 = Nat.gcd r0 r1 ∧
      (m : Int) ∣ (euclidLoop n r0 r1 t0 t1).2 * a - (euclidLoop n r0 r1 t0 t1).1 := by
  induction n with
  | zero =>
    intro r0 r1 t0 t1 hb hlt h0 _
    have hr : r1 = 0 := by
      rcases Nat.eq_zero_or_pos r1 with h | h
      · exact h
      · have := Nat.mul_pos (show 0 < r0 by omega) h
        omega
    subst hr
    exact ⟨by simp [euclidLoop], h0⟩
  | succ n ih =>
    intro r0 r1 t0 t1 hb hlt h0 h1
    unfold euclidLoop
    by_cases hr : r1 = 0
    · rw [if_pos hr]
      subst hr
      exact ⟨by simp, h0⟩
    · rw [if_neg hr]
      have hmod : r0 - r0 / r1 * r1 = r0 % r1 := by
        have := Nat.div_add_mod' r0 r1
        omega
      rw [hmod]
      have hlt' : r0 % r1 < r1 := Nat.mod_lt _ (by omega)
      have hhalf : 2 * (r0 % r1) ≤ r0 := by
        have h₁ := Nat.div_add_mod' r0 r1
        have h₂ : 1 ≤ r0 / r1 := (Nat.one_le_div_iff (by omega)).mpr hlt.le
        have h₃ : r1 ≤ r0 / r1 * r1 := Nat.le_mul_of_pos_left _ h₂
        omega
      have hb' : r1 * (r0 % r1) < 2 ^ n := by
        have : r1 * (2 * (r0 % r1)) ≤ r1 * r0 := Nat.mul_le_mul_left _ hhalf
        rw [Nat.pow_succ] at hb
        nlinarith
      have h1' : (m : Int) ∣ (t0 - (r0 / r1 : Nat) * t1) * a - ((r0 % r1 : Nat) : Int) := by
        have e : (r0 : Int) = (r0 / r1 : Nat) * (r1 : Int) + ((r0 % r1 : Nat) : Int) := by
          exact_mod_cast (Nat.div_add_mod' r0 r1).symm
        have : (t0 - (r0 / r1 : Nat) * t1) * a - ((r0 % r1 : Nat) : Int)
            = (t0 * a - r0) - (r0 / r1 : Nat) * (t1 * a - r1) := by
          rw [e]; ring
        rw [this]
        exact dvd_sub h0 (Dvd.dvd.mul_left h1 _)
      have := ih r1 (r0 % r1) t1 _ hb' hlt' h1 h1'
      rwa [Nat.gcd_comm r1, ← Nat.gcd_rec, Nat.gcd_comm] at this

/-- The loop as `inv_m(a)` starts it. -/
theorem euclid_start {m a : Nat} (hm : m < 2 ^ 256) (ha : a < m) :
    (euclidLoop euclidTurns m a 0 1).1 = Nat.gcd m a ∧
      (m : Int) ∣ (euclidLoop euclidTurns m a 0 1).2 * a - (euclidLoop euclidTurns m a 0 1).1 := by
  refine euclidLoop_spec m a euclidTurns m a 0 1 ?_ ha (by simp) (by simp)
  calc m * a < 2 ^ 256 * 2 ^ 256 := Nat.mul_lt_mul'' hm (by omega)
    _ = 2 ^ (256 + 256) := (Nat.pow_add 2 256 256).symm
    _ ≤ 2 ^ euclidTurns := Nat.pow_le_pow_right (by norm_num) (by decide)

/-- `inv_m(a)` raises `NoInverseExists` when the gcd is not 1. -/
theorem invMod_noInverse {m a : Nat} (hm : m < 2 ^ 256) (ha : a < m) (hg : Nat.gcd a m ≠ 1) :
    invMod m a = .error .noInverseExists := by
  have h := (euclid_start hm ha).1
  unfold invMod
  rw [Nat.gcd_comm] at hg
  simp only [h, if_neg hg]

/-- `inv_m(a)` is an inverse of `a` below `m` when the gcd is 1. -/
theorem invMod_ok {m a : Nat} (h2 : 2 ≤ m) (hm : m < 2 ^ 256) (ha : a < m) (hg : Nat.gcd a m = 1) :
    ∃ t, invMod m a = .ok t ∧ t < m ∧ t * a % m = 1 := by
  obtain ⟨h, hd⟩ := euclid_start hm ha
  rw [Nat.gcd_comm, hg] at h
  refine ⟨((euclidLoop euclidTurns m a 0 1).2 % (m : Int)).toNat, ?_, emod_toNat_lt _ (by omega), ?_⟩
  · unfold invMod
    simp only [h, if_true]
  · rw [h] at hd
    set T := (euclidLoop euclidTurns m a 0 1).2 with hT
    have hnn := Int.emod_nonneg T (b := (m : Int)) (by omega)
    have h₁ : T % m * a ≡ T * a [ZMOD m] := (Int.mod_modEq T m).mul_right _
    have h₂ : T * a ≡ 1 [ZMOD m] := (Int.modEq_iff_dvd.mpr (by simpa using hd)).symm
    have h₃ : (((T % (m : Int)).toNat * a : Nat) : Int) % m = 1 := by
      rw [Nat.cast_mul, Int.toNat_of_nonneg hnn, h₁.trans h₂]
      exact Int.emod_eq_of_lt (by norm_num) (by omega)
    exact_mod_cast h₃

/-- An inverse below the modulus is unique. -/
theorem inverse_unique {m a t u : Nat} (ht : t < m) (hu : u < m) (h₁ : t * a % m = 1) (h₂ : u * a % m = 1) : t = u := by
  have e₁ : t * a ≡ u * a [MOD m] := h₁.trans h₂.symm
  have hc : Nat.Coprime m a := by
    have hm : 1 < m := by
      rcases Nat.lt_or_ge 1 m with h | h
      · exact h
      · exfalso
        interval_cases m
        · omega
        · omega
    refine Nat.Coprime.symm (Nat.coprime_of_mul_modEq_one t ?_)
    rw [Nat.ModEq, Nat.mul_comm, h₁, Nat.mod_eq_of_lt hm]
  have := Nat.ModEq.cancel_right_of_coprime hc e₁
  rwa [Nat.ModEq, Nat.mod_eq_of_lt ht, Nat.mod_eq_of_lt hu] at this

/-- What `inv_m(a)` can do, said once: the inverse, or `NoInverseExists`, by the gcd. -/
theorem invMod_cases {m a : Nat} (h2 : 2 ≤ m) (hm : m < 2 ^ 256) (ha : a < m) :
    (Nat.gcd a m = 1 ∧ ∃ t, invMod m a = .ok t ∧ t < m ∧ t * a % m = 1) ∨
    (Nat.gcd a m ≠ 1 ∧ invMod m a = .error .noInverseExists) := by
  by_cases hg : Nat.gcd a m = 1
  · exact .inl ⟨hg, invMod_ok h2 hm ha hg⟩
  · exact .inr ⟨hg, invMod_noInverse hm ha hg⟩

/-! ## Points -/

theorem modP_lt (z : Int) : modP z < Config.pField := emod_toNat_lt z pField_pos

theorem modP_lt_256 (z : Int) : modP z < 2 ^ 256 := lt_trans (modP_lt z) pField_lt

/-- As an integer, `modP z` is the non-negative remainder. -/
theorem modP_cast (z : Int) : ((modP z : Nat) : Int) = z % Config.pField :=
  Int.toNat_of_nonneg (Int.emod_nonneg _ (by exact_mod_cast pField_pos.ne'))

theorem modP_of_lt {a : Nat} (h : a < Config.pField) : modP (a : Int) = a := by
  have : ((modP (a : Int) : Nat) : Int) = a := by
    rw [modP_cast, Int.emod_eq_of_lt (by omega) (by exact_mod_cast h)]
  exact_mod_cast this

/-- The third point is finite and its coordinates are the two remainders, not truncated. -/
theorem thirdPoint_eq (lam x1 y1 x2 : Int) :
    ∃ x y : U256, thirdPoint lam x1 y1 x2 = .fin x y ∧ x.toNat = modP (lam * lam - x1 - x2) ∧
      y.toNat = modP (lam * (x1 - (modP (lam * lam - x1 - x2) : Int)) - y1) :=
  ⟨_, _, rfl, toNat_ofNat_of_lt (modP_lt_256 _), toNat_ofNat_of_lt (modP_lt_256 _)⟩

end Sys2Proof.Machine
end

