-- ==== Sys2Proof/Laws/Bytes.lean ====
section
/-! SUPPORT. Lengths and round trips of the big-endian byte sequences. -/

namespace Sys2Proof

@[simp] theorem be_length (v n : Nat) : (be v n).length = n := by simp [be]

@[simp] theorem be_zero_length (v : Nat) : be v 0 = [] := rfl

/-- Byte `i` of `BE(v, n)`. -/
theorem be_getElem (v n i : Nat) (h : i < (be v n).length) :
    (be v n)[i] = BitVec.ofNat 8 (v >>> (8 * (n - 1 - i))) := by
  simp [be]

/-- The last byte comes last, and the bytes before it are those of `v / 256`. -/
theorem be_succ (v n : Nat) : be v (n + 1) = be (v / 256) n ++ [BitVec.ofNat 8 v] := by
  apply List.ext_getElem
  · simp
  · intro i h₁ h₂
    rw [be_getElem]
    simp only [be_length] at h₁
    by_cases hi : i < n
    · rw [List.getElem_append_left (by simpa using hi), be_getElem]
      congr 1
      rw [Nat.shiftRight_eq_div_pow, Nat.shiftRight_eq_div_pow, Nat.div_div_eq_div_mul,
        show 8 * (n + 1 - 1 - i) = 8 + 8 * (n - 1 - i) by omega, Nat.pow_add]
    · have : i = n := by omega
      subst this
      simp

@[simp] theorem int_nil : int [] = 0 := rfl

/-- The last byte is the least significant one. -/
theorem int_append_singleton (X : List Byte) (b : Byte) : int (X ++ [b]) = 256 * int X + b.toNat := by
  simp [int]

/-- `INT` undoes `BE`, up to the width. -/
theorem int_be (v n : Nat) : int (be v n) = v % 256 ^ n := by
  induction n generalizing v with
  | zero => simp [Nat.mod_one]
  | succ n ih =>
    rw [be_succ, int_append_singleton, ih, BitVec.toNat_ofNat]
    rw [show 256 ^ (n + 1) = 256 * 256 ^ n from Nat.pow_succ', Nat.mod_mul]
    omega

/-- The word read back from its four bytes. -/
@[simp] theorem ofNat_int_be (w : Word) : BitVec.ofNat 32 (int (be w.toNat 4)) = w := by
  apply BitVec.eq_of_toNat_eq
  rw [int_be, BitVec.toNat_ofNat]
  have := w.isLt
  omega

/-- `INT` of `n` bytes is below `2^(8n)`. -/
theorem int_lt (X : List Byte) : int X < 256 ^ X.length := by
  induction X using List.reverseRecOn with
  | nil => simp
  | append_singleton X b ih =>
    rw [int_append_singleton, List.length_append, List.length_singleton, Nat.pow_succ]
    have := b.isLt
    omega

/-- `BE` undoes `INT`. -/
theorem be_int (X : List Byte) : be (int X) X.length = X := by
  induction X using List.reverseRecOn with
  | nil => rfl
  | append_singleton X b ih =>
    rw [List.length_append, List.length_singleton, be_succ, int_append_singleton]
    have hb := b.isLt
    rw [show (256 * int X + b.toNat) / 256 = int X by omega, ih]
    congr 1
    simp only [List.cons.injEq, and_true]
    apply BitVec.eq_of_toNat_eq
    rw [BitVec.toNat_ofNat]
    omega

@[simp] theorem xorBytes_length (X Y : List Byte) : (xorBytes X Y).length = min X.length Y.length := by
  simp [xorBytes]

/-- An overwrite inside the sequence keeps its length. -/
theorem overwrite_length (X : List Byte) (k : Nat) (bs : List Byte) (h : k + bs.length ≤ X.length) :
    (overwrite X k bs).length = X.length := by
  simp [overwrite]
  omega

/-- A byte of an overwritten sequence: the new one inside, the old one outside. -/
theorem overwrite_getElem? (X : List Byte) (k : Nat) (bs : List Byte) (h : k + bs.length ≤ X.length) (i : Nat) :
    (overwrite X k bs)[i]? = if k ≤ i ∧ i < k + bs.length then bs[i - k]? else X[i]? := by
  unfold overwrite
  by_cases h₁ : i < k
  · rw [if_neg (by omega), List.append_assoc, List.getElem?_append_left (by simp; omega), List.getElem?_take_of_lt h₁]
  · by_cases h₂ : i < k + bs.length
    · rw [if_pos (by omega), List.getElem?_append_left (by simp; omega),
        List.getElem?_append_right (by simp; omega)]
      congr 1
      simp
      omega
    · rw [if_neg (by omega), List.getElem?_append_right (by simp; omega), List.getElem?_drop]
      congr 1
      simp
      omega

end Sys2Proof
end

