-- ==== Sys2Proof/Laws/Primes.lean ====
section
/-! SUPPORT. `P_FIELD` and `N_ORDER` are prime (spec/00_scope.md R8, R9): a chain of Pratt certificates, each checked by the kernel. -/

namespace Sys2Proof.Primes

/-- `a^e mod m` by squaring; the first argument bounds the number of bits of `e`. -/
def powMod (m : Nat) : Nat → Nat → Nat → Nat
  | 0, _, _ => 1 % m
  | n + 1, a, e => if e % 2 = 1 then a * powMod m n (a * a % m) (e / 2) % m else powMod m n (a * a % m) (e / 2)

theorem powMod_cast (m : Nat) (n : Nat) : ∀ a e : Nat, e < 2 ^ n → ((powMod m n a e : Nat) : ZMod m) = (a : ZMod m) ^ e := by
  induction n with
  | zero =>
    intro a e he
    have : e = 0 := by simpa using he
    subst this
    simp [powMod]
  | succ n ih =>
    intro a e he
    have h := ih (a * a % m) (e / 2) (by rw [Nat.pow_succ] at he; omega)
    have hs : ((a * a % m : Nat) : ZMod m) ^ (e / 2) = (a : ZMod m) ^ (2 * (e / 2)) := by
      rw [ZMod.natCast_mod, pow_mul]
      push_cast
      rw [pow_two]
    unfold powMod
    by_cases he2 : e % 2 = 1
    · rw [if_pos he2, ZMod.natCast_mod, Nat.cast_mul, h, hs, ← pow_succ']
      congr 1
      omega
    · rw [if_neg he2, h, hs]
      congr 1
      omega

/-- The conditions of a Pratt certificate that are closed facts about numbers: `a` has order `p − 1` modulo `p`, where `qs` are the prime factors
of `p − 1`, repeated. -/
def certificate (p a : Nat) (qs : List Nat) : Bool :=
  decide (1 < p) && decide (qs.prod = p - 1) && decide (p - 1 < 2 ^ 256) && decide (powMod p 256 a (p - 1) = 1) &&
    qs.all fun q => decide (powMod p 256 a ((p - 1) / q) ≠ 1)

theorem powMod_lt {m : Nat} (hm : 1 < m) (n : Nat) : ∀ a e : Nat, powMod m n a e < m := by
  induction n with
  | zero => intro a e; simpa [powMod] using Nat.mod_lt 1 (by omega)
  | succ n ih =>
    intro a e
    unfold powMod
    split
    · exact Nat.mod_lt _ (by omega)
    · exact ih _ _

/-- A number with a Pratt certificate is prime. -/
theorem prime_of_certificate {p : Nat} (a : Nat) (qs : List Nat) (hq : ∀ q ∈ qs, q.Prime) (hc : certificate p a qs = true) : p.Prime := by
  simp only [certificate, Bool.and_eq_true, decide_eq_true_eq, List.all_eq_true] at hc
  obtain ⟨⟨⟨⟨hp, hprod⟩, hlt⟩, h1⟩, hne⟩ := hc
  have hpow : ∀ e, e ≤ p - 1 → ((powMod p 256 a e : Nat) : ZMod p) = (a : ZMod p) ^ e := fun e he =>
    powMod_cast p 256 a e (lt_of_le_of_lt he hlt)
  refine lucas_primality p (a : ZMod p) ?_ fun q hqp hqd => ?_
  · rw [← hpow _ le_rfl, h1]
    simp
  · rw [← hprod] at hqd
    obtain ⟨r, hr, hqr⟩ := (Prime.dvd_prod_iff hqp.prime).mp hqd
    have : q = r := (Nat.prime_dvd_prime_iff_eq hqp (hq r hr)).mp hqr
    subst this
    rw [← hpow _ (Nat.div_le_self _ _)]
    intro h
    refine hne q hr ?_
    have h' : ((powMod p 256 a ((p - 1) / q) : Nat) : ZMod p) = ((1 : Nat) : ZMod p) := by simpa using h
    have := (ZMod.natCast_eq_natCast_iff _ _ _).mp h'
    rwa [Nat.ModEq, Nat.mod_eq_of_lt (powMod_lt hp _ _ _), Nat.mod_eq_of_lt hp] at this

theorem prime_24809 : Nat.Prime 24809 := by
  refine prime_of_certificate 6 [2, 2, 2, 7, 443] ?_ (by decide +kernel)
  intro q hq
  simp only [List.mem_cons, List.not_mem_nil, or_false] at hq
  rcases hq with rfl | rfl | rfl | rfl | rfl <;> norm_num

theorem prime_13331831 : Nat.Prime 13331831 := by
  refine prime_of_certificate 13 [2, 5, 971, 1373] ?_ (by decide +kernel)
  intro q hq
  simp only [List.mem_cons, List.not_mem_nil, or_false] at hq
  rcases hq with rfl | rfl | rfl | rfl <;> norm_num

theorem prime_173378833005251801 : Nat.Prime 173378833005251801 := by
  refine prime_of_certificate 6 [2, 2, 2, 5, 5, 2621, 24809, 13331831] ?_ (by decide +kernel)
  intro q hq
  simp only [List.mem_cons, List.not_mem_nil, or_false] at hq
  rcases hq with rfl | rfl | rfl | rfl | rfl | rfl | rfl | rfl <;> first | exact prime_24809 | exact prime_13331831 | norm_num

theorem prime_22149492674086928081353 : Nat.Prime 22149492674086928081353 := by
  refine prime_of_certificate 5 [2, 2, 2, 3, 5323, 173378833005251801] ?_ (by decide +kernel)
  intro q hq
  simp only [List.mem_cons, List.not_mem_nil, or_false] at hq
  rcases hq with rfl | rfl | rfl | rfl | rfl | rfl <;> first | exact prime_173378833005251801 | norm_num

theorem prime_132896956044521568488119 : Nat.Prime 132896956044521568488119 := by
  refine prime_of_certificate 6 [2, 3, 22149492674086928081353] ?_ (by decide +kernel)
  intro q hq
  simp only [List.mem_cons, List.not_mem_nil, or_false] at hq
  rcases hq with rfl | rfl | rfl <;> first | exact prime_22149492674086928081353 | norm_num

theorem prime_41201 : Nat.Prime 41201 := by
  refine prime_of_certificate 3 [2, 2, 2, 2, 5, 5, 103] ?_ (by decide +kernel)
  intro q hq
  simp only [List.mem_cons, List.not_mem_nil, or_false] at hq
  rcases hq with rfl | rfl | rfl | rfl | rfl | rfl | rfl <;> norm_num

theorem prime_96557 : Nat.Prime 96557 := by
  refine prime_of_certificate 2 [2, 2, 101, 239] ?_ (by decide +kernel)
  intro q hq
  simp only [List.mem_cons, List.not_mem_nil, or_false] at hq
  rcases hq with rfl | rfl | rfl | rfl <;> norm_num

theorem prime_20113 : Nat.Prime 20113 := by
  refine prime_of_certificate 10 [2, 2, 2, 2, 3, 419] ?_ (by decide +kernel)
  intro q hq
  simp only [List.mem_cons, List.not_mem_nil, or_false] at hq
  rcases hq with rfl | rfl | rfl | rfl | rfl | rfl <;> norm_num

theorem prime_1206781 : Nat.Prime 1206781 := by
  refine prime_of_certificate 10 [2, 2, 3, 5, 20113] ?_ (by decide +kernel)
  intro q hq
  simp only [List.mem_cons, List.not_mem_nil, or_false] at hq
  rcases hq with rfl | rfl | rfl | rfl | rfl <;> first | exact prime_20113 | norm_num

theorem prime_7240687 : Nat.Prime 7240687 := by
  refine prime_of_certificate 3 [2, 3, 1206781] ?_ (by decide +kernel)
  intro q hq
  simp only [List.mem_cons, List.not_mem_nil, or_false] at hq
  rcases hq with rfl | rfl | rfl <;> first | exact prime_1206781 | norm_num

theorem prime_107590001 : Nat.Prime 107590001 := by
  refine prime_of_certificate 3 [2, 2, 2, 2, 5, 5, 5, 5, 7, 29, 53] ?_ (by decide +kernel)
  intro q hq
  simp only [List.mem_cons, List.not_mem_nil, or_false] at hq
  rcases hq with rfl | rfl | rfl | rfl | rfl | rfl | rfl | rfl | rfl | rfl | rfl <;> norm_num

theorem prime_255515944373312847190720520512484175977 : Nat.Prime 255515944373312847190720520512484175977 := by
  refine prime_of_certificate 3 [2, 2, 2, 7, 7, 11, 1627, 2657, 4423, 41201, 96557, 7240687, 107590001] ?_ (by decide +kernel)
  intro q hq
  simp only [List.mem_cons, List.not_mem_nil, or_false] at hq
  rcases hq with rfl | rfl | rfl | rfl | rfl | rfl | rfl | rfl | rfl | rfl | rfl | rfl | rfl <;> first | exact prime_41201 | exact prime_96557 | exact prime_7240687 | exact prime_107590001 | norm_num

theorem prime_205115282021455665897114700593932402728804164701536103180137503955397371 : Nat.Prime 205115282021455665897114700593932402728804164701536103180137503955397371 := by
  refine prime_of_certificate 10 [2, 3, 5, 29, 29, 31, 7723, 132896956044521568488119, 255515944373312847190720520512484175977] ?_ (by decide +kernel)
  intro q hq
  simp only [List.mem_cons, List.not_mem_nil, or_false] at hq
  rcases hq with rfl | rfl | rfl | rfl | rfl | rfl | rfl | rfl | rfl <;> first | exact prime_132896956044521568488119 | exact prime_255515944373312847190720520512484175977 | norm_num

/-- `P_FIELD` is prime (spec/00_scope.md R8). -/
theorem pField_prime : Nat.Prime Config.pField := by
  refine prime_of_certificate 3 [2, 3, 7, 13441, 205115282021455665897114700593932402728804164701536103180137503955397371] ?_ (by decide +kernel)
  intro q hq
  simp only [List.mem_cons, List.not_mem_nil, or_false] at hq
  rcases hq with rfl | rfl | rfl | rfl | rfl <;> first | exact prime_205115282021455665897114700593932402728804164701536103180137503955397371 | norm_num

theorem prime_85831 : Nat.Prime 85831 := by
  refine prime_of_certificate 3 [2, 3, 5, 2861] ?_ (by decide +kernel)
  intro q hq
  simp only [List.mem_cons, List.not_mem_nil, or_false] at hq
  rcases hq with rfl | rfl | rfl | rfl <;> norm_num

theorem prime_4681609 : Nat.Prime 4681609 := by
  refine prime_of_certificate 23 [2, 2, 2, 3, 97, 2011] ?_ (by decide +kernel)
  intro q hq
  simp only [List.mem_cons, List.not_mem_nil, or_false] at hq
  rcases hq with rfl | rfl | rfl | rfl | rfl | rfl <;> norm_num

theorem prime_107361793816595537 : Nat.Prime 107361793816595537 := by
  refine prime_of_certificate 3 [2, 2, 2, 2, 16699, 85831, 4681609] ?_ (by decide +kernel)
  intro q hq
  simp only [List.mem_cons, List.not_mem_nil, or_false] at hq
  rcases hq with rfl | rfl | rfl | rfl | rfl | rfl | rfl <;> first | exact prime_85831 | exact prime_4681609 | norm_num

theorem prime_120233 : Nat.Prime 120233 := by
  refine prime_of_certificate 3 [2, 2, 2, 7, 19, 113] ?_ (by decide +kernel)
  intro q hq
  simp only [List.mem_cons, List.not_mem_nil, or_false] at hq
  rcases hq with rfl | rfl | rfl | rfl | rfl | rfl <;> norm_num

theorem prime_44706919 : Nat.Prime 44706919 := by
  refine prime_of_certificate 6 [2, 3, 797, 9349] ?_ (by decide +kernel)
  intro q hq
  simp only [List.mem_cons, List.not_mem_nil, or_false] at hq
  rcases hq with rfl | rfl | rfl | rfl <;> norm_num

theorem prime_174723607534414371449 : Nat.Prime 174723607534414371449 := by
  refine prime_of_certificate 3 [2, 2, 2, 17, 59, 4051, 120233, 44706919] ?_ (by decide +kernel)
  intro q hq
  simp only [List.mem_cons, List.not_mem_nil, or_false] at hq
  rcases hq with rfl | rfl | rfl | rfl | rfl | rfl | rfl | rfl <;> first | exact prime_120233 | exact prime_44706919 | norm_num

theorem prime_305873 : Nat.Prime 305873 := by
  refine prime_of_certificate 3 [2, 2, 2, 2, 7, 2731] ?_ (by decide +kernel)
  intro q hq
  simp only [List.mem_cons, List.not_mem_nil, or_false] at hq
  rcases hq with rfl | rfl | rfl | rfl | rfl | rfl <;> norm_num

theorem prime_28181 : Nat.Prime 28181 := by
  refine prime_of_certificate 2 [2, 2, 5, 1409] ?_ (by decide +kernel)
  intro q hq
  simp only [List.mem_cons, List.not_mem_nil, or_false] at hq
  rcases hq with rfl | rfl | rfl | rfl <;> norm_num

theorem prime_545358713 : Nat.Prime 545358713 := by
  refine prime_of_certificate 5 [2, 2, 2, 41, 59, 28181] ?_ (by decide +kernel)
  intro q hq
  simp only [List.mem_cons, List.not_mem_nil, or_false] at hq
  rcases hq with rfl | rfl | rfl | rfl | rfl | rfl <;> first | exact prime_28181 | norm_num

theorem prime_1627771 : Nat.Prime 1627771 := by
  refine prime_of_certificate 3 [2, 3, 5, 29, 1871] ?_ (by decide +kernel)
  intro q hq
  simp only [List.mem_cons, List.not_mem_nil, or_false] at hq
  rcases hq with rfl | rfl | rfl | rfl | rfl <;> norm_num

theorem prime_297159362677 : Nat.Prime 297159362677 := by
  refine prime_of_certificate 2 [2, 2, 3, 3, 11, 461, 1627771] ?_ (by decide +kernel)
  intro q hq
  simp only [List.mem_cons, List.not_mem_nil, or_false] at hq
  rcases hq with rfl | rfl | rfl | rfl | rfl | rfl | rfl <;> first | exact prime_1627771 | norm_num

theorem prime_29047611873442575647497758179 : Nat.Prime 29047611873442575647497758179 := by
  refine prime_of_certificate 2 [2, 293, 305873, 545358713, 297159362677] ?_ (by decide +kernel)
  intro q hq
  simp only [List.mem_cons, List.not_mem_nil, or_false] at hq
  rcases hq with rfl | rfl | rfl | rfl | rfl <;> first | exact prime_305873 | exact prime_545358713 | exact prime_297159362677 | norm_num

theorem prime_341948486974166000522343609283189 : Nat.Prime 341948486974166000522343609283189 := by
  refine prime_of_certificate 2 [2, 2, 3, 3, 3, 109, 29047611873442575647497758179] ?_ (by decide +kernel)
  intro q hq
  simp only [List.mem_cons, List.not_mem_nil, or_false] at hq
  rcases hq with rfl | rfl | rfl | rfl | rfl | rfl | rfl <;> first | exact prime_29047611873442575647497758179 | norm_num

/-- `N_ORDER` is prime (spec/00_scope.md R9). -/
theorem nOrder_prime : Nat.Prime Config.nOrder := by
  refine prime_of_certificate 7 [2, 2, 2, 2, 2, 2, 3, 149, 631, 107361793816595537, 174723607534414371449, 341948486974166000522343609283189] ?_ (by decide +kernel)
  intro q hq
  simp only [List.mem_cons, List.not_mem_nil, or_false] at hq
  rcases hq with rfl | rfl | rfl | rfl | rfl | rfl | rfl | rfl | rfl | rfl | rfl | rfl <;> first | exact prime_107361793816595537 | exact prime_174723607534414371449 | exact prime_341948486974166000522343609283189 | norm_num

end Sys2Proof.Primes
end

