-- ==== Sys2Proof/Laws/Point.lean ====
section
/-! SUPPORT. What the point helpers can answer: division modulo `P_FIELD`, the slope, the addition, and the loop of `SMUL`. -/

namespace Sys2Proof.Machine

/-- Two integers have the same remainder exactly when they are congruent. -/
theorem modP_eq_iff (a b : Int) : modP a = modP b ↔ a ≡ b [ZMOD Config.pField] := by
  rw [← Int.natCast_inj, modP_cast, modP_cast]
  rfl

/-- A remainder is congruent to its number. -/
theorem modP_modEq (z : Int) : (modP z : Int) ≡ z [ZMOD Config.pField] := by
  rw [modP_cast]
  exact Int.mod_modEq _ _

theorem modP_eq_zero_iff (z : Int) : modP z = 0 ↔ (Config.pField : Int) ∣ z := by
  rw [Int.dvd_iff_emod_eq_zero, ← modP_cast]
  norm_cast

/-- A nonzero number below `P_FIELD` is coprime to it. -/
theorem gcd_pField {b : Nat} (h0 : b ≠ 0) (hb : b < Config.pField) : Nat.gcd b Config.pField = 1 :=
  Nat.Coprime.symm ((Nat.Prime.coprime_iff_not_dvd Primes.pField_prime).mpr fun h => by
    have := Nat.le_of_dvd (Nat.pos_of_ne_zero h0) h
    omega)

/-- Division modulo `P_FIELD`, said once: a zero denominator raises `DivisionByZero`, any other gives the one quotient (spec/41_point.md R141). -/
theorem fdivP_cases (a : Nat) {b : Nat} (hb : b < Config.pField) :
    (b = 0 ∧ fdivP a b = .error .divisionByZero) ∨
    (b ≠ 0 ∧ ∃ q, fdivP a b = .ok q ∧ q < Config.pField ∧ (q : Int) * b ≡ a [ZMOD Config.pField]) := by
  by_cases h0 : b = 0
  · exact .inl ⟨h0, by simp [fdivP, h0]⟩
  · obtain ⟨t, ht, -, hi⟩ := invMod_ok (by decide) pField_lt hb (gcd_pField h0 hb)
    refine .inr ⟨h0, modP ((a : Int) * t), by simp [fdivP, h0, ht], modP_lt _, ?_⟩
    have h₁ : (t : Int) * b ≡ 1 [ZMOD Config.pField] := by
      have : t * b ≡ 1 [MOD Config.pField] := by rw [Nat.ModEq, hi]; decide
      exact_mod_cast (Int.natCast_modEq_iff.mpr this)
    calc (modP ((a : Int) * t) : Int) * b ≡ (a : Int) * t * b [ZMOD Config.pField] := (modP_modEq _).mul_right _
      _ = (a : Int) * (t * b) := by ring
      _ ≡ a * 1 [ZMOD Config.pField] := h₁.mul_left _
      _ = a := by ring

/-- `P_FIELD` is odd, so `2 · y` vanishes modulo it only when `y` does. -/
theorem two_mul_modP {y : Nat} (hy : y < Config.pField) : modP (2 * (y : Int)) = 0 ↔ y = 0 := by
  rw [modP_eq_zero_iff]
  constructor
  · intro h
    have h' : Config.pField ∣ 2 * y := by exact_mod_cast h
    rcases (Nat.Prime.dvd_mul Primes.pField_prime).mp h' with h | h
    · exact absurd (Nat.le_of_dvd (by norm_num) h) (by decide)
    · rcases Nat.eq_zero_or_pos y with h0 | h0
      · exact h0
      · have := Nat.le_of_dvd h0 h
        omega
  · rintro rfl
    simp

/-- The difference of two numbers below `P_FIELD` vanishes modulo it only when they are equal. -/
theorem sub_modP {a b : Nat} (ha : a < Config.pField) (hb : b < Config.pField) : modP ((a : Int) - b) = 0 ↔ a = b := by
  rw [modP_eq_zero_iff]
  constructor
  · intro h
    have := Int.eq_zero_of_abs_lt_dvd h (by rw [abs_lt]; omega)
    omega
  · rintro rfl
    simp

/-- The slope, said once (spec/41_point.md R141, R143): a zero denominator raises `DivisionByZero`; else it is the number whose product with the denominator is
the numerator. -/
theorem slope_cases {x1 y1 x2 y2 : Nat} (hx1 : x1 < Config.pField) (hy1 : y1 < Config.pField) (hx2 : x2 < Config.pField) :
    (x1 = x2 ∧ (y1 ≠ y2 ∨ y1 = 0) ∧ slope x1 y1 x2 y2 = .error .divisionByZero) ∨
    (¬ (x1 = x2 ∧ (y1 ≠ y2 ∨ y1 = 0)) ∧ ∃ lam : Nat, slope x1 y1 x2 y2 = .ok lam ∧ lam < Config.pField ∧
      (x1 = x2 ∧ y1 = y2 → (lam : Int) * (2 * y1) ≡ 3 * x1 * x1 [ZMOD Config.pField]) ∧
      (¬ (x1 = x2 ∧ y1 = y2) → (lam : Int) * ((x2 : Int) - x1) ≡ (y2 : Int) - y1 [ZMOD Config.pField])) := by
  unfold slope
  by_cases h : x1 = x2 ∧ y1 = y2
  · have hc : ((x1 : Int) = x2 ∧ (y1 : Int) = y2) := by exact_mod_cast h
    rw [if_pos hc]
    rcases fdivP_cases (modP (3 * (x1 : Int) * x1)) (modP_lt (2 * (y1 : Int))) with ⟨h0, he⟩ | ⟨h0, q, he, hq, hm⟩
    · exact .inl ⟨h.1, .inr ((two_mul_modP hy1).mp h0), he⟩
    · refine .inr ⟨fun h' => h0 ((two_mul_modP hy1).mpr (h'.2.resolve_left fun h'' => h'' h.2)), q, he, hq, fun _ => ?_, fun h' => absurd h h'⟩
      exact ((modP_modEq _).symm.mul_left _).trans (hm.trans (modP_modEq _))
  · have hc : ¬ ((x1 : Int) = x2 ∧ (y1 : Int) = y2) := by exact_mod_cast h
    rw [if_neg hc]
    rcases fdivP_cases (modP ((y2 : Int) - y1)) (modP_lt ((x2 : Int) - x1)) with ⟨h0, he⟩ | ⟨h0, q, he, hq, hm⟩
    · have hx : x1 = x2 := ((sub_modP hx2 hx1).mp h0).symm
      exact .inl ⟨hx, .inl fun hy => h ⟨hx, hy⟩, he⟩
    · refine .inr ⟨fun h' => h0 ((sub_modP hx2 hx1).mpr h'.1.symm), q, he, hq, fun h' => absurd h' h, fun _ => ?_⟩
      exact ((modP_modEq _).symm.mul_left _).trans (hm.trans (modP_modEq _))

/-- What a sum of two points can fail with: nothing but `DivisionByZero`, whatever their coordinates. -/
theorem slope_error {x1 y1 x2 y2 : Int} {k : ErrKind} (h : slope x1 y1 x2 y2 = .error k) : k = .divisionByZero := by
  unfold slope at h
  split at h
  · rcases fdivP_cases (modP (3 * x1 * x1)) (modP_lt (2 * y1)) with ⟨-, he⟩ | ⟨-, q, he, -⟩ <;> rw [he] at h <;> cases h
    rfl
  · rcases fdivP_cases (modP (y2 - y1)) (modP_lt (x2 - x1)) with ⟨-, he⟩ | ⟨-, q, he, -⟩ <;> rw [he] at h <;> cases h
    rfl

theorem pointAdd_error {A B : CurvePoint} {k : ErrKind} (h : pointAdd A B = .error k) : k = .divisionByZero := by
  cases A with
  | inf => cases h
  | fin x1 y1 =>
    cases B with
    | inf => cases h
    | fin x2 y2 =>
      simp only [pointAdd] at h
      split at h
      · cases h
      · rename_i he
        cases h
        exact slope_error he

@[simp] theorem pointAdd_inf_left (B : CurvePoint) : pointAdd .inf B = .ok B := rfl
@[simp] theorem pointAdd_inf_right (A : CurvePoint) : pointAdd A .inf = .ok A := by cases A <;> rfl

theorem thirdPoint_canonical (lam x1 y1 x2 : Int) : (thirdPoint lam x1 y1 x2).Canonical := by
  obtain ⟨x, y, h, hx, hy⟩ := thirdPoint_eq lam x1 y1 x2
  rw [h]
  exact ⟨hx ▸ modP_lt _, hy ▸ modP_lt _⟩

/-- A sum of canonical points is canonical. -/
theorem pointAdd_canonical {A B C : CurvePoint} (hA : A.Canonical) (hB : B.Canonical) (h : pointAdd A B = .ok C) : C.Canonical := by
  cases A with
  | inf => cases h; exact hB
  | fin x1 y1 =>
    cases B with
    | inf => cases h; exact hA
    | fin x2 y2 =>
      simp only [pointAdd] at h
      split at h
      · cases h; exact thirdPoint_canonical ..
      · cases h

theorem accumulate_eq (R A : CurvePoint) : accumulate R A = pointAdd R A := by cases R <;> rfl

/-- One turn of `SMUL`'s loop. -/
theorem smulLoop_succ (n k : Nat) (R A : CurvePoint) : smulLoop (n + 1) k R A =
    if k = 0 then .ok R
    else (if k % 2 = 1 then pointAdd R A else .ok R) >>= fun R' => pointAdd A A >>= fun A' => smulLoop n (k / 2) R' A' := by
  rw [smulLoop]
  by_cases hk : k = 0
  · rw [if_pos hk, if_pos hk]
  · rw [if_neg hk, if_neg hk, accumulate_eq]
    generalize (if k % 2 = 1 then pointAdd R A else .ok R) = x
    cases x with
    | error e => rfl
    | ok R' => cases hA : pointAdd A A <;> simp [bind, Except.bind]

@[simp] theorem smulLoop_zero_scalar (n : Nat) (R A : CurvePoint) : smulLoop n 0 R A = .ok R := by cases n <;> rfl

/-- An invariant of the accumulator and the addend is an invariant of the loop's result. -/
theorem smulLoop_induction (Q : CurvePoint → Prop) (hadd : ∀ A B C, Q A → Q B → pointAdd A B = .ok C → Q C) :
    ∀ (n k : Nat) (R A C : CurvePoint), Q R → Q A → smulLoop n k R A = .ok C → Q C := by
  intro n
  induction n with
  | zero => intro k R A C hR _ h; cases h; exact hR
  | succ n ih =>
    intro k R A C hR hA h
    rw [smulLoop_succ] at h
    split at h
    · cases h; exact hR
    · cases hx : (if k % 2 = 1 then pointAdd R A else .ok R) with
      | error e => rw [hx] at h; cases h
      | ok R' =>
        rw [hx] at h
        cases hA' : pointAdd A A with
        | error e => rw [hA'] at h; cases h
        | ok A' =>
          rw [hA'] at h
          refine ih (k / 2) R' A' C ?_ (hadd A A A' hA hA hA') h
          split at hx
          · exact hadd R A R' hR hA hx
          · cases hx; exact hR

theorem smulLoop_error : ∀ (n k : Nat) (R A : CurvePoint) (e : ErrKind), smulLoop n k R A = .error e → e = .divisionByZero := by
  intro n
  induction n with
  | zero => intro k R A e h; cases h
  | succ n ih =>
    intro k R A e h
    rw [smulLoop_succ] at h
    split at h
    · cases h
    · cases hx : (if k % 2 = 1 then pointAdd R A else .ok R) with
      | error e' =>
        rw [hx] at h
        cases h
        split at hx
        · exact pointAdd_error hx
        · cases hx
      | ok R' =>
        rw [hx] at h
        cases hA' : pointAdd A A with
        | error e' => rw [hA'] at h; cases h; exact pointAdd_error hA'
        | ok A' => rw [hA'] at h; exact ih _ _ _ _ h

/-- Every multiple of a canonical point is canonical. -/
theorem scalarMul_canonical {k : Nat} {P C : CurvePoint} (hP : P.Canonical) (h : scalarMul k P = .ok C) : C.Canonical :=
  smulLoop_induction CurvePoint.Canonical (fun _ _ _ => pointAdd_canonical) _ _ .inf _ _ (by trivial) hP h

theorem scalarMul_error {k : Nat} {P : CurvePoint} {e : ErrKind} (h : scalarMul k P = .error e) : e = .divisionByZero :=
  smulLoop_error _ _ _ _ _ h

/-- More turns than the scalar has bits change nothing (spec/42_scalar.md R171; log 10). -/
theorem smulLoop_turns : ∀ (n m k : Nat) (R A : CurvePoint), k < 2 ^ n → k < 2 ^ m → smulLoop n k R A = smulLoop m k R A := by
  intro n
  induction n with
  | zero =>
    intro m k R A h _
    have : k = 0 := by simpa using h
    subst this
    simp
  | succ n ih =>
    intro m k R A h₁ h₂
    cases m with
    | zero =>
      have : k = 0 := by simpa using h₂
      subst this
      simp
    | succ m =>
      rw [smulLoop_succ, smulLoop_succ]
      have := fun R' A' => ih m (k / 2) R' A' (by omega) (by omega)
      simp only [this]

theorem gPoint_canonical : gPoint.Canonical := by
  change (BitVec.ofNat 256 Config.gx).toNat < _ ∧ (BitVec.ofNat 256 Config.gy).toNat < _
  rw [toNat_ofNat_of_lt (lt_trans gx_lt pField_lt), toNat_ofNat_of_lt (lt_trans gy_lt pField_lt)]
  exact ⟨gx_lt, gy_lt⟩

theorem pFieldWord_toNat : (BitVec.ofNat 256 Config.pField).toNat = Config.pField := toNat_ofNat_of_lt pField_lt

end Sys2Proof.Machine
end

