-- ==== Sys2Proof/Laws/Curve.lean ====
section
/-! SUPPORT. The point helpers are the group law of the curve `y² = x³ + 7` over the field of `P_FIELD` (spec/41_point.md R140, R143, R151): where the
helpers answer a point it is the sum in the group, and they fail on two finite points exactly when the sum is the identity. -/

namespace Sys2Proof.Machine.Curve

open WeierstrassCurve.Affine

/-- The curve over a field (spec/00_scope.md R8). -/
def curve (K : Type) [Field K] : WeierstrassCurve.Affine K := { a₁ := 0, a₂ := 0, a₃ := 0, a₄ := 0, a₆ := 7 }

section
variable {K : Type} [Field K]

@[simp] theorem curve_negY (x y : K) : (curve K).negY x y = -y := by simp [curve, negY]

/-- Which pairs lie on the curve. -/
theorem curve_equation (x y : K) : (curve K).Equation x y ↔ y ^ 2 = x ^ 3 + 7 := by
  rw [equation_iff]
  simp [curve]

/-- A point register's value stands for a point of the group. -/
def Rep : CurvePoint → (curve K).Point → Prop
  | .inf, P => P = 0
  | .fin x y, P => x.toNat < Config.pField ∧ y.toNat < Config.pField ∧ ∃ h, P = .some (x.toNat : K) (y.toNat : K) h

theorem rep_canonical {A : CurvePoint} {P : (curve K).Point} (h : Rep A P) : A.Canonical := by
  cases A with
  | inf => trivial
  | fin x y => exact ⟨h.1, h.2.1⟩

/-- The value is `Inf` exactly when the point is the identity. -/
theorem rep_zero {A : CurvePoint} {P : (curve K).Point} (h : Rep A P) : A = .inf ↔ P = 0 := by
  cases A with
  | inf => exact ⟨fun _ => h, fun _ => rfl⟩
  | fin x y =>
    obtain ⟨-, -, hn, rfl⟩ := h
    constructor
    · intro h; cases h
    · intro h; cases h

end

section
variable {K : Type} [Field K] [CharP K Config.pField]

/-- Numbers congruent modulo `P_FIELD` are equal in the field. -/
theorem cast_eq {a b : Int} : (a : K) = (b : K) ↔ a ≡ b [ZMOD Config.pField] := CharP.intCast_eq_intCast K Config.pField

/-- Numbers below `P_FIELD` are equal when they are equal in the field. -/
theorem cast_inj {a b : Nat} (ha : a < Config.pField) (hb : b < Config.pField) : (a : K) = (b : K) ↔ a = b := by
  constructor
  · intro h
    have h' : ((a : Int) : K) = ((b : Int) : K) := by exact_mod_cast h
    have := cast_eq.mp h'
    rw [Int.ModEq, Int.emod_eq_of_lt (by omega) (by omega), Int.emod_eq_of_lt (by omega) (by omega)] at this
    omega
  · rintro rfl; rfl

theorem cast_mod (a : Nat) : ((a % Config.pField : Nat) : K) = (a : K) :=
  (CharP.natCast_eq_natCast' K Config.pField (Nat.mod_modEq a _))

theorem cast_modP (z : Int) : ((modP z : Nat) : K) = (z : K) := by
  have : (((modP z : Nat) : Int) : K) = (z : K) := cast_eq.mpr (modP_modEq z)
  exact_mod_cast this

theorem cast_pField : ((Config.pField : Nat) : K) = 0 := CharP.cast_eq_zero K Config.pField

theorem two_ne_zero' : (2 : K) ≠ 0 := by
  have h : ((2 : Nat) : K) ≠ ((0 : Nat) : K) := (cast_inj (by decide) (by decide)).not.mpr (by decide)
  exact_mod_cast h

omit [CharP K Config.pField] in
/-- A point is its coordinates. -/
theorem some_congr {x x' y y' : K} {h : (curve K).Nonsingular x y} {h' : (curve K).Nonsingular x' y'} (hx : x = x') (hy : y = y') :
    Point.some x y h = Point.some x' y' h' := by
  subst hx hy
  rfl

/-- One value for one point. -/
theorem rep_unique {A B : CurvePoint} {P : (curve K).Point} (hA : Rep A P) (hB : Rep B P) : A = B := by
  cases A with
  | inf => exact ((rep_zero hB).mpr ((rep_zero hA).mp rfl)).symm
  | fin x y =>
    cases B with
    | inf => exact (rep_zero hA).mpr ((rep_zero hB).mp rfl)
    | fin x' y' =>
      obtain ⟨hx, hy, hn, rfl⟩ := hA
      obtain ⟨hx', hy', hn', e⟩ := hB
      injection e with e₁ e₂
      rw [cast_inj hx hx', BitVec.toNat_inj] at e₁
      rw [cast_inj hy hy', BitVec.toNat_inj] at e₂
      rw [e₁, e₂]

omit [CharP K Config.pField] in
/-- Two points of the curve with the same `x` have the same or opposite `y`. -/
theorem same_x {x y y' : K} (h : (curve K).Equation x y) (h' : (curve K).Equation x y') : y = y' ∨ y = -y' := by
  rw [curve_equation] at h h'
  exact sq_eq_sq_iff_eq_or_eq_neg.mp (h.trans h'.symm)

variable [DecidableEq K]

omit [CharP K Config.pField] in
/-- The sum of two points that are not opposite, from any number with the slope's defining equation (spec/41_point.md R141). -/
theorem add_of_slope {x1 y1 x2 y2 lam x3 y3 : K} {h₁ : (curve K).Nonsingular x1 y1} {h₂ : (curve K).Nonsingular x2 y2}
    (hne : ¬ (x1 = x2 ∧ y1 = -y2)) (htan : x1 = x2 → lam * (2 * y1) = 3 * x1 * x1) (hchord : x1 ≠ x2 → lam * (x2 - x1) = y2 - y1)
    (hx3 : x3 = lam * lam - x1 - x2) (hy3 : y3 = lam * (x1 - x3) - y1) :
    ∃ h, Point.some _ _ h₁ + Point.some _ _ h₂ = Point.some x3 y3 h := by
  have hne' : ¬ (x1 = x2 ∧ y1 = (curve K).negY x2 y2) := by rwa [curve_negY]
  have hl : lam = (curve K).slope x1 x2 y1 y2 := by
    by_cases hx : x1 = x2
    · have hy : y1 ≠ (curve K).negY x2 y2 := fun h => hne' ⟨hx, h⟩
      rw [slope_of_Y_ne hx hy, curve_negY]
      have hyy : y1 = y2 := (same_x h₁.1 (hx ▸ h₂.1)).resolve_right fun h => hne ⟨hx, h⟩
      have hd : y1 - -y1 ≠ 0 := by
        rw [curve_negY, ← hyy] at hy
        exact sub_ne_zero.mpr hy
      rw [eq_div_iff hd]
      simp only [curve]
      linear_combination htan hx
    · rw [slope_of_X_ne hx, eq_div_iff (sub_ne_zero.mpr hx)]
      linear_combination -hchord hx
  have ex : x3 = (curve K).addX x1 x2 ((curve K).slope x1 x2 y1 y2) := by
    rw [hx3, ← hl]
    simp [addX, curve]
    ring
  have ey : y3 = (curve K).addY x1 x2 y1 ((curve K).slope x1 x2 y1 y2) := by
    rw [addY, negAddY, curve_negY, ← ex, hy3, ← hl]
    ring
  rw [Point.add_some hne']
  subst ex ey
  exact ⟨_, rfl⟩

/-- The group law, said once: the sum, and never `Inf` from two finite points; or `DivisionByZero`, when both are finite and the sum is the identity. -/
theorem rep_add {A B : CurvePoint} {P Q : (curve K).Point} (hA : Rep A P) (hB : Rep B Q) :
    (∃ C, pointAdd A B = .ok C ∧ Rep C (P + Q) ∧ (A = .inf ∨ B = .inf ∨ P + Q ≠ 0)) ∨
    (A ≠ .inf ∧ B ≠ .inf ∧ P + Q = 0 ∧ pointAdd A B = .error .divisionByZero) := by
  cases A with
  | inf =>
    rw [show P = 0 from hA, zero_add]
    exact .inl ⟨B, rfl, hB, .inl rfl⟩
  | fin x1 y1 =>
    cases B with
    | inf =>
      rw [show Q = 0 from hB, add_zero]
      exact .inl ⟨_, rfl, hA, .inr (.inl rfl)⟩
    | fin x2 y2 =>
      obtain ⟨hx1, hy1, h₁, rfl⟩ := hA
      obtain ⟨hx2, hy2, h₂, rfl⟩ := hB
      simp only [pointAdd]
      rcases slope_cases (y2 := y2.toNat) hx1 hy1 hx2 with ⟨hx, hy, e⟩ | ⟨hne, lam, e, hlt, htan, hchord⟩
      · rw [e]
        refine .inr ⟨by simp, by simp, Point.add_of_Y_eq (by rw [hx]) ?_, rfl⟩
        rw [curve_negY]
        rcases same_x h₁.1 (by rw [hx]; exact h₂.1) with h | h
        · rcases hy with hy | hy
          · exact absurd ((cast_inj hy1 hy2).mp h) hy
          · rw [← h, hy]; simp
        · exact h
      · rw [e]
        have hnotneg : ¬ ((x1.toNat : K) = x2.toNat ∧ (y1.toNat : K) = -(y2.toNat : K)) := by
          rintro ⟨hx, hy⟩
          refine hne ⟨(cast_inj hx1 hx2).mp hx, ?_⟩
          by_cases hyy : y1.toNat = y2.toNat
          · right
            rw [← hyy, eq_neg_iff_add_eq_zero, ← two_mul] at hy
            have h0 : ((y1.toNat : Nat) : K) = ((0 : Nat) : K) := by simpa using (mul_eq_zero.mp hy).resolve_left two_ne_zero'
            exact (cast_inj hy1 (by decide)).mp h0
          · exact .inl hyy
        obtain ⟨x3, y3, e3, hx3, hy3⟩ := thirdPoint_eq lam x1.toNat y1.toNat x2.toNat
        obtain ⟨h3, hs⟩ := add_of_slope (lam := (lam : K)) (x3 := (x3.toNat : K)) (y3 := (y3.toNat : K)) (h₁ := h₁) (h₂ := h₂) hnotneg
          (fun hx => by
            have hx' := (cast_inj hx1 hx2).mp hx
            have hy : (y1.toNat : K) = y2.toNat := (same_x h₁.1 (hx ▸ h₂.1)).resolve_right fun h => hnotneg ⟨hx, h⟩
            have := cast_eq (K := K).mpr (htan ⟨hx', (cast_inj hy1 hy2).mp hy⟩)
            push_cast at this
            linear_combination this)
          (fun hx => by
            have := cast_eq (K := K).mpr (hchord fun h => hx (by rw [h.1]))
            push_cast at this
            linear_combination this)
          (by rw [hx3, cast_modP]; push_cast; ring)
          (by rw [hy3, cast_modP, ← hx3]; push_cast; ring)
        refine .inl ⟨_, rfl, ?_, .inr (.inr ?_)⟩
        · rw [e3, hs]
          exact ⟨hx3 ▸ modP_lt _, hy3 ▸ modP_lt _, h3, rfl⟩
        · rw [hs]
          intro h
          cases h

/-! ## The order of the base point -/

/-- A number that is an inverse of `a` modulo `P_FIELD` when there is one; its user checks what it gives. -/
def invHint : Nat → Nat → Nat → Nat → Nat → Nat
  | 0, _, _, t0, _ => t0
  | n + 1, r0, r1, t0, t1 => if r1 = 0 then t0 else invHint n r1 (r0 % r1) t1 ((t0 + r0 / r1 * (Config.pField - t1)) % Config.pField)

/-- Numerator and denominator of the slope. -/
def slopeParts (a b : Nat × Nat) : Nat × Nat :=
  if a = b then (3 * a.1 * a.1 % Config.pField, 2 * a.2 % Config.pField)
  else ((b.2 + (Config.pField - a.2)) % Config.pField, (b.1 + (Config.pField - a.1)) % Config.pField)

/-- Addition of finite points that checks its own quotient, quick to evaluate in the kernel. -/
def fastAdd (a b : Nat × Nat) : Option (Nat × Nat) :=
  let s := slopeParts a b
  let lam := s.1 * invHint 512 Config.pField s.2 0 1 % Config.pField
  if s.2 = 0 then none
  else if lam * s.2 % Config.pField = s.1 then
    let x := (lam * lam + (Config.pField - a.1) + (Config.pField - b.1)) % Config.pField
    some (x, (lam * (a.1 + (Config.pField - x)) + (Config.pField - a.2)) % Config.pField)
  else none

/-- Double-and-add on finite points. -/
def fastLoop : Nat → Nat → Nat × Nat → Nat × Nat → Option (Nat × Nat)
  | 0, _, R, _ => some R
  | n + 1, k, R, A =>
    (if k % 2 = 1 then fastAdd R A else some R).bind fun R' =>
      if k / 2 = 0 then some R' else (fastAdd A A).bind fun A' => fastLoop n (k / 2) R' A'

/-- A pair of numbers stands for a finite point of the group. -/
def FastRep (a : Nat × Nat) (P : (curve K).Point) : Prop :=
  a.1 < Config.pField ∧ a.2 < Config.pField ∧ ∃ h, P = .some (a.1 : K) (a.2 : K) h

omit [DecidableEq K] in
theorem cast_negP {a : Nat} (h : a < Config.pField) : ((Config.pField - a : Nat) : K) = -(a : K) := by
  rw [Nat.cast_sub h.le, cast_pField, zero_sub]

theorem fastAdd_rep {a b c : Nat × Nat} {P Q : (curve K).Point} (ha : FastRep a P) (hb : FastRep b Q) (h : fastAdd a b = some c) :
    FastRep c (P + Q) := by
  obtain ⟨x1, y1⟩ := a
  obtain ⟨x2, y2⟩ := b
  obtain ⟨hx1, hy1, h₁, rfl⟩ := ha
  obtain ⟨hx2, hy2, h₂, rfl⟩ := hb
  simp only at hx1 hy1 hx2 hy2 h₁ h₂
  simp only [fastAdd] at h
  generalize (slopeParts (x1, y1) (x2, y2)).1 * invHint 512 Config.pField (slopeParts (x1, y1) (x2, y2)).2 0 1 % Config.pField = lam at h
  split at h
  · cases h
  rename_i hden
  split at h
  swap
  · cases h
  rename_i hlam
  cases h
  have hden' : ((slopeParts (x1, y1) (x2, y2)).2 : K) ≠ 0 := by
    have hlt : (slopeParts (x1, y1) (x2, y2)).2 < Config.pField := by
      unfold slopeParts
      split <;> exact Nat.mod_lt _ pField_pos
    have := (cast_inj (K := K) hlt pField_pos).not.mpr hden
    simpa using this
  have hlam' : (lam : K) * ((slopeParts (x1, y1) (x2, y2)).2 : K) = ((slopeParts (x1, y1) (x2, y2)).1 : K) := by
    rw [← hlam, cast_mod]
    push_cast
    ring
  have hxs := (cast_inj (K := K) hx1 hx2)
  have hys := (cast_inj (K := K) hy1 hy2)
  have hparts : ((x1 : K) = x2 → (y1 : K) ≠ -y2 ∧ (lam : K) * (2 * y1) = 3 * x1 * x1) ∧ ((x1 : K) ≠ x2 → (lam : K) * ((x2 : K) - x1) = (y2 : K) - y1) := by
    unfold slopeParts at hlam' hden'
    by_cases heq : (x1, y1) = (x2, y2)
    · rw [if_pos heq] at hlam' hden'
      simp only [cast_mod] at hlam' hden'
      push_cast at hlam' hden'
      obtain ⟨rfl, rfl⟩ := Prod.mk.inj heq
      refine ⟨fun _ => ⟨fun hn => hden' ?_, hlam'⟩, fun h => absurd rfl h⟩
      linear_combination hn
    · rw [if_neg heq] at hlam' hden'
      simp only [cast_mod] at hlam' hden'
      push_cast at hlam' hden'
      rw [cast_negP hx1] at hlam' hden'
      rw [cast_negP hy1] at hlam'
      refine ⟨fun hx => absurd (by rw [hx]; ring) hden', fun _ => ?_⟩
      linear_combination hlam'
  refine ⟨Nat.mod_lt _ pField_pos, Nat.mod_lt _ pField_pos, ?_⟩
  have ex : (((lam * lam + (Config.pField - x1) + (Config.pField - x2)) % Config.pField : Nat) : K) = (lam : K) * lam - x1 - x2 := by
    rw [cast_mod]
    push_cast
    rw [cast_negP hx1, cast_negP hx2]
    ring
  refine add_of_slope (lam := (lam : K)) (fun hh => (hparts.1 hh.1).1 hh.2) (fun hx => (hparts.1 hx).2) hparts.2 ex ?_
  rw [cast_mod]
  push_cast
  rw [cast_negP hy1, cast_negP (Nat.mod_lt _ pField_pos)]
  ring

theorem fastLoop_rep : ∀ (n k : Nat) (R A c : Nat × Nat) (P Q : (curve K).Point), k < 2 ^ n → FastRep R P → FastRep A Q →
    fastLoop n k R A = some c → FastRep c (P + k • Q) := by
  intro n
  induction n with
  | zero =>
    intro k R A c P Q hk hR _ h
    cases h
    have : k = 0 := by simpa using hk
    simpa [this] using hR
  | succ n ih =>
    intro k R A c P Q hk hR hA h
    rw [fastLoop, Option.bind_eq_some_iff] at h
    obtain ⟨R', hR', h⟩ := h
    have hR'' : FastRep R' (P + (k % 2) • Q) := by
      split at hR'
      · rename_i h1
        rw [h1, one_smul]
        exact fastAdd_rep hR hA hR'
      · rename_i h1
        cases hR'
        rw [show k % 2 = 0 by omega, zero_smul, add_zero]
        exact hR
    split at h
    · rename_i h0
      cases h
      rwa [show k = k % 2 by omega]
    · rw [Option.bind_eq_some_iff] at h
      obtain ⟨A', hA', h⟩ := h
      have := ih (k / 2) R' A' c _ _ (by omega) hR'' (fastAdd_rep hA hA hA') h
      rwa [add_assoc, ← two_nsmul, ← mul_nsmul, ← add_smul, Nat.mod_add_div] at this

/-- `(N_ORDER − 1) · G = −G`, by evaluation. -/
theorem fastLoop_order : fastLoop 256 (Config.nOrder - 2) (Config.gx, Config.gy) (Config.gx, Config.gy) = some (Config.gx, Config.pField - Config.gy) := by
  decide +kernel

omit [DecidableEq K] in
/-- The base point lies on the curve. -/
theorem gPoint_nonsingular : (curve K).Nonsingular (Config.gx : K) (Config.gy : K) := by
  rw [nonsingular_iff]
  constructor
  · rw [curve_equation]
    have : (((Config.gy : Int) ^ 2 : Int) : K) = (((Config.gx : Int) ^ 3 + 7 : Int) : K) := cast_eq.mpr (by decide)
    push_cast at this
    exact this
  · right
    have h : ((2 * Config.gy : Int) : K) ≠ ((0 : Int) : K) := cast_eq.not.mpr (by decide)
    intro h'
    apply h
    push_cast
    simp only [curve] at h'
    linear_combination h'

/-- The base point as a point of the group. -/
noncomputable def G (K : Type) [Field K] [CharP K Config.pField] : (curve K).Point := Point.some _ _ (gPoint_nonsingular (K := K))

omit [DecidableEq K] in
theorem gPoint_rep : Rep gPoint (G K) := by
  have ex : (BitVec.ofNat 256 Config.gx).toNat = Config.gx := toNat_ofNat_of_lt (lt_trans gx_lt pField_lt)
  have ey : (BitVec.ofNat 256 Config.gy).toNat = Config.gy := toNat_ofNat_of_lt (lt_trans gy_lt pField_lt)
  change _ < _ ∧ _ < _ ∧ _
  rw [ex, ey]
  exact ⟨gx_lt, gy_lt, gPoint_nonsingular, rfl⟩

/-- The order of the base point is `N_ORDER` (spec/00_scope.md R9, R10). -/
theorem addOrderOf_G : addOrderOf (G K) = Config.nOrder := by
  have hG : FastRep (Config.gx, Config.gy) (G K) := ⟨gx_lt, gy_lt, gPoint_nonsingular, rfl⟩
  obtain ⟨-, -, hn, h⟩ := fastLoop_rep 256 (Config.nOrder - 2) _ _ _ (G K) (G K) (by decide) hG hG fastLoop_order
  have hneg : G K + (Config.nOrder - 2) • G K = -G K := by
    rw [h]
    unfold G
    rw [Point.neg_some]
    exact some_congr rfl (by rw [cast_negP gy_lt, curve_negY])
  have hzero : ∀ n, 2 ≤ n → G K + (n - 2) • G K = -G K → n • G K = 0 := by
    rintro n hn h
    obtain ⟨j, rfl⟩ : ∃ j, n = j + 2 := ⟨n - 2, by omega⟩
    rw [Nat.add_sub_cancel] at h
    rw [add_smul, two_nsmul, ← add_assoc, add_comm (j • G K), h, neg_add_cancel]
  refine addOrderOf_eq_prime (hp := ⟨Primes.nOrder_prime⟩) (hzero _ (by decide) hneg) ?_
  intro h
  cases h

/-! ## `SMUL` on a point of that order -/

omit [CharP K Config.pField] in
/-- `m · Q = 0` exactly for the multiples of the order. -/
theorem smul_eq_zero {Q : (curve K).Point} (hQ : addOrderOf Q = Config.nOrder) (m : Nat) : m • Q = 0 ↔ Config.nOrder ∣ m := by
  rw [← hQ]
  exact addOrderOf_dvd_iff_nsmul_eq_zero.symm

/-- No power of two is a multiple of the order. -/
theorem order_not_dvd_pow (i : Nat) : ¬ Config.nOrder ∣ 2 ^ i := by
  intro h
  have := Nat.le_of_dvd (by norm_num) ((Nat.Prime.dvd_of_dvd_pow Primes.nOrder_prime) h)
  exact absurd this (by decide)

/-- The loop of `SMUL` with the accumulator `m · Q` and the addend `2^i · Q`: it ends at the multiple, and fails exactly when that multiple is the order
itself (spec/42_scalar.md R173). -/
theorem smulLoop_rep {Q : (curve K).Point} (hQ : addOrderOf Q = Config.nOrder) : ∀ (n i k m : Nat) (R A : CurvePoint), i + n = 256 → k < 2 ^ n →
    m < 2 ^ i → m ≠ Config.nOrder → Rep R (m • Q) → Rep A (2 ^ i • Q) →
    (m + 2 ^ i * k ≠ Config.nOrder ∧ ∃ C, smulLoop n k R A = .ok C ∧ Rep C ((m + 2 ^ i * k) • Q)) ∨
    (m + 2 ^ i * k = Config.nOrder ∧ smulLoop n k R A = .error .divisionByZero) := by
  intro n
  induction n with
  | zero =>
    intro i k m R A _ hk hm hmN hR _
    obtain rfl : k = 0 := by simpa using hk
    exact .inl ⟨by simpa using hmN, R, rfl, by simpa using hR⟩
  | succ n ih =>
    intro i k m R A hin hk hm hmN hR hA
    rw [smulLoop_succ]
    by_cases h0 : k = 0
    · subst h0
      exact .inl ⟨by simpa using hmN, R, rfl, by simpa using hR⟩
    rw [if_neg h0]
    have hpow : 2 ^ (i + 1) = 2 * 2 ^ i := Nat.pow_succ'
    have hi : 2 ^ (i + 1) ≤ 2 ^ 256 := Nat.pow_le_pow_right (by norm_num) (by omega)
    have htotal : m + k % 2 * 2 ^ i + 2 ^ (i + 1) * (k / 2) = m + 2 ^ i * k := by
      have h2 : 2 ^ i * k = 2 ^ i * (k % 2 + 2 * (k / 2)) := by rw [Nat.mod_add_div]
      rw [h2, hpow]
      ring
    have hN : Config.nOrder < 2 ^ 256 := nOrder_lt
    have hN2 : 2 ^ 256 < 2 * Config.nOrder := by decide
    have hN3 : 2 ^ 255 < Config.nOrder := by decide
    have hAinf : A ≠ .inf := fun h => order_not_dvd_pow i ((smul_eq_zero hQ _).mp ((rep_zero hA).mp h))
    obtain ⟨A', hA', hAr⟩ : ∃ A', pointAdd A A = .ok A' ∧ Rep A' (2 ^ (i + 1) • Q) := by
      rcases rep_add hA hA with ⟨A', e, hr, -⟩ | ⟨-, -, hz, -⟩
      · exact ⟨A', e, by rwa [← add_smul, ← two_mul, ← hpow] at hr⟩
      · rw [← add_smul, ← two_mul, ← hpow, smul_eq_zero hQ] at hz
        exact absurd hz (order_not_dvd_pow _)
    have step : ∀ m' R', m' = m + k % 2 * 2 ^ i → m' ≠ Config.nOrder → Rep R' (m' • Q) →
        (m + 2 ^ i * k ≠ Config.nOrder ∧ ∃ C, (Except.ok R' >>= fun R' => pointAdd A A >>= fun A' => smulLoop n (k / 2) R' A') = .ok C ∧
          Rep C ((m + 2 ^ i * k) • Q)) ∨
        (m + 2 ^ i * k = Config.nOrder ∧ (Except.ok R' >>= fun R' => pointAdd A A >>= fun A' => smulLoop n (k / 2) R' A') = .error .divisionByZero) := by
      intro m' R' hm' hne hr
      have hlt : m' < 2 ^ (i + 1) := by
        rw [hm', hpow]
        have : k % 2 * 2 ^ i ≤ 1 * 2 ^ i := Nat.mul_le_mul_right _ (by omega)
        omega
      have := ih (i + 1) (k / 2) m' R' A' (by omega) (by omega) hlt hne hr hAr
      rw [hm', htotal] at this
      simpa only [hA', bind, Except.bind] using this
    by_cases hb : k % 2 = 1
    · rw [if_pos hb]
      rcases rep_add hR hA with ⟨R', e, hr, hnz⟩ | ⟨hRinf, -, hz, e⟩
      · rw [e]
        refine step (m + 2 ^ i) R' (by rw [hb, one_mul]) ?_ (by rwa [← add_smul] at hr)
        intro hmN'
        have hz : m • Q + 2 ^ i • Q = 0 := by rw [← add_smul, hmN', smul_eq_zero hQ]
        rcases hnz with h | h | h
        · have hm0 := (smul_eq_zero hQ m).mp ((rep_zero hR).mp h)
          have : m = 0 := by
            by_contra hne
            have := Nat.le_of_dvd (Nat.pos_of_ne_zero hne) hm0
            obtain ⟨c, hc⟩ := hm0
            have : c = 1 := by
              have : 1 ≤ c := Nat.pos_of_ne_zero (by rintro rfl; simp at hc; exact hne hc)
              have : c < 2 := by
                by_contra hc2
                have : Config.nOrder * 2 ≤ Config.nOrder * c := Nat.mul_le_mul_left _ (by omega)
                omega
              omega
            rw [this, mul_one] at hc
            exact hmN hc
          rw [this, zero_add] at hmN'
          exact order_not_dvd_pow i (by rw [hmN'])
        · exact hAinf h
        · exact h hz
      · rw [e]
        right
        refine ⟨?_, rfl⟩
        rw [← add_smul, smul_eq_zero hQ] at hz
        obtain ⟨c, hc⟩ := hz
        have hc1 : c = 1 := by
          have h1 : c ≠ 0 := by
            rintro rfl
            have : 0 < 2 ^ i := by positivity
            omega
          have h2 : c < 2 := by
            by_contra hc2
            have : Config.nOrder * 2 ≤ Config.nOrder * c := Nat.mul_le_mul_left _ (by omega)
            omega
          omega
        rw [hc1, mul_one] at hc
        have hi255 : ¬ i + 1 ≤ 255 := by
          intro h
          have : 2 ^ (i + 1) ≤ 2 ^ 255 := Nat.pow_le_pow_right (by norm_num) h
          omega
        have hn0 : n = 0 := by omega
        subst hn0
        have hk1 : k = 1 := by omega
        rw [hk1, mul_one]
        exact hc
    · rw [if_neg hb]
      have hb0 : k % 2 = 0 := by omega
      exact step m R (by rw [hb0]; simp) hmN hR

/-- `SMUL` on a point whose order is `N_ORDER`: the multiple, or `DivisionByZero` for the scalar `N_ORDER` itself (spec/42_scalar.md R173). -/
theorem scalarMul_rep {A : CurvePoint} {Q : (curve K).Point} (hA : Rep A Q) (hQ : addOrderOf Q = Config.nOrder) {k : Nat} (hk : k < 2 ^ 256) :
    (k ≠ Config.nOrder ∧ ∃ C, scalarMul k A = .ok C ∧ Rep C (k • Q)) ∨ (k = Config.nOrder ∧ scalarMul k A = .error .divisionByZero) := by
  have := smulLoop_rep hQ 256 0 k 0 .inf A (by norm_num) hk (by norm_num) (by decide) (by simp [Rep]) (by simpa using hA)
  unfold scalarMul smulTurns
  simpa only [pow_zero, one_mul, zero_add] using this

end

end Sys2Proof.Machine.Curve
end

