-- ==== Sys2Proof/Laws/Decode.lean ====
section
/-! SUPPORT. The fields of a packed word, when a row of the opcode map accepts a word, and what the decoder can answer. -/

namespace Sys2Proof

/-! ## Fields -/

/-- Two words with the same six fields are equal. -/
theorem word_ext {w w' : Word} (h1 : opField w = opField w') (h2 : rdField w = rdField w') (h3 : rs1Field w = rs1Field w')
    (h4 : rs2Field w = rs2Field w') (h5 : zField w = zField w') (h6 : mField w = mField w') : w = w' := by
  apply BitVec.eq_of_toNat_eq
  have e1 := congrArg BitVec.toNat h1
  have e2 := congrArg BitVec.toNat h2
  have e3 := congrArg BitVec.toNat h3
  have e4 := congrArg BitVec.toNat h4
  have e5 := congrArg BitVec.toNat h5
  simp only [opField, rdField, rs1Field, rs2Field, zField, BitVec.extractLsb'_toNat, Nat.shiftRight_eq_div_pow] at e1 e2 e3 e4 e5
  have e6 : w.toNat % 2 = w'.toNat % 2 := by
    have h := h6
    simp only [mField, BitVec.getLsbD, Nat.testBit_zero] at h
    have := Nat.mod_two_eq_zero_or_one w.toNat
    have := Nat.mod_two_eq_zero_or_one w'.toNat
    rcases Nat.mod_two_eq_zero_or_one w.toNat with a | a <;> rcases Nat.mod_two_eq_zero_or_one w'.toNat with b | b <;> simp_all
  have := w.isLt
  have := w'.isLt
  omega

/-- The word packed from six fields, `z` included. -/
def packFields (op : BitVec 8) (rd rs1 rs2 : RegIdx) (z : BitVec 11) (m : Bool) : Word :=
  op ++ rd ++ rs1 ++ rs2 ++ z ++ BitVec.ofBool m

theorem packWord_eq (op : BitVec 8) (rd rs1 rs2 : RegIdx) (m : Bool) : packWord op rd rs1 rs2 m = packFields op rd rs1 rs2 0 m := rfl

/-- The number of a packed word (spec/30_encoding.md R88). -/
theorem packFields_toNat (op : BitVec 8) (rd rs1 rs2 : RegIdx) (z : BitVec 11) (m : Bool) :
    (packFields op rd rs1 rs2 z m).toNat =
      op.toNat * 2 ^ 24 + rd.toNat * 2 ^ 20 + rs1.toNat * 2 ^ 16 + rs2.toNat * 2 ^ 12 + z.toNat * 2 + m.toNat := by
  have := rd.isLt
  have := rs1.isLt
  have := rs2.isLt
  have := z.isLt
  have hm : m.toNat < 2 := Bool.toNat_lt m
  simp only [packFields, BitVec.toNat_append, BitVec.toNat_ofBool]
  rw [← Nat.shiftLeft_add_eq_or_of_lt (by omega), ← Nat.shiftLeft_add_eq_or_of_lt (by omega), ← Nat.shiftLeft_add_eq_or_of_lt (by omega),
    ← Nat.shiftLeft_add_eq_or_of_lt (by omega), ← Nat.shiftLeft_add_eq_or_of_lt (by omega)]
  simp only [Nat.shiftLeft_eq]
  omega

theorem packWord_toNat (op : BitVec 8) (rd rs1 rs2 : RegIdx) (m : Bool) :
    (packWord op rd rs1 rs2 m).toNat = op.toNat * 2 ^ 24 + rd.toNat * 2 ^ 20 + rs1.toNat * 2 ^ 16 + rs2.toNat * 2 ^ 12 + m.toNat := by
  rw [packWord_eq, packFields_toNat]
  simp

section
variable (op : BitVec 8) (rd rs1 rs2 : RegIdx) (z : BitVec 11) (m : Bool)

@[simp] theorem opField_packFields : opField (packFields op rd rs1 rs2 z m) = op := by
  apply BitVec.eq_of_toNat_eq
  simp only [opField, BitVec.extractLsb'_toNat, Nat.shiftRight_eq_div_pow, packFields_toNat]
  have := op.isLt; have := rd.isLt; have := rs1.isLt; have := rs2.isLt; have := z.isLt; have := Bool.toNat_lt m
  omega
@[simp] theorem rdField_packFields : rdField (packFields op rd rs1 rs2 z m) = rd := by
  apply BitVec.eq_of_toNat_eq
  simp only [rdField, BitVec.extractLsb'_toNat, Nat.shiftRight_eq_div_pow, packFields_toNat]
  have := op.isLt; have := rd.isLt; have := rs1.isLt; have := rs2.isLt; have := z.isLt; have := Bool.toNat_lt m
  omega
@[simp] theorem rs1Field_packFields : rs1Field (packFields op rd rs1 rs2 z m) = rs1 := by
  apply BitVec.eq_of_toNat_eq
  simp only [rs1Field, BitVec.extractLsb'_toNat, Nat.shiftRight_eq_div_pow, packFields_toNat]
  have := op.isLt; have := rd.isLt; have := rs1.isLt; have := rs2.isLt; have := z.isLt; have := Bool.toNat_lt m
  omega
@[simp] theorem rs2Field_packFields : rs2Field (packFields op rd rs1 rs2 z m) = rs2 := by
  apply BitVec.eq_of_toNat_eq
  simp only [rs2Field, BitVec.extractLsb'_toNat, Nat.shiftRight_eq_div_pow, packFields_toNat]
  have := op.isLt; have := rd.isLt; have := rs1.isLt; have := rs2.isLt; have := z.isLt; have := Bool.toNat_lt m
  omega
@[simp] theorem zField_packFields : zField (packFields op rd rs1 rs2 z m) = z := by
  apply BitVec.eq_of_toNat_eq
  simp only [zField, BitVec.extractLsb'_toNat, Nat.shiftRight_eq_div_pow, packFields_toNat]
  have := op.isLt; have := rd.isLt; have := rs1.isLt; have := rs2.isLt; have := z.isLt; have := Bool.toNat_lt m
  omega
@[simp] theorem mField_packFields : mField (packFields op rd rs1 rs2 z m) = m := by
  simp only [mField, BitVec.getLsbD, Nat.testBit_zero, packFields_toNat]
  cases m <;> simp <;> omega
end

section
variable (op : BitVec 8) (rd rs1 rs2 : RegIdx) (m : Bool)
@[simp] theorem opField_packWord : opField (packWord op rd rs1 rs2 m) = op := opField_packFields ..
@[simp] theorem rdField_packWord : rdField (packWord op rd rs1 rs2 m) = rd := rdField_packFields ..
@[simp] theorem rs1Field_packWord : rs1Field (packWord op rd rs1 rs2 m) = rs1 := rs1Field_packFields ..
@[simp] theorem rs2Field_packWord : rs2Field (packWord op rd rs1 rs2 m) = rs2 := rs2Field_packFields ..
@[simp] theorem zField_packWord : zField (packWord op rd rs1 rs2 m) = 0 := zField_packFields ..
@[simp] theorem mField_packWord : mField (packWord op rd rs1 rs2 m) = m := mField_packFields ..
end

/-! ## Index ranges -/

@[simp] theorem isField_iff (i : RegIdx) : RegIdx.isField i = true ↔ i.toNat < 8 := decide_eq_true_iff
@[simp] theorem isPoint_iff (i : RegIdx) : RegIdx.isPoint i = true ↔ i.toNat < 4 := decide_eq_true_iff

/-! ## Rows -/

/-- The bits of an index field that a slot's mask covers (spec/30_encoding.md R84). -/
def Slot.mask : Slot → RegIdx
  | .zero => 0xF
  | .field => 0x8
  | .point => 0xC

/-- The mask bits are zero exactly when the slot allows the index. -/
theorem Slot.mask_and (s : Slot) (i : RegIdx) : i &&& s.mask = 0 ↔ s.allows i = true := by
  revert i
  cases s <;> decide

/-- Every row's match and mask are those of its opcode and format (spec/30_encoding.md R84). -/
theorem row_shape : ∀ r ∈ opcodeMap, r.pattern = packFields r.op 0 0 0 0 false ∧
    r.mask = packFields 0xFF r.format.rd.mask r.format.rs1.mask r.format.rs2.mask 0x7FF (!r.format.m) := by
  decide

/-- The condition a format puts on the fields of a word (spec/30_encoding.md R83). -/
def Format.Fits (f : Format) (w : Word) : Prop :=
  zField w = 0 ∧ f.rd.allows (rdField w) = true ∧ f.rs1.allows (rs1Field w) = true ∧ f.rs2.allows (rs2Field w) = true ∧
    (f.m = true ∨ mField w = false)

/-- A row accepts a word exactly when the opcode is the row's and the fields fit its format. -/
theorem accepts_iff {r : OpRow} (hr : r ∈ opcodeMap) (w : Word) : r.accepts w = true ↔ opField w = r.op ∧ r.format.Fits w := by
  obtain ⟨hp, hm⟩ := row_shape r hr
  have hand : ∀ v : Word, opField (w &&& v) = opField w &&& opField v ∧ rdField (w &&& v) = rdField w &&& rdField v ∧
      rs1Field (w &&& v) = rs1Field w &&& rs1Field v ∧ rs2Field (w &&& v) = rs2Field w &&& rs2Field v ∧
      zField (w &&& v) = zField w &&& zField v ∧ mField (w &&& v) = (mField w && mField v) := by
    intro v
    simp only [opField, rdField, rs1Field, rs2Field, zField, mField, BitVec.extractLsb'_and, BitVec.getLsbD_and, and_self]
  obtain ⟨a1, a2, a3, a4, a5, a6⟩ := hand r.mask
  have h8 : ∀ x : BitVec 8, x &&& 0xFF = x := fun x => by
    rw [show (0xFF : BitVec 8) = BitVec.allOnes 8 from rfl, BitVec.and_allOnes]
  have h11 : ∀ x : BitVec 11, x &&& 0x7FF = x := fun x => by
    rw [show (0x7FF : BitVec 11) = BitVec.allOnes 11 from rfl, BitVec.and_allOnes]
  rw [OpRow.accepts, beq_iff_eq]
  constructor
  · intro h
    have b1 := congrArg opField h
    have b2 := congrArg rdField h
    have b3 := congrArg rs1Field h
    have b4 := congrArg rs2Field h
    have b5 := congrArg zField h
    have b6 := congrArg mField h
    rw [a1, hm, hp, opField_packFields, opField_packFields, h8] at b1
    rw [a2, hm, hp, rdField_packFields, rdField_packFields, Slot.mask_and] at b2
    rw [a3, hm, hp, rs1Field_packFields, rs1Field_packFields, Slot.mask_and] at b3
    rw [a4, hm, hp, rs2Field_packFields, rs2Field_packFields, Slot.mask_and] at b4
    rw [a5, hm, hp, zField_packFields, zField_packFields, h11] at b5
    rw [a6, hm, hp, mField_packFields, mField_packFields] at b6
    refine ⟨b1, b5, b2, b3, b4, ?_⟩
    cases hf : r.format.m
    · simpa [hf] using b6
    · exact .inl rfl
  · rintro ⟨b1, b5, b2, b3, b4, b6⟩
    apply word_ext
    · rw [a1, hm, hp, opField_packFields, opField_packFields, h8, b1]
    · rw [a2, hm, hp, rdField_packFields, rdField_packFields, Slot.mask_and, b2]
    · rw [a3, hm, hp, rs1Field_packFields, rs1Field_packFields, Slot.mask_and, b3]
    · rw [a4, hm, hp, rs2Field_packFields, rs2Field_packFields, Slot.mask_and, b4]
    · rw [a5, hm, hp, zField_packFields, zField_packFields, h11, b5]
    · rw [a6, hm, hp, mField_packFields, mField_packFields]
      rcases b6 with h | h <;> simp [h]

/-- Rows with the same opcode are the same row, so far as decoding goes. -/
theorem row_unique : ∀ r ∈ opcodeMap, opcodeMap.find? (fun r' => r'.op == r.op) = some r := by
  simp only [opcodeMap, List.cons_append, List.nil_append, List.forall_mem_cons, List.not_mem_nil, false_implies, implies_true, and_true]
  refine ⟨?_, ?_, ?_, ?_, ?_, ?_, ?_, ?_, ?_, ?_, ?_, ?_, ?_, ?_, ?_, ?_, ?_, ?_, ?_, ?_⟩ <;> rfl

/-- Two rows of the map with one opcode are equal. -/
theorem row_eq_of_op {r r' : OpRow} (hr : r ∈ opcodeMap) (hr' : r' ∈ opcodeMap) (h : r.op = r'.op) : r = r' := by
  have h₁ := row_unique r hr
  have h₂ := row_unique r' hr'
  rw [h] at h₁
  exact Option.some.inj (h₁.symm.trans h₂)

/-- The decoder answers with the row that accepts the word. -/
theorem decode_of_accepts {r : OpRow} (hr : r ∈ opcodeMap) {w : Word} (h : r.accepts w = true) : decode w = .ok (r.build w) := by
  unfold decode
  cases hf : opcodeMap.find? (fun r => r.accepts w) with
  | none =>
    have := List.find?_eq_none.mp hf r hr
    exact absurd h this
  | some r' =>
    have h' := List.find?_some hf
    have hr' := List.mem_of_find?_eq_some hf
    have : r' = r := row_eq_of_op hr' hr (by
      rw [← ((accepts_iff hr' w).mp h').1, ← ((accepts_iff hr w).mp h).1])
    rw [this]

/-- What the decoder can answer, said once. -/
theorem decode_cases (w : Word) :
    (∃ r ∈ opcodeMap, r.accepts w = true ∧ decode w = .ok (r.build w)) ∨
    ((∀ r ∈ opcodeMap, r.accepts w = false) ∧ decode w = .error (whyIllegal w)) := by
  by_cases h : ∃ r ∈ opcodeMap, r.accepts w = true
  · obtain ⟨r, hr, h⟩ := h
    exact .inl ⟨r, hr, h, decode_of_accepts hr h⟩
  · refine .inr ⟨fun r hr => ?_, ?_⟩
    · cases hb : r.accepts w
      · rfl
      · exact absurd ⟨r, hr, hb⟩ h
    · unfold decode
      rw [List.find?_eq_none.mpr fun r hr hb => h ⟨r, hr, hb⟩]

/-- The decoder reads the same command from a word and from its four bytes. -/
theorem decodeBytes_be (w : Word) : decodeBytes (be w.toNat 4) = decode w := by
  unfold decodeBytes
  rw [if_pos (be_length _ _), int_be]
  congr 1
  apply BitVec.eq_of_toNat_eq
  have := w.isLt
  rw [BitVec.toNat_ofNat]
  omega

end Sys2Proof
end

