-- ==== Sys2Proof/Laws/Hash.lean ====
section
/-! SUPPORT. Lengths: a digest is 64 bytes, a padded message is a whole number of blocks, a key block is 128 bytes. -/

namespace Sys2Proof.Machine

@[simp] theorem HashWords.bytes_length (H : HashWords) : H.bytes.length = 64 := by
  simp [HashWords.bytes]

@[simp] theorem sha512_length (M : List Byte) : (sha512 M).length = 64 := HashWords.bytes_length _

@[simp] theorem hash512_length (M : List Byte) : (hash512 M).length = 64 := sha512_length M

@[simp] theorem hmac512_length (K M : List Byte) : (hmac512 K M).length = 64 := hash512_length _

theorem hmacKeyBlock_length (K : List Byte) : (hmacKeyBlock K).length = 128 := by
  have h : ∀ K0 : List Byte, K0.length ≤ 128 → (K0 ++ List.replicate (Config.hashBlock - K0.length) 0).length = 128 := by
    intro K0 h
    simp [Config.hashBlock]
    omega
  unfold hmacKeyBlock
  apply h
  split
  · simp
  · simpa [Config.hashBlock] using ‹¬ Config.hashBlock < K.length›

theorem pbkdf2Loop_length (Pw : List Byte) : ∀ (n : Nat) (U T : List Byte), T.length = 64 → (pbkdf2Loop Pw n U T).length = 64 := by
  intro n
  induction n with
  | zero => intro U T h; exact h
  | succ n ih => intro U T h; exact ih _ _ (by simp [h])

@[simp] theorem pbkdf2_512_length (Pw S : List Byte) : (pbkdf2_512 Pw S).length = 64 :=
  pbkdf2Loop_length _ _ _ _ (hmac512_length _ _)

@[simp] theorem mnemonicSeed_length (Pw S : List Byte) : (mnemonicSeed Pw S).length = 64 := pbkdf2_512_length _ _

/-- How many bytes of `00` the padding has: at most 127, and enough to fill a block. -/
theorem shaPad_zeros (M : List Byte) : ∃ z < 128, shaPad M = M ++ [0x80] ++ List.replicate z 0 ++ be (8 * M.length) 16 ∧
    (M.length + 1 + z + 16) % 128 = 0 := by
  refine ⟨(((112 : Int) - (M.length + 1)) % 128).toNat, by omega, rfl, by omega⟩

theorem shaPad_length (M : List Byte) : (shaPad M).length % 128 = 0 := by
  obtain ⟨z, -, h, hz⟩ := shaPad_zeros M
  rw [h]
  simp
  omega

end Sys2Proof.Machine
end

