-- ==== Sys2Proof/Laws/Memory.lean ====
section
/-! SUPPORT. The byte memory: read after write, the frame of a write, and that every operation keeps the canonical form. -/

namespace Sys2Proof.Machine.Memory

@[simp] theorem read_nil (x : Nat) : Memory.read [] x = 0 := rfl

theorem read_cons (a : Nat) (b : Byte) (m : Memory) (x : Nat) :
    Memory.read ((a, b) :: m) x = if x = a then b else Memory.read m x := rfl

/-- Sorted from a bound on means sorted from any lower bound on. -/
theorem sortedFrom_mono {lo lo' : Nat} {m : Memory} (h : Memory.sortedFrom lo m = true) (hl : lo' ≤ lo) :
    Memory.sortedFrom lo' m = true := by
  cases m with
  | nil => rfl
  | cons c m =>
    obtain ⟨a, b⟩ := c
    simp only [Memory.sortedFrom, Bool.and_eq_true, decide_eq_true_eq] at h ⊢
    exact ⟨⟨le_trans hl h.1.1, h.1.2⟩, h.2⟩

/-- Below the bound nothing is listed. -/
theorem read_below {lo : Nat} {m : Memory} (h : Memory.sortedFrom lo m = true) {x : Nat} (hx : x < lo) :
    Memory.read m x = 0 := by
  induction m generalizing lo with
  | nil => rfl
  | cons c m ih =>
    obtain ⟨a, b⟩ := c
    simp only [Memory.sortedFrom, Bool.and_eq_true, decide_eq_true_eq] at h
    rw [read_cons, if_neg (by omega)]
    exact ih h.2 (by omega)

theorem read_cell (x y : Nat) (v : Byte) : Memory.read (Memory.cell x v) y = if y = x then v else 0 := by
  unfold Memory.cell
  by_cases hv : v = Memory.unlisted
  · rw [if_pos hv]
    by_cases hy : y = x <;> simp [hy, hv, Memory.unlisted]
  · rw [if_neg hv, read_cons]; rfl

theorem read_cell_append (x y : Nat) (v : Byte) (m : Memory) (hm : Memory.sortedFrom (x + 1) m = true) :
    Memory.read (Memory.cell x v ++ m) y = if y = x then v else Memory.read m y := by
  unfold Memory.cell
  by_cases hv : v = Memory.unlisted
  · rw [if_pos hv, List.nil_append]
    by_cases hy : y = x
    · rw [if_pos hy, hv, hy, read_below hm (by omega)]; rfl
    · rw [if_neg hy]
  · rw [if_neg hv]; rfl

theorem sortedFrom_cell_append {lo x : Nat} {v : Byte} {m : Memory} (hx : lo ≤ x) (hm : Memory.sortedFrom (x + 1) m = true) :
    Memory.sortedFrom lo (Memory.cell x v ++ m) = true := by
  unfold Memory.cell
  by_cases hv : v = Memory.unlisted
  · rw [if_pos hv]; exact sortedFrom_mono hm (by omega)
  · rw [if_neg hv]
    simp [Memory.sortedFrom, hx, hv, hm]

/-- A write keeps the order. -/
theorem write_sortedFrom {lo : Nat} {m : Memory} {x : Nat} {v : Byte} (hx : lo ≤ x) (h : Memory.sortedFrom lo m = true) :
    Memory.sortedFrom lo (Memory.write m x v) = true := by
  induction m generalizing lo with
  | nil =>
    have := sortedFrom_cell_append (v := v) (m := []) hx rfl
    simpa [Memory.write] using this
  | cons c m ih =>
    obtain ⟨a, b⟩ := c
    have h' := h
    simp only [Memory.sortedFrom, Bool.and_eq_true, decide_eq_true_eq] at h'
    unfold Memory.write
    by_cases h₁ : x < a
    · rw [if_pos h₁]
      apply sortedFrom_cell_append hx
      simp [Memory.sortedFrom, h'.1.2, h'.2]
      omega
    · rw [if_neg h₁]
      by_cases h₂ : x = a
      · rw [if_pos h₂]
        subst h₂
        exact sortedFrom_cell_append hx h'.2
      · rw [if_neg h₂]
        simp [Memory.sortedFrom, h'.1.1, h'.1.2, ih (lo := a + 1) (by omega) h'.2]

/-- Read after a write, in a sorted memory: the value written at the address, the old byte everywhere else. -/
theorem read_write_sorted {lo : Nat} {m : Memory} (h : Memory.sortedFrom lo m = true) (x : Nat) (v : Byte) (y : Nat) :
    Memory.read (Memory.write m x v) y = if y = x then v else Memory.read m y := by
  induction m generalizing lo with
  | nil => simp [Memory.write, read_cell]
  | cons c m ih =>
    obtain ⟨a, b⟩ := c
    have h' := h
    simp only [Memory.sortedFrom, Bool.and_eq_true, decide_eq_true_eq] at h'
    unfold Memory.write
    by_cases h₁ : x < a
    · rw [if_pos h₁, read_cell_append]
      simp [Memory.sortedFrom, h'.1.2, h'.2]
      omega
    · rw [if_neg h₁]
      by_cases h₂ : x = a
      · rw [if_pos h₂]
        subst h₂
        rw [read_cell_append _ _ _ _ h'.2, read_cons]
        by_cases hy : y = x <;> simp [hy]
      · rw [if_neg h₂, read_cons, ih h'.2, read_cons]
        by_cases hy : y = a
        · subst hy; simp [show y ≠ x by omega]
        · simp [hy]

theorem wf_sorted {m : Memory} (h : Memory.wf m = true) : Memory.sortedFrom 0 m = true := by
  simp only [Memory.wf, Bool.and_eq_true] at h
  exact h.1

theorem wf_inBuffers {m : Memory} (h : Memory.wf m = true) : ∀ c ∈ m, Memory.inBuffers c.1 = true := by
  simp only [Memory.wf, Bool.and_eq_true, List.all_eq_true] at h
  exact h.2

@[simp] theorem wf_nil : Memory.wf [] = true := rfl

/-- Read after write. -/
theorem read_write {m : Memory} (h : Memory.wf m = true) (x : Nat) (v : Byte) (y : Nat) :
    Memory.read (Memory.write m x v) y = if y = x then v else Memory.read m y :=
  read_write_sorted (wf_sorted h) x v y

theorem mem_write {m : Memory} {x : Nat} {v : Byte} {c : Host.Cell} (hc : c ∈ Memory.write m x v) : c.1 = x ∨ c ∈ m := by
  have hcell : ∀ m' : Memory, c ∈ Memory.cell x v ++ m' → c.1 = x ∨ c ∈ m' := by
    intro m' h
    unfold Memory.cell at h
    split at h <;> simp at h
    · exact .inr h
    · rcases h with rfl | h
      · exact .inl rfl
      · exact .inr h
  induction m with
  | nil =>
    have := hcell [] (by simpa [Memory.write] using hc)
    simpa using this
  | cons d m ih =>
    obtain ⟨a, b⟩ := d
    unfold Memory.write at hc
    split at hc
    · exact hcell _ hc
    · split at hc
      · rcases hcell _ hc with h | h
        · exact .inl h
        · exact .inr (List.mem_cons_of_mem _ h)
      · rcases List.mem_cons.mp hc with h | h
        · exact .inr (by simp [h])
        · rcases ih h with h | h
          · exact .inl h
          · exact .inr (List.mem_cons_of_mem _ h)

/-- A write inside the buffers keeps the canonical form. -/
theorem write_wf {m : Memory} (h : Memory.wf m = true) {x : Nat} (hx : Memory.inBuffers x = true) (v : Byte) :
    Memory.wf (Memory.write m x v) = true := by
  simp only [Memory.wf, Bool.and_eq_true, List.all_eq_true]
  refine ⟨write_sortedFrom (Nat.zero_le _) (wf_sorted h), fun c hc => ?_⟩
  rcases mem_write hc with hc | hc
  · rw [hc]; exact hx
  · exact wf_inBuffers h c hc

/-- A run of writes inside the buffers keeps the canonical form. -/
theorem writeBytes_wf {m : Memory} (h : Memory.wf m = true) {x : Nat} (X : List Byte)
    (hx : ∀ k < X.length, Memory.inBuffers (x + k) = true) : Memory.wf (Memory.writeBytes m x X) = true := by
  induction X generalizing m x with
  | nil => exact h
  | cons v X ih =>
    refine ih (write_wf h (by simpa using hx 0 (by simp)) v) fun k hk => ?_
    have := hx (k + 1) (by simpa using hk)
    rwa [show x + (k + 1) = x + 1 + k by omega] at this

theorem writeBytes_sorted {m : Memory} (h : Memory.sortedFrom 0 m = true) (x : Nat) (X : List Byte) :
    Memory.sortedFrom 0 (Memory.writeBytes m x X) = true := by
  induction X generalizing m x with
  | nil => exact h
  | cons v X ih => exact ih (write_sortedFrom (Nat.zero_le _) h) _

/-- The bytes after a run of writes: the ones written inside it, the old ones outside. -/
theorem read_writeBytes {m : Memory} (h : Memory.sortedFrom 0 m = true) (x : Nat) (X : List Byte) (y : Nat) :
    Memory.read (Memory.writeBytes m x X) y =
      if x ≤ y ∧ y < x + X.length then X.getD (y - x) 0 else Memory.read m y := by
  induction X generalizing m x with
  | nil => simp [Memory.writeBytes]
  | cons v X ih =>
    rw [Memory.writeBytes, ih (write_sortedFrom (Nat.zero_le _) h), read_write_sorted h]
    simp only [List.length_cons]
    by_cases h₁ : y = x
    · subst h₁
      simp
    · by_cases h₂ : x + 1 ≤ y ∧ y < x + 1 + X.length
      · rw [if_pos h₂, if_pos (by omega), show y - x = y - (x + 1) + 1 by omega]
        simp
      · rw [if_neg h₂, if_neg h₁, if_neg (by omega)]

@[simp] theorem readBytes_length (m : Memory) (x n : Nat) : (Memory.readBytes m x n).length = n := by
  simp [Memory.readBytes]

theorem readBytes_getElem (m : Memory) (x n k : Nat) (h : k < (Memory.readBytes m x n).length) :
    (Memory.readBytes m x n)[k] = Memory.read m (x + k) := by
  simp [Memory.readBytes]

/-- `BufRead` after `BufWrite` of the same place gives the bytes written. -/
theorem readBytes_writeBytes_same {m : Memory} (h : Memory.sortedFrom 0 m = true) (x : Nat) (X : List Byte) :
    Memory.readBytes (Memory.writeBytes m x X) x X.length = X := by
  apply List.ext_getElem
  · simp
  · intro k h₁ h₂
    rw [readBytes_getElem, read_writeBytes h, if_pos (by omega)]
    simp [List.getD, h₂]

/-- `BufRead` of a place no byte of which is written. -/
theorem readBytes_writeBytes_ne {m : Memory} (h : Memory.sortedFrom 0 m = true) (x y n : Nat) (X : List Byte)
    (hd : y + n ≤ x ∨ x + X.length ≤ y) :
    Memory.readBytes (Memory.writeBytes m x X) y n = Memory.readBytes m y n := by
  apply List.ext_getElem
  · simp
  · intro k h₁ h₂
    simp only [readBytes_length] at h₁
    rw [readBytes_getElem, readBytes_getElem, read_writeBytes h, if_neg (by omega)]

/-- In canonical form, memories that read alike are equal. -/
theorem ext_of_read {lo : Nat} {m m' : Memory} (h : Memory.sortedFrom lo m = true) (h' : Memory.sortedFrom lo m' = true)
    (hr : ∀ x, Memory.read m x = Memory.read m' x) : m = m' := by
  induction m generalizing lo m' with
  | nil =>
    cases m' with
    | nil => rfl
    | cons c m' =>
      obtain ⟨a, b⟩ := c
      simp only [Memory.sortedFrom, Bool.and_eq_true, decide_eq_true_eq] at h'
      have := hr a
      rw [read_cons, if_pos rfl, read_nil] at this
      exact absurd this.symm h'.1.2
  | cons c m ih =>
    obtain ⟨a, b⟩ := c
    have h₀ := h
    simp only [Memory.sortedFrom, Bool.and_eq_true, decide_eq_true_eq] at h
    cases m' with
    | nil =>
      have := hr a
      rw [read_cons, if_pos rfl, read_nil] at this
      exact absurd this h.1.2
    | cons c' m' =>
      obtain ⟨a', b'⟩ := c'
      have h₀' := h'
      simp only [Memory.sortedFrom, Bool.and_eq_true, decide_eq_true_eq] at h'
      have haa : a = a' := by
        rcases Nat.lt_trichotomy a a' with hl | he | hl
        · have := hr a
          rw [read_cons, if_pos rfl, read_cons, if_neg (by omega), read_below h'.2 (by omega)] at this
          exact absurd this h.1.2
        · exact he
        · have := hr a'
          rw [read_cons, if_neg (by omega), read_below h.2 (by omega), read_cons, if_pos rfl] at this
          exact absurd this.symm h'.1.2
      subst haa
      have hb : b = b' := by
        have := hr a
        rwa [read_cons, if_pos rfl, read_cons, if_pos rfl] at this
      subst hb
      congr 1
      refine ih h.2 h'.2 fun x => ?_
      by_cases hx : x = a
      · rw [read_below h.2 (by omega), read_below h'.2 (by omega)]
      · have := hr x
        rwa [read_cons, if_neg hx, read_cons, if_neg hx] at this

/-- A second equal run of writes changes nothing. -/
theorem writeBytes_idem {m : Memory} (h : Memory.sortedFrom 0 m = true) (x : Nat) (X : List Byte) :
    Memory.writeBytes (Memory.writeBytes m x X) x X = Memory.writeBytes m x X := by
  refine ext_of_read (writeBytes_sorted (writeBytes_sorted h x X) x X) (writeBytes_sorted h x X) fun y => ?_
  rw [read_writeBytes (writeBytes_sorted h x X), read_writeBytes h]
  split <;> rfl

end Sys2Proof.Machine.Memory
end

