-- ==== Sys2Proof/Laws/State.lean ====
section
/-! SUPPORT. One lemma per field per update of the state, true by rfl. -/

namespace Sys2Proof.Machine

/-! ## State.writeF -/

@[simp] theorem State.writeF_f (s : State) (i : RegIdx) (e : FieldElement) : (s.writeF i e).f = s.f.setIfInBounds i.toNat (.full e) := rfl
@[simp] theorem State.writeF_p (s : State) (i : RegIdx) (e : FieldElement) : (s.writeF i e).p = s.p := rfl
@[simp] theorem State.writeF_opa (s : State) (i : RegIdx) (e : FieldElement) : (s.writeF i e).opa = s.opa := rfl
@[simp] theorem State.writeF_opm (s : State) (i : RegIdx) (e : FieldElement) : (s.writeF i e).opm = s.opm := rfl
@[simp] theorem State.writeF_mem (s : State) (i : RegIdx) (e : FieldElement) : (s.writeF i e).mem = s.mem := rfl
@[simp] theorem State.writeF_klen (s : State) (i : RegIdx) (e : FieldElement) : (s.writeF i e).klen = s.klen := rfl
@[simp] theorem State.writeF_mlen (s : State) (i : RegIdx) (e : FieldElement) : (s.writeF i e).mlen = s.mlen := rfl
@[simp] theorem State.writeF_olen (s : State) (i : RegIdx) (e : FieldElement) : (s.writeF i e).olen = s.olen := rfl
@[simp] theorem State.writeF_err (s : State) (i : RegIdx) (e : FieldElement) : (s.writeF i e).err = s.err := rfl
@[simp] theorem State.writeF_ecode (s : State) (i : RegIdx) (e : FieldElement) : (s.writeF i e).ecode = s.ecode := rfl
@[simp] theorem State.writeF_ecmd (s : State) (i : RegIdx) (e : FieldElement) : (s.writeF i e).ecmd = s.ecmd := rfl
@[simp] theorem State.writeF_pend (s : State) (i : RegIdx) (e : FieldElement) : (s.writeF i e).pend = s.pend := rfl
@[simp] theorem State.writeF_work (s : State) (i : RegIdx) (e : FieldElement) : (s.writeF i e).work = s.work := rfl
@[simp] theorem State.writeF_inputs (s : State) (i : RegIdx) (e : FieldElement) : (s.writeF i e).inputs = s.inputs := rfl
@[simp] theorem State.writeF_replies (s : State) (i : RegIdx) (e : FieldElement) : (s.writeF i e).replies = s.replies := rfl

/-! ## State.writeP -/

@[simp] theorem State.writeP_f (s : State) (j : RegIdx) (P : CurvePoint) : (s.writeP j P).f = s.f := rfl
@[simp] theorem State.writeP_p (s : State) (j : RegIdx) (P : CurvePoint) : (s.writeP j P).p = s.p.setIfInBounds j.toNat (.point P) := rfl
@[simp] theorem State.writeP_opa (s : State) (j : RegIdx) (P : CurvePoint) : (s.writeP j P).opa = s.opa := rfl
@[simp] theorem State.writeP_opm (s : State) (j : RegIdx) (P : CurvePoint) : (s.writeP j P).opm = s.opm := rfl
@[simp] theorem State.writeP_mem (s : State) (j : RegIdx) (P : CurvePoint) : (s.writeP j P).mem = s.mem := rfl
@[simp] theorem State.writeP_klen (s : State) (j : RegIdx) (P : CurvePoint) : (s.writeP j P).klen = s.klen := rfl
@[simp] theorem State.writeP_mlen (s : State) (j : RegIdx) (P : CurvePoint) : (s.writeP j P).mlen = s.mlen := rfl
@[simp] theorem State.writeP_olen (s : State) (j : RegIdx) (P : CurvePoint) : (s.writeP j P).olen = s.olen := rfl
@[simp] theorem State.writeP_err (s : State) (j : RegIdx) (P : CurvePoint) : (s.writeP j P).err = s.err := rfl
@[simp] theorem State.writeP_ecode (s : State) (j : RegIdx) (P : CurvePoint) : (s.writeP j P).ecode = s.ecode := rfl
@[simp] theorem State.writeP_ecmd (s : State) (j : RegIdx) (P : CurvePoint) : (s.writeP j P).ecmd = s.ecmd := rfl
@[simp] theorem State.writeP_pend (s : State) (j : RegIdx) (P : CurvePoint) : (s.writeP j P).pend = s.pend := rfl
@[simp] theorem State.writeP_work (s : State) (j : RegIdx) (P : CurvePoint) : (s.writeP j P).work = s.work := rfl
@[simp] theorem State.writeP_inputs (s : State) (j : RegIdx) (P : CurvePoint) : (s.writeP j P).inputs = s.inputs := rfl
@[simp] theorem State.writeP_replies (s : State) (j : RegIdx) (P : CurvePoint) : (s.writeP j P).replies = s.replies := rfl

/-! ## State.writeOut -/

@[simp] theorem State.writeOut_f (s : State) (X : List Byte) : (s.writeOut X).f = s.f := rfl
@[simp] theorem State.writeOut_p (s : State) (X : List Byte) : (s.writeOut X).p = s.p := rfl
@[simp] theorem State.writeOut_opa (s : State) (X : List Byte) : (s.writeOut X).opa = s.opa := rfl
@[simp] theorem State.writeOut_opm (s : State) (X : List Byte) : (s.writeOut X).opm = s.opm := rfl
@[simp] theorem State.writeOut_mem (s : State) (X : List Byte) : (s.writeOut X).mem = Memory.writeBytes s.mem Config.outbufBase (X ++ List.replicate (Config.outbufBytes - X.length) 0) := rfl
@[simp] theorem State.writeOut_klen (s : State) (X : List Byte) : (s.writeOut X).klen = s.klen := rfl
@[simp] theorem State.writeOut_mlen (s : State) (X : List Byte) : (s.writeOut X).mlen = s.mlen := rfl
@[simp] theorem State.writeOut_olen (s : State) (X : List Byte) : (s.writeOut X).olen = BitVec.ofNat 32 X.length := rfl
@[simp] theorem State.writeOut_err (s : State) (X : List Byte) : (s.writeOut X).err = s.err := rfl
@[simp] theorem State.writeOut_ecode (s : State) (X : List Byte) : (s.writeOut X).ecode = s.ecode := rfl
@[simp] theorem State.writeOut_ecmd (s : State) (X : List Byte) : (s.writeOut X).ecmd = s.ecmd := rfl
@[simp] theorem State.writeOut_pend (s : State) (X : List Byte) : (s.writeOut X).pend = s.pend := rfl
@[simp] theorem State.writeOut_work (s : State) (X : List Byte) : (s.writeOut X).work = s.work := rfl
@[simp] theorem State.writeOut_inputs (s : State) (X : List Byte) : (s.writeOut X).inputs = s.inputs := rfl
@[simp] theorem State.writeOut_replies (s : State) (X : List Byte) : (s.writeOut X).replies = s.replies := rfl

/-! ## State.raise -/

@[simp] theorem State.raise_f (s : State) (k : ErrKind) (w : Word) : (s.raise k w).f = s.f := rfl
@[simp] theorem State.raise_p (s : State) (k : ErrKind) (w : Word) : (s.raise k w).p = s.p := rfl
@[simp] theorem State.raise_opa (s : State) (k : ErrKind) (w : Word) : (s.raise k w).opa = s.opa := rfl
@[simp] theorem State.raise_opm (s : State) (k : ErrKind) (w : Word) : (s.raise k w).opm = s.opm := rfl
@[simp] theorem State.raise_mem (s : State) (k : ErrKind) (w : Word) : (s.raise k w).mem = s.mem := rfl
@[simp] theorem State.raise_klen (s : State) (k : ErrKind) (w : Word) : (s.raise k w).klen = s.klen := rfl
@[simp] theorem State.raise_mlen (s : State) (k : ErrKind) (w : Word) : (s.raise k w).mlen = s.mlen := rfl
@[simp] theorem State.raise_olen (s : State) (k : ErrKind) (w : Word) : (s.raise k w).olen = s.olen := rfl
@[simp] theorem State.raise_err (s : State) (k : ErrKind) (w : Word) : (s.raise k w).err = true := rfl
@[simp] theorem State.raise_ecode (s : State) (k : ErrKind) (w : Word) : (s.raise k w).ecode = k.code := rfl
@[simp] theorem State.raise_ecmd (s : State) (k : ErrKind) (w : Word) : (s.raise k w).ecmd = w := rfl
@[simp] theorem State.raise_pend (s : State) (k : ErrKind) (w : Word) : (s.raise k w).pend = none := rfl
@[simp] theorem State.raise_work (s : State) (k : ErrKind) (w : Word) : (s.raise k w).work = Work.cleared := rfl
@[simp] theorem State.raise_inputs (s : State) (k : ErrKind) (w : Word) : (s.raise k w).inputs = s.inputs := rfl
@[simp] theorem State.raise_replies (s : State) (k : ErrKind) (w : Word) : (s.raise k w).replies = s.replies := rfl

/-! ## State.clearRecord -/

@[simp] theorem State.clearRecord_f (s : State) : s.clearRecord.f = s.f := rfl
@[simp] theorem State.clearRecord_p (s : State) : s.clearRecord.p = s.p := rfl
@[simp] theorem State.clearRecord_opa (s : State) : s.clearRecord.opa = s.opa := rfl
@[simp] theorem State.clearRecord_opm (s : State) : s.clearRecord.opm = s.opm := rfl
@[simp] theorem State.clearRecord_mem (s : State) : s.clearRecord.mem = s.mem := rfl
@[simp] theorem State.clearRecord_klen (s : State) : s.clearRecord.klen = s.klen := rfl
@[simp] theorem State.clearRecord_mlen (s : State) : s.clearRecord.mlen = s.mlen := rfl
@[simp] theorem State.clearRecord_olen (s : State) : s.clearRecord.olen = s.olen := rfl
@[simp] theorem State.clearRecord_err (s : State) : s.clearRecord.err = false := rfl
@[simp] theorem State.clearRecord_ecode (s : State) : s.clearRecord.ecode = 0 := rfl
@[simp] theorem State.clearRecord_ecmd (s : State) : s.clearRecord.ecmd = 0 := rfl
@[simp] theorem State.clearRecord_pend (s : State) : s.clearRecord.pend = s.pend := rfl
@[simp] theorem State.clearRecord_work (s : State) : s.clearRecord.work = s.work := rfl
@[simp] theorem State.clearRecord_inputs (s : State) : s.clearRecord.inputs = s.inputs := rfl
@[simp] theorem State.clearRecord_replies (s : State) : s.clearRecord.replies = s.replies := rfl

/-! ## State.retire -/

@[simp] theorem State.retire_f (s : State) : s.retire.f = s.f := rfl
@[simp] theorem State.retire_p (s : State) : s.retire.p = s.p := rfl
@[simp] theorem State.retire_opa (s : State) : s.retire.opa = s.opa := rfl
@[simp] theorem State.retire_opm (s : State) : s.retire.opm = s.opm := rfl
@[simp] theorem State.retire_mem (s : State) : s.retire.mem = s.mem := rfl
@[simp] theorem State.retire_klen (s : State) : s.retire.klen = s.klen := rfl
@[simp] theorem State.retire_mlen (s : State) : s.retire.mlen = s.mlen := rfl
@[simp] theorem State.retire_olen (s : State) : s.retire.olen = s.olen := rfl
@[simp] theorem State.retire_err (s : State) : s.retire.err = s.err := rfl
@[simp] theorem State.retire_ecode (s : State) : s.retire.ecode = s.ecode := rfl
@[simp] theorem State.retire_ecmd (s : State) : s.retire.ecmd = s.ecmd := rfl
@[simp] theorem State.retire_pend (s : State) : s.retire.pend = none := rfl
@[simp] theorem State.retire_work (s : State) : s.retire.work = Work.cleared := rfl
@[simp] theorem State.retire_inputs (s : State) : s.retire.inputs = s.inputs := rfl
@[simp] theorem State.retire_replies (s : State) : s.retire.replies = s.replies := rfl

/-! ## State.drop -/

@[simp] theorem State.drop_f (s : State) : s.drop.f = s.f := rfl
@[simp] theorem State.drop_p (s : State) : s.drop.p = s.p := rfl
@[simp] theorem State.drop_opa (s : State) : s.drop.opa = s.opa := rfl
@[simp] theorem State.drop_opm (s : State) : s.drop.opm = s.opm := rfl
@[simp] theorem State.drop_mem (s : State) : s.drop.mem = s.mem := rfl
@[simp] theorem State.drop_klen (s : State) : s.drop.klen = s.klen := rfl
@[simp] theorem State.drop_mlen (s : State) : s.drop.mlen = s.mlen := rfl
@[simp] theorem State.drop_olen (s : State) : s.drop.olen = s.olen := rfl
@[simp] theorem State.drop_err (s : State) : s.drop.err = s.err := rfl
@[simp] theorem State.drop_ecode (s : State) : s.drop.ecode = s.ecode := rfl
@[simp] theorem State.drop_ecmd (s : State) : s.drop.ecmd = s.ecmd := rfl
@[simp] theorem State.drop_pend (s : State) : s.drop.pend = none := rfl
@[simp] theorem State.drop_work (s : State) : s.drop.work = s.work := rfl
@[simp] theorem State.drop_inputs (s : State) : s.drop.inputs = s.inputs := rfl
@[simp] theorem State.drop_replies (s : State) : s.drop.replies = s.replies := rfl

/-! ## State.wipe -/

@[simp] theorem State.wipe_f (s : State) : s.wipe.f = Vector.replicate 8 .empty := rfl
@[simp] theorem State.wipe_p (s : State) : s.wipe.p = Vector.replicate 4 .empty := rfl
@[simp] theorem State.wipe_opa (s : State) : s.wipe.opa = 0 := rfl
@[simp] theorem State.wipe_opm (s : State) : s.wipe.opm = 0 := rfl
@[simp] theorem State.wipe_mem (s : State) : s.wipe.mem = [] := rfl
@[simp] theorem State.wipe_klen (s : State) : s.wipe.klen = 0 := rfl
@[simp] theorem State.wipe_mlen (s : State) : s.wipe.mlen = 0 := rfl
@[simp] theorem State.wipe_olen (s : State) : s.wipe.olen = 0 := rfl
@[simp] theorem State.wipe_err (s : State) : s.wipe.err = s.err := rfl
@[simp] theorem State.wipe_ecode (s : State) : s.wipe.ecode = s.ecode := rfl
@[simp] theorem State.wipe_ecmd (s : State) : s.wipe.ecmd = s.ecmd := rfl
@[simp] theorem State.wipe_pend (s : State) : s.wipe.pend = s.pend := rfl
@[simp] theorem State.wipe_work (s : State) : s.wipe.work = Work.cleared := rfl
@[simp] theorem State.wipe_inputs (s : State) : s.wipe.inputs = s.inputs := rfl
@[simp] theorem State.wipe_replies (s : State) : s.wipe.replies = s.replies := rfl

/-! ## State.reply -/

@[simp] theorem State.reply_f (s : State) (bs : List Byte) : (s.reply bs).f = s.f := rfl
@[simp] theorem State.reply_p (s : State) (bs : List Byte) : (s.reply bs).p = s.p := rfl
@[simp] theorem State.reply_opa (s : State) (bs : List Byte) : (s.reply bs).opa = s.opa := rfl
@[simp] theorem State.reply_opm (s : State) (bs : List Byte) : (s.reply bs).opm = s.opm := rfl
@[simp] theorem State.reply_mem (s : State) (bs : List Byte) : (s.reply bs).mem = s.mem := rfl
@[simp] theorem State.reply_klen (s : State) (bs : List Byte) : (s.reply bs).klen = s.klen := rfl
@[simp] theorem State.reply_mlen (s : State) (bs : List Byte) : (s.reply bs).mlen = s.mlen := rfl
@[simp] theorem State.reply_olen (s : State) (bs : List Byte) : (s.reply bs).olen = s.olen := rfl
@[simp] theorem State.reply_err (s : State) (bs : List Byte) : (s.reply bs).err = s.err := rfl
@[simp] theorem State.reply_ecode (s : State) (bs : List Byte) : (s.reply bs).ecode = s.ecode := rfl
@[simp] theorem State.reply_ecmd (s : State) (bs : List Byte) : (s.reply bs).ecmd = s.ecmd := rfl
@[simp] theorem State.reply_pend (s : State) (bs : List Byte) : (s.reply bs).pend = s.pend := rfl
@[simp] theorem State.reply_work (s : State) (bs : List Byte) : (s.reply bs).work = s.work := rfl
@[simp] theorem State.reply_inputs (s : State) (bs : List Byte) : (s.reply bs).inputs = s.inputs := rfl
@[simp] theorem State.reply_replies (s : State) (bs : List Byte) : (s.reply bs).replies = bs :: s.replies := rfl

/-! ## State.popInput -/

@[simp] theorem State.popInput_f (s : State) : s.popInput.f = s.f := rfl
@[simp] theorem State.popInput_p (s : State) : s.popInput.p = s.p := rfl
@[simp] theorem State.popInput_opa (s : State) : s.popInput.opa = s.opa := rfl
@[simp] theorem State.popInput_opm (s : State) : s.popInput.opm = s.opm := rfl
@[simp] theorem State.popInput_mem (s : State) : s.popInput.mem = s.mem := rfl
@[simp] theorem State.popInput_klen (s : State) : s.popInput.klen = s.klen := rfl
@[simp] theorem State.popInput_mlen (s : State) : s.popInput.mlen = s.mlen := rfl
@[simp] theorem State.popInput_olen (s : State) : s.popInput.olen = s.olen := rfl
@[simp] theorem State.popInput_err (s : State) : s.popInput.err = s.err := rfl
@[simp] theorem State.popInput_ecode (s : State) : s.popInput.ecode = s.ecode := rfl
@[simp] theorem State.popInput_ecmd (s : State) : s.popInput.ecmd = s.ecmd := rfl
@[simp] theorem State.popInput_pend (s : State) : s.popInput.pend = s.pend := rfl
@[simp] theorem State.popInput_work (s : State) : s.popInput.work = s.work := rfl
@[simp] theorem State.popInput_inputs (s : State) : s.popInput.inputs = s.inputs.tail := rfl
@[simp] theorem State.popInput_replies (s : State) : s.popInput.replies = s.replies := rfl

/-! ## State.pendWord -/

@[simp] theorem State.pendWord_f (s : State) (w : Word) : (s.pendWord w).f = s.f := rfl
@[simp] theorem State.pendWord_p (s : State) (w : Word) : (s.pendWord w).p = s.p := rfl
@[simp] theorem State.pendWord_opa (s : State) (w : Word) : (s.pendWord w).opa = s.opa := rfl
@[simp] theorem State.pendWord_opm (s : State) (w : Word) : (s.pendWord w).opm = s.opm := rfl
@[simp] theorem State.pendWord_mem (s : State) (w : Word) : (s.pendWord w).mem = s.mem := rfl
@[simp] theorem State.pendWord_klen (s : State) (w : Word) : (s.pendWord w).klen = s.klen := rfl
@[simp] theorem State.pendWord_mlen (s : State) (w : Word) : (s.pendWord w).mlen = s.mlen := rfl
@[simp] theorem State.pendWord_olen (s : State) (w : Word) : (s.pendWord w).olen = s.olen := rfl
@[simp] theorem State.pendWord_err (s : State) (w : Word) : (s.pendWord w).err = s.err := rfl
@[simp] theorem State.pendWord_ecode (s : State) (w : Word) : (s.pendWord w).ecode = s.ecode := rfl
@[simp] theorem State.pendWord_ecmd (s : State) (w : Word) : (s.pendWord w).ecmd = s.ecmd := rfl
@[simp] theorem State.pendWord_pend (s : State) (w : Word) : (s.pendWord w).pend = some w := rfl
@[simp] theorem State.pendWord_work (s : State) (w : Word) : (s.pendWord w).work = s.work := rfl
@[simp] theorem State.pendWord_inputs (s : State) (w : Word) : (s.pendWord w).inputs = deferFirst s.inputs := rfl
@[simp] theorem State.pendWord_replies (s : State) (w : Word) : (s.pendWord w).replies = s.replies := rfl

/-! ## State.afterReset -/

@[simp] theorem State.afterReset_f (s : State) : s.afterReset.f = State.reset.f := rfl
@[simp] theorem State.afterReset_p (s : State) : s.afterReset.p = State.reset.p := rfl
@[simp] theorem State.afterReset_opa (s : State) : s.afterReset.opa = State.reset.opa := rfl
@[simp] theorem State.afterReset_opm (s : State) : s.afterReset.opm = State.reset.opm := rfl
@[simp] theorem State.afterReset_mem (s : State) : s.afterReset.mem = State.reset.mem := rfl
@[simp] theorem State.afterReset_klen (s : State) : s.afterReset.klen = State.reset.klen := rfl
@[simp] theorem State.afterReset_mlen (s : State) : s.afterReset.mlen = State.reset.mlen := rfl
@[simp] theorem State.afterReset_olen (s : State) : s.afterReset.olen = State.reset.olen := rfl
@[simp] theorem State.afterReset_err (s : State) : s.afterReset.err = State.reset.err := rfl
@[simp] theorem State.afterReset_ecode (s : State) : s.afterReset.ecode = State.reset.ecode := rfl
@[simp] theorem State.afterReset_ecmd (s : State) : s.afterReset.ecmd = State.reset.ecmd := rfl
@[simp] theorem State.afterReset_pend (s : State) : s.afterReset.pend = State.reset.pend := rfl
@[simp] theorem State.afterReset_work (s : State) : s.afterReset.work = State.reset.work := rfl
@[simp] theorem State.afterReset_inputs (s : State) : s.afterReset.inputs = s.inputs := rfl
@[simp] theorem State.afterReset_replies (s : State) : s.afterReset.replies = s.replies := rfl

/-! ## State.reset -/

@[simp] theorem State.reset_f : State.reset.f = Vector.replicate 8 .empty := rfl
@[simp] theorem State.reset_p : State.reset.p = Vector.replicate 4 .empty := rfl
@[simp] theorem State.reset_opa : State.reset.opa = 0 := rfl
@[simp] theorem State.reset_opm : State.reset.opm = 0 := rfl
@[simp] theorem State.reset_mem : State.reset.mem = [] := rfl
@[simp] theorem State.reset_klen : State.reset.klen = 0 := rfl
@[simp] theorem State.reset_mlen : State.reset.mlen = 0 := rfl
@[simp] theorem State.reset_olen : State.reset.olen = 0 := rfl
@[simp] theorem State.reset_err : State.reset.err = false := rfl
@[simp] theorem State.reset_ecode : State.reset.ecode = 0 := rfl
@[simp] theorem State.reset_ecmd : State.reset.ecmd = 0 := rfl
@[simp] theorem State.reset_pend : State.reset.pend = none := rfl
@[simp] theorem State.reset_work : State.reset.work = Work.cleared := rfl
@[simp] theorem State.reset_inputs : State.reset.inputs = [] := rfl
@[simp] theorem State.reset_replies : State.reset.replies = [] := rfl

end Sys2Proof.Machine
end

