-- ==== Sys2Proof/Laws/Ops.lean ====
section
/-! SUPPORT. Registers and buffers after the named operations, what the frame of a command can answer, and the operand forms. -/

namespace Sys2Proof.Machine

/-! ## Registers -/

theorem State.readF_writeF (s : State) (i j : RegIdx) (e : FieldElement) (hi : i.toNat < 8) :
    (s.writeF i e).readF j = if j = i then .full e else s.readF j := by
  unfold State.readF
  rw [State.writeF_f, Vector.getElem?_setIfInBounds]
  by_cases h : j = i
  · subst h; simp [hi]
  · have : ¬ i.toNat = j.toNat := fun h' => h (BitVec.eq_of_toNat_eq h'.symm)
    simp [h, this]

theorem State.readP_writeP (s : State) (i j : RegIdx) (P : CurvePoint) (hi : i.toNat < 4) :
    (s.writeP i P).readP j = if j = i then .point P else s.readP j := by
  unfold State.readP
  rw [State.writeP_p, Vector.getElem?_setIfInBounds]
  by_cases h : j = i
  · subst h; simp [hi]
  · have : ¬ i.toNat = j.toNat := fun h' => h (BitVec.eq_of_toNat_eq h'.symm)
    simp [h, this]

/-- `readF` looks at the field registers only. -/
theorem State.readF_congr {s t : State} (h : s.f = t.f) (i : RegIdx) : s.readF i = t.readF i := by
  unfold State.readF
  rw [h]

/-- `readP` looks at the point registers only. -/
theorem State.readP_congr {s t : State} (h : s.p = t.p) (j : RegIdx) : s.readP j = t.readP j := by
  unfold State.readP
  rw [h]

@[simp] theorem State.readP_writeF (s : State) (i j : RegIdx) (e : FieldElement) : (s.writeF i e).readP j = s.readP j := rfl
@[simp] theorem State.readF_writeP (s : State) (i j : RegIdx) (P : CurvePoint) : (s.writeP i P).readF j = s.readF j := rfl
@[simp] theorem State.readF_writeOut (s : State) (X : List Byte) (i : RegIdx) : (s.writeOut X).readF i = s.readF i := rfl
@[simp] theorem State.readP_writeOut (s : State) (X : List Byte) (j : RegIdx) : (s.writeOut X).readP j = s.readP j := rfl
@[simp] theorem State.readF_raise (s : State) (k : ErrKind) (w : Word) (i : RegIdx) : (s.raise k w).readF i = s.readF i := rfl
@[simp] theorem State.readP_raise (s : State) (k : ErrKind) (w : Word) (j : RegIdx) : (s.raise k w).readP j = s.readP j := rfl
@[simp] theorem State.readF_retire (s : State) (i : RegIdx) : s.retire.readF i = s.readF i := rfl
@[simp] theorem State.readP_retire (s : State) (j : RegIdx) : s.retire.readP j = s.readP j := rfl
@[simp] theorem State.readF_drop (s : State) (i : RegIdx) : s.drop.readF i = s.readF i := rfl
@[simp] theorem State.readP_drop (s : State) (j : RegIdx) : s.drop.readP j = s.readP j := rfl
@[simp] theorem State.readF_clearRecord (s : State) (i : RegIdx) : s.clearRecord.readF i = s.readF i := rfl
@[simp] theorem State.readP_clearRecord (s : State) (j : RegIdx) : s.clearRecord.readP j = s.readP j := rfl
@[simp] theorem State.readF_popInput (s : State) (i : RegIdx) : s.popInput.readF i = s.readF i := rfl
@[simp] theorem State.readP_popInput (s : State) (j : RegIdx) : s.popInput.readP j = s.readP j := rfl
@[simp] theorem State.readF_reply (s : State) (bs : List Byte) (i : RegIdx) : (s.reply bs).readF i = s.readF i := rfl
@[simp] theorem State.readP_reply (s : State) (bs : List Byte) (j : RegIdx) : (s.reply bs).readP j = s.readP j := rfl

theorem State.readF_empty {s : State} (h : s.f = Vector.replicate 8 .empty) (i : RegIdx) : s.readF i = .empty := by
  unfold State.readF
  rw [h, Vector.getElem?_replicate]
  split <;> rfl

theorem State.readP_empty {s : State} (h : s.p = Vector.replicate 4 .empty) (j : RegIdx) : s.readP j = .empty := by
  unfold State.readP
  rw [h, Vector.getElem?_replicate]
  split <;> rfl

@[simp] theorem State.readF_reset (i : RegIdx) : State.reset.readF i = .empty := State.readF_empty rfl i
@[simp] theorem State.readP_reset (j : RegIdx) : State.reset.readP j = .empty := State.readP_empty rfl j
@[simp] theorem State.readF_wipe (s : State) (i : RegIdx) : s.wipe.readF i = .empty := State.readF_empty rfl i
@[simp] theorem State.readP_wipe (s : State) (j : RegIdx) : s.wipe.readP j = .empty := State.readP_empty rfl j
@[simp] theorem State.readF_afterReset (s : State) (i : RegIdx) : s.afterReset.readF i = .empty := State.readF_empty rfl i
@[simp] theorem State.readP_afterReset (s : State) (j : RegIdx) : s.afterReset.readP j = .empty := State.readP_empty rfl j

/-! ## OUTBUF -/

/-- `OUTBUF` after a result: the result, then `00`. -/
theorem State.writeOut_read {s : State} (h : Memory.sortedFrom 0 s.mem = true) (X : List Byte) (hX : X.length ≤ 68) (k : Nat) (hk : k < 68) :
    Memory.read (s.writeOut X).mem (Config.outbufBase + k) = X.getD k 0 := by
  rw [State.writeOut_mem, Memory.read_writeBytes h, if_pos (by simp [Config.outbufBytes]; omega)]
  rw [Nat.add_sub_cancel_left]
  by_cases hk' : k < X.length
  · rw [List.getD_append _ _ _ _ hk']
  · rw [List.getD_append_right _ _ _ _ (by omega), List.getD_eq_default X _ (by omega), List.getD, List.getElem?_replicate]
    split <;> rfl

/-- A result leaves every byte outside `OUTBUF` as it was. -/
theorem State.writeOut_frame {s : State} (h : Memory.sortedFrom 0 s.mem = true) (X : List Byte) (hX : X.length ≤ 68) (a : Nat)
    (ha : a < Config.outbufBase ∨ Config.outbufBase + 68 ≤ a) :
    Memory.read (s.writeOut X).mem a = Memory.read s.mem a := by
  rw [State.writeOut_mem, Memory.read_writeBytes h, if_neg (by simp [Config.outbufBytes]; omega)]

/-- A result keeps memory's canonical form. -/
theorem State.writeOut_wf {s : State} (h : Memory.wf s.mem = true) (X : List Byte) (hX : X.length ≤ 68) :
    Memory.wf (s.writeOut X).mem = true := by
  rw [State.writeOut_mem]
  refine Memory.writeBytes_wf h _ fun k hk => ?_
  simp only [List.length_append, List.length_replicate, Config.outbufBytes] at hk
  unfold Memory.inBuffers
  rw [decide_eq_true_eq]
  simp only [Config.keybufBase, Config.outbufBase, Config.outbufBytes]
  omega

/-! ## The frame of a command -/

/-- What a command can answer, said once: it always answers a next state, and this is one of four. -/
theorem runCommand_cases (i : Instr) (s : State) (e : Effect) :
    (s.err = true ∧ runsWhileFaulted i = false ∧ runCommand i s e = .next s.drop) ∨
    ((s.err = false ∨ runsWhileFaulted i = true) ∧ i.wf = false ∧ runCommand i s e = .next (s.raise .illegalCommand (encode i))) ∨
    ((s.err = false ∨ runsWhileFaulted i = true) ∧ i.wf = true ∧ ∃ k, e = .error k ∧ runCommand i s e = .next (s.raise k (encode i))) ∨
    ((s.err = false ∨ runsWhileFaulted i = true) ∧ i.wf = true ∧ ∃ t, e = .ok t ∧ runCommand i s e = .next t.retire) := by
  unfold runCommand
  cases hs : s.err <;> cases hr : runsWhileFaulted i <;> cases hw : i.wf <;> cases e <;> simp

/-- A command at a unit that is not faulted, with its indices in range. -/
theorem runCommand_unfaulted {i : Instr} {s : State} (hs : s.err = false) (hw : i.wf = true) (e : Effect) :
    runCommand i s e = match e with
      | .ok t => .next t.retire
      | .error k => .next (s.raise k (encode i)) := by
  cases e <;> simp [runCommand, hs, hw]

theorem runCommand_ok {i : Instr} {s t : State} (hs : s.err = false) (hw : i.wf = true) :
    runCommand i s (.ok t) = .next t.retire := runCommand_unfaulted hs hw _

theorem runCommand_error {i : Instr} {s : State} {k : ErrKind} (hs : s.err = false) (hw : i.wf = true) :
    runCommand i s (.error k) = .next (s.raise k (encode i)) := runCommand_unfaulted hs hw _

/-- A command other than `CLRERR` and `ZERO` is dropped while the unit is faulted. -/
theorem runCommand_faulted {i : Instr} {s : State} (hs : s.err = true) (hr : runsWhileFaulted i = false) (e : Effect) :
    runCommand i s e = .next s.drop := by
  simp [runCommand, hs, hr]

/-! ## Operand forms -/

theorem State.srcF_full {s : State} {i : RegIdx} {e : FieldElement} (h : s.readF i = .full e) : s.srcF i = .ok e := by
  simp [State.srcF, h]

theorem State.srcF_empty {s : State} {i : RegIdx} (h : s.readF i = .empty) : s.srcF i = .error .emptyOperand := by
  simp [State.srcF, h]

theorem State.srcP_point {s : State} {j : RegIdx} {P : CurvePoint} (h : s.readP j = .point P) : s.srcP j = .ok P := by
  simp [State.srcP, h]

theorem State.srcP_empty {s : State} {j : RegIdx} (h : s.readP j = .empty) : s.srcP j = .error .emptyOperand := by
  simp [State.srcP, h]

/-- What a field source can answer. -/
theorem State.srcF_cases (s : State) (i : RegIdx) :
    (∃ e, s.readF i = .full e ∧ s.srcF i = .ok e) ∨ (s.readF i = .empty ∧ s.srcF i = .error .emptyOperand) := by
  cases h : s.readF i with
  | empty => exact .inr ⟨rfl, State.srcF_empty h⟩
  | full e => exact .inl ⟨e, rfl, State.srcF_full h⟩

/-- What a point source can answer. -/
theorem State.srcP_cases (s : State) (j : RegIdx) :
    (∃ P, s.readP j = .point P ∧ s.srcP j = .ok P) ∨ (s.readP j = .empty ∧ s.srcP j = .error .emptyOperand) := by
  cases h : s.readP j with
  | empty => exact .inr ⟨rfl, State.srcP_empty h⟩
  | point P => exact .inl ⟨P, rfl, State.srcP_point h⟩

/-- What two field sources can answer. -/
theorem State.srcFF_cases (s : State) (i j : RegIdx) :
    (∃ a b, s.readF i = .full a ∧ s.readF j = .full b ∧ s.srcFF i j = .ok (a, b)) ∨
    ((s.readF i = .empty ∨ s.readF j = .empty) ∧ s.srcFF i j = .error .emptyOperand) := by
  unfold State.srcFF
  rcases s.srcF_cases i with ⟨a, ha, ea⟩ | ⟨ha, ea⟩ <;> rcases s.srcF_cases j with ⟨b, hb, eb⟩ | ⟨hb, eb⟩ <;> simp [ha, ea, hb, eb]

/-- What two point sources can answer. -/
theorem State.srcPP_cases (s : State) (i j : RegIdx) :
    (∃ A B, s.readP i = .point A ∧ s.readP j = .point B ∧ s.srcPP i j = .ok (A, B)) ∨
    ((s.readP i = .empty ∨ s.readP j = .empty) ∧ s.srcPP i j = .error .emptyOperand) := by
  unfold State.srcPP
  rcases s.srcP_cases i with ⟨a, ha, ea⟩ | ⟨ha, ea⟩ <;> rcases s.srcP_cases j with ⟨b, hb, eb⟩ | ⟨hb, eb⟩ <;> simp [ha, ea, hb, eb]

/-- What a source that must be finite can answer. -/
theorem State.srcFin_cases (s : State) (j : RegIdx) :
    (∃ x y, s.readP j = .point (.fin x y) ∧ s.srcFin j = .ok (x, y)) ∨
    (s.readP j = .empty ∧ s.srcFin j = .error .emptyOperand) ∨
    (s.readP j = .point .inf ∧ s.srcFin j = .error .infinityOperand) := by
  unfold State.srcFin
  rcases s.srcP_cases j with ⟨P, hP, eP⟩ | ⟨hP, eP⟩
  · cases P with
    | inf => simp [hP, eP, coordinates]
    | fin x y => simp [hP, eP, coordinates]
  · simp [hP, eP]

/-- What the buffer operands can answer. -/
theorem State.srcBuffers_cases (s : State) :
    (s.klen.toNat ≤ 256 ∧ s.mlen.toNat ≤ 256 ∧
      s.srcBuffers = .ok (Memory.readBytes s.mem Config.keybufBase s.klen.toNat, Memory.readBytes s.mem Config.msgbufBase s.mlen.toNat)) ∨
    ((256 < s.klen.toNat ∨ 256 < s.mlen.toNat) ∧ s.srcBuffers = .error .bufferLength) := by
  unfold State.srcBuffers
  simp only [Config.keybufBytes, Config.msgbufBytes]
  by_cases h₁ : 256 < s.klen.toNat <;> by_cases h₂ : 256 < s.mlen.toNat <;> simp [h₁, h₂]
  omega

end Sys2Proof.Machine
end

