-- ==== Sys2Proof/Laws/Exec.lean ====
section
/-! SUPPORT. Every command as one frame around one effect, and what an effect can be: the provers' way into `exec`. -/

namespace Sys2Proof.Machine

/-- The effect each meaning hands to `runCommand`. -/
def effectOf : Instr → State → Effect
  | .clrerr, s => .ok s.clearRecord
  | .zero, s => .ok s.wipe
  | .fmake rd, s => if s.opm.toNat ≤ 1 then .error .invalidModulus else .ok (s.writeF rd ⟨reduceMod s.opm s.opa, s.opm⟩)
  | .fadd rd rs1 rs2, s => fieldBinary faddMod s rd rs1 rs2
  | .fsub rd rs1 rs2, s => fieldBinary fsubMod s rd rs1 rs2
  | .fmul rd rs1 rs2, s => fieldBinary fmulMod s rd rs1 rs2
  | .fdiv rd rs1 rs2, s => fieldDivide s rd rs1 rs2
  | .finv rd rs1, s => fieldInvert s rd rs1
  | .pmake rd rs1 rs2, s => makePoint s rd rs1 rs2
  | .pinf rd, s => .ok (s.writeP rd .inf)
  | .pldg rd, s => .ok (s.writeP rd gPoint)
  | .padd rd rs1 rs2, s => addPoints s rd rs1 rs2
  | .pgetx rd rs1, s => getCoordinate Prod.fst s rd rs1
  | .pgety rd rs1, s => getCoordinate Prod.snd s rd rs1
  | .pser rs1 m, s => serializePoint s rs1 m
  | .smul rd rs1 rs2, s => multiplyPoint s rd rs1 rs2
  | .kchk rs1, s => checkKey s rs1
  | .hmac, s => hashEffect hmac512 s
  | .pbkdf2, s => hashEffect pbkdf2_512 s
  | .mseed, s => hashEffect mnemonicSeed s

/-- A command is the frame around its effect. -/
theorem exec_eq (i : Instr) (s : State) : exec i s = runCommand i s (effectOf i s) := by
  cases i <;> rfl

/-- The field register a command writes. -/
def destF : Instr → Option RegIdx
  | .fmake rd => some rd
  | .fadd rd _ _ => some rd
  | .fsub rd _ _ => some rd
  | .fmul rd _ _ => some rd
  | .fdiv rd _ _ => some rd
  | .finv rd _ => some rd
  | .pgetx rd _ => some rd
  | .pgety rd _ => some rd
  | _ => none

/-- The point register a command writes. -/
def destP : Instr → Option RegIdx
  | .pmake rd _ _ => some rd
  | .pinf rd => some rd
  | .pldg rd => some rd
  | .padd rd _ _ => some rd
  | .smul rd _ _ => some rd
  | _ => none

/-- Whether a command writes `OUTBUF`. -/
def writesOut : Instr → Bool
  | .pser _ _ => true
  | .hmac => true
  | .pbkdf2 => true
  | .mseed => true
  | _ => false

/-- The destination of a well-formed command is one of the eight field registers. -/
theorem destF_lt {i : Instr} {j : RegIdx} (hi : i.wf = true) (h : destF i = some j) : j.toNat < 8 := by
  cases i <;> simp only [destF, Option.some.injEq, reduceCtorEq] at h <;> subst h <;>
    simp only [Instr.wf, Bool.and_eq_true, isField_iff] at hi <;> first | exact hi | exact hi.1 | exact hi.1.1

/-- The destination of a well-formed command is one of the four point registers. -/
theorem destP_lt {i : Instr} {j : RegIdx} (hi : i.wf = true) (h : destP i = some j) : j.toNat < 4 := by
  cases i <;> simp only [destP, Option.some.injEq, reduceCtorEq] at h <;> subst h <;>
    simp only [Instr.wf, Bool.and_eq_true, isPoint_iff] at hi <;> first | exact hi | exact hi.1 | exact hi.1.1

/-! ## The effects, said once each -/

/-- `FADD`, `FSUB`, `FMUL`. -/
theorem fieldBinary_cases (op : U256 → U256 → U256 → U256) (s : State) (rd rs1 rs2 : RegIdx) :
    ((s.readF rs1 = .empty ∨ s.readF rs2 = .empty) ∧ fieldBinary op s rd rs1 rs2 = .error .emptyOperand) ∨
    ∃ a b, s.readF rs1 = .full a ∧ s.readF rs2 = .full b ∧
      ((a.mod ≠ b.mod ∧ fieldBinary op s rd rs1 rs2 = .error .mismatchedModulus) ∨
       (a.mod = b.mod ∧ fieldBinary op s rd rs1 rs2 = .ok (s.writeF rd ⟨op a.mod a.val b.val, a.mod⟩))) := by
  unfold fieldBinary
  rcases s.srcFF_cases rs1 rs2 with ⟨a, b, ha, hb, e⟩ | ⟨h, e⟩
  · refine .inr ⟨a, b, ha, hb, ?_⟩
    by_cases h : a.mod = b.mod <;> simp [e, h]
  · exact .inl ⟨h, by simp [e]⟩

/-- `FDIV`. -/
theorem fieldDivide_cases (s : State) (rd rs1 rs2 : RegIdx) :
    ((s.readF rs1 = .empty ∨ s.readF rs2 = .empty) ∧ fieldDivide s rd rs1 rs2 = .error .emptyOperand) ∨
    ∃ a b, s.readF rs1 = .full a ∧ s.readF rs2 = .full b ∧
      ((b.val = 0 ∧ fieldDivide s rd rs1 rs2 = .error .divisionByZero) ∨
       (b.val ≠ 0 ∧ ∃ k, invMod b.mod.toNat b.val.toNat = .error k ∧ fieldDivide s rd rs1 rs2 = .error k) ∨
       (b.val ≠ 0 ∧ ∃ i, invMod b.mod.toNat b.val.toNat = .ok i ∧
         ((a.mod ≠ b.mod ∧ fieldDivide s rd rs1 rs2 = .error .mismatchedModulus) ∨
          (a.mod = b.mod ∧ fieldDivide s rd rs1 rs2 = .ok (s.writeF rd ⟨fmulMod a.mod a.val (BitVec.ofNat 256 i), a.mod⟩))))) := by
  unfold fieldDivide
  rcases s.srcFF_cases rs1 rs2 with ⟨a, b, ha, hb, e⟩ | ⟨h, e⟩
  · refine .inr ⟨a, b, ha, hb, ?_⟩
    by_cases h : b.val = 0
    · exact .inl ⟨h, by simp only [e, if_pos h]⟩
    · cases hi : invMod b.mod.toNat b.val.toNat with
      | error k => exact .inr (.inl ⟨h, k, rfl, by simp only [e, if_neg h, hi]⟩)
      | ok i =>
        refine .inr (.inr ⟨h, i, rfl, ?_⟩)
        by_cases hm : a.mod = b.mod
        · exact .inr ⟨hm, by simp only [e, if_neg h, hi, if_pos hm]⟩
        · exact .inl ⟨hm, by simp only [e, if_neg h, hi, if_neg hm]⟩
  · exact .inl ⟨h, by simp [e]⟩

/-- The inverse fails with nothing but `NoInverseExists`. -/
theorem invMod_error {m a : Nat} {k : ErrKind} (h : invMod m a = .error k) : k = .noInverseExists := by
  unfold invMod at h
  split at h
  split at h
  · cases h
  · cases h; rfl

/-- `FINV`. -/
theorem fieldInvert_cases (s : State) (rd rs1 : RegIdx) :
    (s.readF rs1 = .empty ∧ fieldInvert s rd rs1 = .error .emptyOperand) ∨
    ∃ a, s.readF rs1 = .full a ∧
      ((∃ k, invMod a.mod.toNat a.val.toNat = .error k ∧ fieldInvert s rd rs1 = .error k) ∨
       ∃ t, invMod a.mod.toNat a.val.toNat = .ok t ∧ fieldInvert s rd rs1 = .ok (s.writeF rd ⟨BitVec.ofNat 256 t, a.mod⟩)) := by
  unfold fieldInvert
  rcases s.srcF_cases rs1 with ⟨a, ha, e⟩ | ⟨h, e⟩
  · refine .inr ⟨a, ha, ?_⟩
    cases hi : invMod a.mod.toNat a.val.toNat <;> simp [e, hi]
  · exact .inl ⟨h, by simp [e]⟩

/-- `PMAKE`. -/
theorem makePoint_cases (s : State) (rd rs1 rs2 : RegIdx) :
    ((s.readF rs1 = .empty ∨ s.readF rs2 = .empty) ∧ makePoint s rd rs1 rs2 = .error .emptyOperand) ∨
    ∃ a b, s.readF rs1 = .full a ∧ s.readF rs2 = .full b ∧
      (((a.mod ≠ pFieldWord ∨ b.mod ≠ pFieldWord) ∧ makePoint s rd rs1 rs2 = .error .mismatchedModulus) ∨
       (a.mod = pFieldWord ∧ b.mod = pFieldWord ∧ makePoint s rd rs1 rs2 = .ok (s.writeP rd (.fin a.val b.val)))) := by
  unfold makePoint
  rcases s.srcFF_cases rs1 rs2 with ⟨a, b, ha, hb, e⟩ | ⟨h, e⟩
  · refine .inr ⟨a, b, ha, hb, ?_⟩
    by_cases h₁ : a.mod = pFieldWord <;> by_cases h₂ : b.mod = pFieldWord <;> simp [e, h₁, h₂]
  · exact .inl ⟨h, by simp [e]⟩

/-- `PADD`. -/
theorem addPoints_cases (s : State) (rd rs1 rs2 : RegIdx) :
    ((s.readP rs1 = .empty ∨ s.readP rs2 = .empty) ∧ addPoints s rd rs1 rs2 = .error .emptyOperand) ∨
    ∃ A B, s.readP rs1 = .point A ∧ s.readP rs2 = .point B ∧
      ((∃ k, pointAdd A B = .error k ∧ addPoints s rd rs1 rs2 = .error k) ∨
       ∃ C, pointAdd A B = .ok C ∧ addPoints s rd rs1 rs2 = .ok (s.writeP rd C)) := by
  unfold addPoints
  rcases s.srcPP_cases rs1 rs2 with ⟨A, B, hA, hB, e⟩ | ⟨h, e⟩
  · refine .inr ⟨A, B, hA, hB, ?_⟩
    cases hi : pointAdd A B <;> simp [e, hi]
  · exact .inl ⟨h, by simp [e]⟩

/-- `PGETX`, `PGETY`. -/
theorem getCoordinate_cases (pick : U256 × U256 → U256) (s : State) (rd rs1 : RegIdx) :
    (s.readP rs1 = .empty ∧ getCoordinate pick s rd rs1 = .error .emptyOperand) ∨
    (s.readP rs1 = .point .inf ∧ getCoordinate pick s rd rs1 = .error .infinityOperand) ∨
    ∃ x y, s.readP rs1 = .point (.fin x y) ∧ getCoordinate pick s rd rs1 = .ok (s.writeF rd ⟨pick (x, y), pFieldWord⟩) := by
  unfold getCoordinate
  rcases s.srcFin_cases rs1 with ⟨x, y, h, e⟩ | ⟨h, e⟩ | ⟨h, e⟩
  · exact .inr (.inr ⟨x, y, h, by simp [e]⟩)
  · exact .inl ⟨h, by simp [e]⟩
  · exact .inr (.inl ⟨h, by simp [e]⟩)

/-- `PSER`. -/
theorem serializePoint_cases (s : State) (rs1 : RegIdx) (m : Bool) :
    (s.readP rs1 = .empty ∧ serializePoint s rs1 m = .error .emptyOperand) ∨
    (s.readP rs1 = .point .inf ∧ serializePoint s rs1 m = .error .infinityOperand) ∨
    ∃ x y, s.readP rs1 = .point (.fin x y) ∧ serializePoint s rs1 m = .ok (s.writeOut (serialize x y m)) := by
  unfold serializePoint
  rcases s.srcFin_cases rs1 with ⟨x, y, h, e⟩ | ⟨h, e⟩ | ⟨h, e⟩
  · exact .inr (.inr ⟨x, y, h, by simp [e]⟩)
  · exact .inl ⟨h, by simp [e]⟩
  · exact .inr (.inl ⟨h, by simp [e]⟩)

theorem serialize_length (x y : U256) (m : Bool) : (serialize x y m).length = if m then 33 else 65 := by
  cases m <;> simp [serialize]

/-- `SMUL`. -/
theorem multiplyPoint_cases (s : State) (rd rs1 rs2 : RegIdx) :
    ((s.readF rs1 = .empty ∨ s.readP rs2 = .empty) ∧ multiplyPoint s rd rs1 rs2 = .error .emptyOperand) ∨
    ∃ a P, s.readF rs1 = .full a ∧ s.readP rs2 = .point P ∧
      ((∃ k, scalarMul a.val.toNat P = .error k ∧ multiplyPoint s rd rs1 rs2 = .error k) ∨
       ∃ C, scalarMul a.val.toNat P = .ok C ∧ multiplyPoint s rd rs1 rs2 = .ok (s.writeP rd C)) := by
  unfold multiplyPoint
  rcases s.srcF_cases rs1 with ⟨a, ha, ea⟩ | ⟨ha, ea⟩
  · rcases s.srcP_cases rs2 with ⟨P, hP, eP⟩ | ⟨hP, eP⟩
    · refine .inr ⟨a, P, ha, hP, ?_⟩
      cases hi : scalarMul a.val.toNat P <;> simp [ea, eP, hi]
    · exact .inl ⟨.inr hP, by simp [ea, eP]⟩
  · exact .inl ⟨.inl ha, by simp [ea]⟩

/-- `KCHK`. -/
theorem checkKey_cases (s : State) (rs1 : RegIdx) :
    (s.readF rs1 = .empty ∧ checkKey s rs1 = .error .emptyOperand) ∨
    ∃ a, s.readF rs1 = .full a ∧
      (((a.val.toNat = 0 ∨ Config.nOrder ≤ a.val.toNat) ∧ checkKey s rs1 = .error .invalidPrivateKeyRange) ∨
       (¬ (a.val.toNat = 0 ∨ Config.nOrder ≤ a.val.toNat) ∧ checkKey s rs1 = .ok s)) := by
  unfold checkKey
  rcases s.srcF_cases rs1 with ⟨a, ha, ea⟩ | ⟨ha, ea⟩
  · refine .inr ⟨a, ha, ?_⟩
    by_cases h : a.val.toNat = 0 ∨ Config.nOrder ≤ a.val.toNat
    · exact .inl ⟨h, by simp only [ea, if_pos h]⟩
    · exact .inr ⟨h, by simp only [ea, if_neg h]⟩
  · exact .inl ⟨ha, by simp [ea]⟩

/-- `HMAC`, `PBKDF2`, `MSEED`. -/
theorem hashEffect_cases (digest : List Byte → List Byte → List Byte) (s : State) :
    ((256 < s.klen.toNat ∨ 256 < s.mlen.toNat) ∧ hashEffect digest s = .error .bufferLength) ∨
    (s.klen.toNat ≤ 256 ∧ s.mlen.toNat ≤ 256 ∧ hashEffect digest s = .ok (s.writeOut
      (digest (Memory.readBytes s.mem Config.keybufBase s.klen.toNat) (Memory.readBytes s.mem Config.msgbufBase s.mlen.toNat)))) := by
  unfold hashEffect
  rcases s.srcBuffers_cases with ⟨h₁, h₂, e⟩ | ⟨h, e⟩
  · exact .inr ⟨h₁, h₂, by simp [e]⟩
  · exact .inl ⟨h, by simp [e]⟩

/-! ## What every effect can be -/

/-- A command fails with a kind of its own list (spec/60_exceptions.md R242). -/
theorem effectOf_error {i : Instr} {s : State} {k : ErrKind} (h : effectOf i s = .error k) : k ∈ raisable i := by
  cases i with
  | clrerr => cases h
  | zero => cases h
  | fmake rd =>
    simp only [effectOf] at h
    split at h
    · cases h; simp [raisable]
    · cases h
  | fadd rd rs1 rs2 | fsub rd rs1 rs2 | fmul rd rs1 rs2 =>
    simp only [effectOf] at h
    rcases fieldBinary_cases _ s rd rs1 rs2 with ⟨-, e⟩ | ⟨a, b, -, -, ⟨-, e⟩ | ⟨-, e⟩⟩ <;> rw [e] at h <;> cases h <;> simp [raisable]
  | fdiv rd rs1 rs2 =>
    simp only [effectOf] at h
    rcases fieldDivide_cases s rd rs1 rs2 with ⟨-, e⟩ | ⟨a, b, -, -, ⟨-, e⟩ | ⟨-, k', hk, e⟩ | ⟨-, j, -, ⟨-, e⟩ | ⟨-, e⟩⟩⟩ <;> rw [e] at h <;> cases h
    · simp [raisable]
    · simp [raisable]
    · rw [invMod_error hk]; simp [raisable]
    · simp [raisable]
  | finv rd rs1 =>
    simp only [effectOf] at h
    rcases fieldInvert_cases s rd rs1 with ⟨-, e⟩ | ⟨a, -, ⟨k', hk, e⟩ | ⟨t, -, e⟩⟩ <;> rw [e] at h <;> cases h
    · simp [raisable]
    · rw [invMod_error hk]; simp [raisable]
  | pmake rd rs1 rs2 =>
    simp only [effectOf] at h
    rcases makePoint_cases s rd rs1 rs2 with ⟨-, e⟩ | ⟨a, b, -, -, ⟨-, e⟩ | ⟨-, -, e⟩⟩ <;> rw [e] at h <;> cases h <;> simp [raisable]
  | pinf rd => cases h
  | pldg rd => cases h
  | padd rd rs1 rs2 =>
    simp only [effectOf] at h
    rcases addPoints_cases s rd rs1 rs2 with ⟨-, e⟩ | ⟨a, b, -, -, ⟨k', hk, e⟩ | ⟨t, -, e⟩⟩ <;> rw [e] at h <;> cases h
    · simp [raisable]
    · rw [pointAdd_error hk]; simp [raisable]
  | pgetx rd rs1 | pgety rd rs1 =>
    simp only [effectOf] at h
    rcases getCoordinate_cases _ s rd rs1 with ⟨-, e⟩ | ⟨-, e⟩ | ⟨x, y, -, e⟩ <;> rw [e] at h <;> cases h <;> simp [raisable]
  | pser rs1 m =>
    simp only [effectOf] at h
    rcases serializePoint_cases s rs1 m with ⟨-, e⟩ | ⟨-, e⟩ | ⟨x, y, -, e⟩ <;> rw [e] at h <;> cases h <;> simp [raisable]
  | smul rd rs1 rs2 =>
    simp only [effectOf] at h
    rcases multiplyPoint_cases s rd rs1 rs2 with ⟨-, e⟩ | ⟨a, b, -, -, ⟨k', hk, e⟩ | ⟨t, -, e⟩⟩ <;> rw [e] at h <;> cases h
    · simp [raisable]
    · rw [scalarMul_error hk]; simp [raisable]
  | kchk rs1 =>
    simp only [effectOf] at h
    rcases checkKey_cases s rs1 with ⟨-, e⟩ | ⟨a, -, ⟨-, e⟩ | ⟨-, e⟩⟩ <;> rw [e] at h <;> cases h <;> simp [raisable]
  | hmac | pbkdf2 | mseed =>
    simp only [effectOf] at h
    rcases hashEffect_cases _ s with ⟨-, e⟩ | ⟨-, -, e⟩ <;> rw [e] at h <;> cases h
    simp [raisable]

/-- The registers of a state are canonical. -/
def State.Regular (s : State) : Prop := (∀ i, (s.readF i).Canonical) ∧ ∀ j, (s.readP j).Canonical

/-- The ring helpers give numbers below the modulus. -/
theorem faddMod_lt (m a b : U256) (h : 0 < m.toNat) : (faddMod m a b).toNat < m.toNat := by
  rw [faddMod_toNat _ _ _ h]; exact Nat.mod_lt _ h
theorem fmulMod_lt (m a b : U256) (h : 0 < m.toNat) : (fmulMod m a b).toNat < m.toNat := by
  rw [fmulMod_toNat _ _ _ h]; exact Nat.mod_lt _ h
theorem fsubMod_lt (m a b : U256) (h : 0 < m.toNat) : (fsubMod m a b).toNat < m.toNat := by
  have h₁ := fsubMod_toNat m a b h
  have h₂ := Int.emod_lt_of_pos ((a.toNat : Int) - b.toNat) (b := (m.toNat : Int)) (by omega)
  omega

/-- What a command that succeeds did: one write, to its own destination, and of a canonical value if the registers were canonical; or, for `CLRERR`, `ZERO` and
`KCHK`, what their rules say. -/
theorem effectOf_ok {i : Instr} {s t : State} (h : effectOf i s = .ok t) :
    (i = .clrerr ∧ t = s.clearRecord) ∨ (i = .zero ∧ t = s.wipe) ∨ ((∃ j, i = .kchk j) ∧ t = s) ∨
    (∃ j e, destF i = some j ∧ t = s.writeF j e ∧ (s.Regular → (FieldReg.full e).Canonical)) ∨
    (∃ j P, destP i = some j ∧ t = s.writeP j P ∧ (s.Regular → P.Canonical)) ∨
    (writesOut i = true ∧ ∃ X : List Byte, t = s.writeOut X ∧ X.length ∈ [33, 64, 65]) := by
  have hF : ∀ j e, destF i = some j → (s.Regular → (FieldReg.full e).Canonical) → t = s.writeF j e →
      (∃ j e, destF i = some j ∧ t = s.writeF j e ∧ (s.Regular → (FieldReg.full e).Canonical)) := fun j e h₁ h₂ h₃ => ⟨j, e, h₁, h₃, h₂⟩
  cases i with
  | clrerr => cases h; exact .inl ⟨rfl, rfl⟩
  | zero => cases h; exact .inr (.inl ⟨rfl, rfl⟩)
  | fmake rd =>
    simp only [effectOf] at h
    split at h
    · cases h
    · rename_i hm
      cases h
      refine .inr (.inr (.inr (.inl (hF rd _ rfl (fun _ => ⟨Nat.lt_of_not_le hm, ?_⟩) rfl))))
      change (reduceMod s.opm s.opa).toNat < s.opm.toNat
      rw [reduceMod_toNat _ _ (by omega)]
      exact Nat.mod_lt _ (by omega)
  | fadd rd rs1 rs2 | fsub rd rs1 rs2 | fmul rd rs1 rs2 =>
    simp only [effectOf] at h
    rcases fieldBinary_cases _ s rd rs1 rs2 with ⟨-, e⟩ | ⟨a, b, ha, hb, ⟨-, e⟩ | ⟨-, e⟩⟩ <;> rw [e] at h <;> cases h
    refine .inr (.inr (.inr (.inl (hF rd _ rfl (fun hR => ?_) rfl))))
    have hc := hR.1 rs1
    rw [ha] at hc
    have hp : 0 < a.mod.toNat := lt_trans Nat.zero_lt_one hc.1
    first
      | exact ⟨hc.1, faddMod_lt _ _ _ hp⟩
      | exact ⟨hc.1, fsubMod_lt _ _ _ hp⟩
      | exact ⟨hc.1, fmulMod_lt _ _ _ hp⟩
  | fdiv rd rs1 rs2 =>
    simp only [effectOf] at h
    rcases fieldDivide_cases s rd rs1 rs2 with ⟨-, e⟩ | ⟨a, b, ha, hb, ⟨-, e⟩ | ⟨-, k', hk, e⟩ | ⟨-, j, -, ⟨-, e⟩ | ⟨-, e⟩⟩⟩ <;> rw [e] at h <;> cases h
    refine .inr (.inr (.inr (.inl (hF rd _ rfl (fun hR => ?_) rfl))))
    have hc := hR.1 rs1
    rw [ha] at hc
    exact ⟨hc.1, fmulMod_lt _ _ _ (lt_trans Nat.zero_lt_one hc.1)⟩
  | finv rd rs1 =>
    simp only [effectOf] at h
    rcases fieldInvert_cases s rd rs1 with ⟨-, e⟩ | ⟨a, ha, ⟨k', hk, e⟩ | ⟨t', ht, e⟩⟩ <;> rw [e] at h <;> cases h
    refine .inr (.inr (.inr (.inl (hF rd _ rfl (fun hR => ?_) rfl))))
    have hc := hR.1 rs1
    rw [ha] at hc
    rcases invMod_cases hc.1 a.mod.isLt hc.2 with ⟨-, u, hu, hl, -⟩ | ⟨-, he⟩
    · rw [ht] at hu
      cases hu
      refine ⟨hc.1, ?_⟩
      change (BitVec.ofNat 256 t').toNat < _
      rwa [toNat_ofNat_of_lt (lt_trans hl a.mod.isLt)]
    · rw [ht] at he; cases he
  | pmake rd rs1 rs2 =>
    simp only [effectOf] at h
    rcases makePoint_cases s rd rs1 rs2 with ⟨-, e⟩ | ⟨a, b, ha, hb, ⟨-, e⟩ | ⟨h₁, h₂, e⟩⟩ <;> rw [e] at h <;> cases h
    refine .inr (.inr (.inr (.inr (.inl ⟨rd, _, rfl, rfl, fun hR => ?_⟩))))
    have hca := hR.1 rs1
    have hcb := hR.1 rs2
    rw [ha] at hca
    rw [hb] at hcb
    have e₁ : a.mod.toNat = Config.pField := by rw [h₁]; exact pFieldWord_toNat
    have e₂ : b.mod.toNat = Config.pField := by rw [h₂]; exact pFieldWord_toNat
    exact ⟨e₁ ▸ hca.2, e₂ ▸ hcb.2⟩
  | pinf rd => cases h; exact .inr (.inr (.inr (.inr (.inl ⟨rd, _, rfl, rfl, fun _ => by trivial⟩))))
  | pldg rd => cases h; exact .inr (.inr (.inr (.inr (.inl ⟨rd, _, rfl, rfl, fun _ => gPoint_canonical⟩))))
  | padd rd rs1 rs2 =>
    simp only [effectOf] at h
    rcases addPoints_cases s rd rs1 rs2 with ⟨-, e⟩ | ⟨A, B, hA, hB, ⟨k', hk, e⟩ | ⟨C, hC, e⟩⟩ <;> rw [e] at h <;> cases h
    refine .inr (.inr (.inr (.inr (.inl ⟨rd, _, rfl, rfl, fun hR => ?_⟩))))
    have hca := hR.2 rs1
    have hcb := hR.2 rs2
    rw [hA] at hca
    rw [hB] at hcb
    exact pointAdd_canonical hca hcb hC
  | pgetx rd rs1 | pgety rd rs1 =>
    simp only [effectOf] at h
    rcases getCoordinate_cases _ s rd rs1 with ⟨-, e⟩ | ⟨-, e⟩ | ⟨x, y, hp, e⟩ <;> rw [e] at h <;> cases h
    refine .inr (.inr (.inr (.inl (hF rd _ rfl (fun hR => ?_) rfl))))
    have hc := hR.2 rs1
    rw [hp] at hc
    have e₁ : pFieldWord.toNat = Config.pField := pFieldWord_toNat
    first
      | exact ⟨by rw [e₁]; decide, by rw [e₁]; exact hc.1⟩
      | exact ⟨by rw [e₁]; decide, by rw [e₁]; exact hc.2⟩
  | pser rs1 m =>
    simp only [effectOf] at h
    rcases serializePoint_cases s rs1 m with ⟨-, e⟩ | ⟨-, e⟩ | ⟨x, y, -, e⟩ <;> rw [e] at h <;> cases h
    refine .inr (.inr (.inr (.inr (.inr ⟨rfl, _, rfl, ?_⟩))))
    rw [serialize_length]
    cases m <;> simp
  | smul rd rs1 rs2 =>
    simp only [effectOf] at h
    rcases multiplyPoint_cases s rd rs1 rs2 with ⟨-, e⟩ | ⟨a, P, -, hP, ⟨k', hk, e⟩ | ⟨C, hC, e⟩⟩ <;> rw [e] at h <;> cases h
    refine .inr (.inr (.inr (.inr (.inl ⟨rd, _, rfl, rfl, fun hR => ?_⟩))))
    have hcp := hR.2 rs2
    rw [hP] at hcp
    exact scalarMul_canonical hcp hC
  | kchk rs1 =>
    simp only [effectOf] at h
    rcases checkKey_cases s rs1 with ⟨-, e⟩ | ⟨a, -, ⟨-, e⟩ | ⟨-, e⟩⟩ <;> rw [e] at h <;> cases h
    exact .inr (.inr (.inl ⟨⟨_, rfl⟩, rfl⟩))
  | hmac | pbkdf2 | mseed =>
    simp only [effectOf] at h
    rcases hashEffect_cases _ s with ⟨-, e⟩ | ⟨-, -, e⟩ <;> rw [e] at h <;> cases h
    exact .inr (.inr (.inr (.inr (.inr ⟨rfl, _, rfl, by simp⟩))))

/-- What executing a command can do, said once. -/
theorem exec_cases (i : Instr) (s : State) :
    (s.err = true ∧ runsWhileFaulted i = false ∧ exec i s = .next s.drop) ∨
    ((s.err = false ∨ runsWhileFaulted i = true) ∧ i.wf = false ∧ exec i s = .next (s.raise .illegalCommand (encode i))) ∨
    ((s.err = false ∨ runsWhileFaulted i = true) ∧ i.wf = true ∧ ∃ k ∈ raisable i, exec i s = .next (s.raise k (encode i))) ∨
    ((s.err = false ∨ runsWhileFaulted i = true) ∧ i.wf = true ∧ ∃ t, effectOf i s = .ok t ∧ exec i s = .next t.retire) := by
  rw [exec_eq]
  rcases runCommand_cases i s (effectOf i s) with h | h | ⟨h₁, h₂, k, hk, e⟩ | h
  · exact .inl h
  · exact .inr (.inl h)
  · exact .inr (.inr (.inl ⟨h₁, h₂, k, effectOf_error hk, e⟩))
  · exact .inr (.inr (.inr h))

/-- A command that succeeds at a unit that is not faulted. -/
theorem exec_of_ok {i : Instr} {s t : State} (hs : s.err = false) (hw : i.wf = true) (h : effectOf i s = .ok t) : exec i s = .next t.retire := by
  rw [exec_eq, h, runCommand_ok hs hw]

/-- A command that fails at a unit that is not faulted. -/
theorem exec_of_error {i : Instr} {s : State} {k : ErrKind} (hs : s.err = false) (hw : i.wf = true) (h : effectOf i s = .error k) :
    exec i s = .next (s.raise k (encode i)) := by
  rw [exec_eq, h, runCommand_error hs hw]

/-- What a command leaves of the registers and buffers, said once: nothing is written, or everything is wiped by `ZERO`, or one destination is written. -/
theorem exec_writes {i : Instr} {s t : State} (h : exec i s = .next t) :
    (t.f = s.f ∧ t.p = s.p ∧ t.opa = s.opa ∧ t.opm = s.opm ∧ t.klen = s.klen ∧ t.mlen = s.mlen ∧ t.mem = s.mem ∧ t.olen = s.olen) ∨
    (i = .zero ∧ t = s.wipe.retire) ∨
    (i.wf = true ∧ ∃ j e, destF i = some j ∧ t = (s.writeF j e).retire) ∨
    (i.wf = true ∧ ∃ j P, destP i = some j ∧ t = (s.writeP j P).retire) ∨
    (writesOut i = true ∧ ∃ X : List Byte, t = (s.writeOut X).retire ∧ X.length ∈ [33, 64, 65]) := by
  rcases exec_cases i s with ⟨-, -, he⟩ | ⟨-, -, he⟩ | ⟨-, -, k, -, he⟩ | ⟨-, hw, u, hu, he⟩
  all_goals rw [he] at h; cases h
  · exact .inl ⟨rfl, rfl, rfl, rfl, rfl, rfl, rfl, rfl⟩
  · exact .inl ⟨rfl, rfl, rfl, rfl, rfl, rfl, rfl, rfl⟩
  · exact .inl ⟨rfl, rfl, rfl, rfl, rfl, rfl, rfl, rfl⟩
  · rcases effectOf_ok hu with ⟨-, rfl⟩ | ⟨hi, rfl⟩ | ⟨-, rfl⟩ | ⟨j, e, hd, rfl, -⟩ | ⟨j, P, hd, rfl, -⟩ | ⟨ho, X, rfl, hX⟩
    · exact .inl ⟨rfl, rfl, rfl, rfl, rfl, rfl, rfl, rfl⟩
    · exact .inr (.inl ⟨hi, rfl⟩)
    · exact .inl ⟨rfl, rfl, rfl, rfl, rfl, rfl, rfl, rfl⟩
    · exact .inr (.inr (.inl ⟨hw, j, e, hd, rfl⟩))
    · exact .inr (.inr (.inr (.inl ⟨hw, j, P, hd, rfl⟩)))
    · exact .inr (.inr (.inr (.inr ⟨ho, X, rfl, hX⟩)))

/-! ## A command does not look at `PEND` -/

theorem hashEffect_pend (digest : List Byte → List Byte → List Byte) (s : State) (w : Option Word) :
    hashEffect digest { s with pend := w } = (hashEffect digest s).map fun t => { t with pend := w } := by
  have hB : State.srcBuffers { s with pend := w } = s.srcBuffers := rfl
  unfold hashEffect
  rw [hB]
  cases s.srcBuffers <;> rfl

/-- The same effect, whatever is pending. -/
theorem effectOf_pend (i : Instr) (s : State) (w : Option Word) :
    effectOf i { s with pend := w } = (effectOf i s).map fun t => { t with pend := w } := by
  have hF : ∀ j, State.srcF { s with pend := w } j = s.srcF j := fun _ => rfl
  have hP : ∀ j, State.srcP { s with pend := w } j = s.srcP j := fun _ => rfl
  have hFF : ∀ j k, State.srcFF { s with pend := w } j k = s.srcFF j k := fun _ _ => rfl
  have hPP : ∀ j k, State.srcPP { s with pend := w } j k = s.srcPP j k := fun _ _ => rfl
  have hX : ∀ j, State.srcFin { s with pend := w } j = s.srcFin j := fun _ => rfl
  cases i with
  | clrerr => rfl
  | zero => rfl
  | fmake rd => simp only [effectOf]; split <;> rfl
  | fadd rd rs1 rs2 | fsub rd rs1 rs2 | fmul rd rs1 rs2 =>
    simp only [effectOf, fieldBinary, hFF]
    cases s.srcFF rs1 rs2 with
    | error k => rfl
    | ok x => dsimp only; split <;> rfl
  | fdiv rd rs1 rs2 =>
    simp only [effectOf, fieldDivide, hFF]
    cases s.srcFF rs1 rs2 with
    | error k => rfl
    | ok x =>
      dsimp only
      split
      · rfl
      · cases invMod x.2.mod.toNat x.2.val.toNat with
        | error k => rfl
        | ok y => dsimp only; split <;> rfl
  | finv rd rs1 =>
    simp only [effectOf, fieldInvert, hF]
    cases s.srcF rs1 with
    | error k => rfl
    | ok x =>
      dsimp only
      cases invMod x.mod.toNat x.val.toNat <;> rfl
  | pmake rd rs1 rs2 =>
    simp only [effectOf, makePoint, hFF]
    cases s.srcFF rs1 rs2 with
    | error k => rfl
    | ok x =>
      dsimp only
      split
      · split <;> rfl
      · rfl
  | pinf rd => rfl
  | pldg rd => rfl
  | padd rd rs1 rs2 =>
    simp only [effectOf, addPoints, hPP]
    cases s.srcPP rs1 rs2 with
    | error k => rfl
    | ok x =>
      dsimp only
      cases pointAdd x.1 x.2 <;> rfl
  | pgetx rd rs1 | pgety rd rs1 =>
    simp only [effectOf, getCoordinate, hX]
    cases s.srcFin rs1 <;> rfl
  | pser rs1 m =>
    simp only [effectOf, serializePoint, hX]
    cases s.srcFin rs1 <;> rfl
  | smul rd rs1 rs2 =>
    simp only [effectOf, multiplyPoint, hF, hP]
    cases s.srcF rs1 with
    | error k => rfl
    | ok x =>
      cases s.srcP rs2 with
      | error k => rfl
      | ok P =>
        dsimp only
        cases scalarMul x.val.toNat P <;> rfl
  | kchk rs1 =>
    simp only [effectOf, checkKey, hF]
    cases s.srcF rs1 with
    | error k => rfl
    | ok x => dsimp only; split <;> rfl
  | hmac | pbkdf2 | mseed =>
    exact hashEffect_pend _ s w

/-- The same outcome, whatever is pending. -/
theorem exec_pend (i : Instr) (s : State) (w : Option Word) : exec i { s with pend := w } = exec i s := by
  rw [exec_eq, exec_eq, effectOf_pend]
  unfold runCommand
  split
  · rfl
  · split
    · cases effectOf i s <;> rfl
    · rfl

end Sys2Proof.Machine
end

