-- ==== Sys2Proof/Laws/PerInstr.lean ====
section
/-! SUPPORT. Statements about every command as syntax, one lemma per constructor of Instr. -/

namespace Sys2Proof.Laws

/-! ## EncodingFits: the word of a well-formed command fits its row of the opcode map, and the row builds the command back -/

/-- The word of a well-formed command carries the opcode of a row of the opcode map, fits the row's format, and the row's fields are the
command's operands (spec/30_encoding.md R83, R84, R88). -/
def EncodingFits.Statement (i : Instr) : Prop :=
  i.WellFormed → ∃ r ∈ opcodeMap, opField (encode i) = r.op ∧ r.format.Fits (encode i) ∧ r.build (encode i) = i

/-- How each constructor's lemma is proved: its row is number `n` of the map. -/
theorem encodingFits_of_row {i : Instr} (n : Nat) (r : OpRow) (hr : opcodeMap[n]? = some r)
    (h : i.WellFormed → opField (encode i) = r.op ∧ r.format.Fits (encode i) ∧ r.build (encode i) = i) : EncodingFits.Statement i :=
  fun hw => ⟨r, List.mem_of_getElem? hr, h hw⟩

theorem EncodingFits.clrerr : EncodingFits.Statement (.clrerr) := by
  refine encodingFits_of_row 0 _ rfl fun hw => ?_
  simp_all [encode, Instr.WellFormed, Instr.wf, Format.Fits, Slot.allows, Format.z]

theorem EncodingFits.zero : EncodingFits.Statement (.zero) := by
  refine encodingFits_of_row 1 _ rfl fun hw => ?_
  simp_all [encode, Instr.WellFormed, Instr.wf, Format.Fits, Slot.allows, Format.z]

theorem EncodingFits.fmake (rd : RegIdx) : EncodingFits.Statement (.fmake rd) := by
  refine encodingFits_of_row 2 _ rfl fun hw => ?_
  simp_all [encode, Instr.WellFormed, Instr.wf, Format.Fits, Slot.allows, Format.fd]

theorem EncodingFits.fadd (rd : RegIdx) (rs1 : RegIdx) (rs2 : RegIdx) : EncodingFits.Statement (.fadd rd rs1 rs2) := by
  refine encodingFits_of_row 3 _ rfl fun hw => ?_
  simp_all [encode, Instr.WellFormed, Instr.wf, Format.Fits, Slot.allows, Format.fdFF]

theorem EncodingFits.fsub (rd : RegIdx) (rs1 : RegIdx) (rs2 : RegIdx) : EncodingFits.Statement (.fsub rd rs1 rs2) := by
  refine encodingFits_of_row 4 _ rfl fun hw => ?_
  simp_all [encode, Instr.WellFormed, Instr.wf, Format.Fits, Slot.allows, Format.fdFF]

theorem EncodingFits.fmul (rd : RegIdx) (rs1 : RegIdx) (rs2 : RegIdx) : EncodingFits.Statement (.fmul rd rs1 rs2) := by
  refine encodingFits_of_row 5 _ rfl fun hw => ?_
  simp_all [encode, Instr.WellFormed, Instr.wf, Format.Fits, Slot.allows, Format.fdFF]

theorem EncodingFits.fdiv (rd : RegIdx) (rs1 : RegIdx) (rs2 : RegIdx) : EncodingFits.Statement (.fdiv rd rs1 rs2) := by
  refine encodingFits_of_row 6 _ rfl fun hw => ?_
  simp_all [encode, Instr.WellFormed, Instr.wf, Format.Fits, Slot.allows, Format.fdFF]

theorem EncodingFits.finv (rd : RegIdx) (rs1 : RegIdx) : EncodingFits.Statement (.finv rd rs1) := by
  refine encodingFits_of_row 7 _ rfl fun hw => ?_
  simp_all [encode, Instr.WellFormed, Instr.wf, Format.Fits, Slot.allows, Format.fdF]

theorem EncodingFits.pmake (rd : RegIdx) (rs1 : RegIdx) (rs2 : RegIdx) : EncodingFits.Statement (.pmake rd rs1 rs2) := by
  refine encodingFits_of_row 8 _ rfl fun hw => ?_
  simp_all [encode, Instr.WellFormed, Instr.wf, Format.Fits, Slot.allows, Format.pdFF]

theorem EncodingFits.pinf (rd : RegIdx) : EncodingFits.Statement (.pinf rd) := by
  refine encodingFits_of_row 9 _ rfl fun hw => ?_
  simp_all [encode, Instr.WellFormed, Instr.wf, Format.Fits, Slot.allows, Format.pd]

theorem EncodingFits.pldg (rd : RegIdx) : EncodingFits.Statement (.pldg rd) := by
  refine encodingFits_of_row 10 _ rfl fun hw => ?_
  simp_all [encode, Instr.WellFormed, Instr.wf, Format.Fits, Slot.allows, Format.pd]

theorem EncodingFits.padd (rd : RegIdx) (rs1 : RegIdx) (rs2 : RegIdx) : EncodingFits.Statement (.padd rd rs1 rs2) := by
  refine encodingFits_of_row 11 _ rfl fun hw => ?_
  simp_all [encode, Instr.WellFormed, Instr.wf, Format.Fits, Slot.allows, Format.pdPP]

theorem EncodingFits.pgetx (rd : RegIdx) (rs1 : RegIdx) : EncodingFits.Statement (.pgetx rd rs1) := by
  refine encodingFits_of_row 12 _ rfl fun hw => ?_
  simp_all [encode, Instr.WellFormed, Instr.wf, Format.Fits, Slot.allows, Format.fdP]

theorem EncodingFits.pgety (rd : RegIdx) (rs1 : RegIdx) : EncodingFits.Statement (.pgety rd rs1) := by
  refine encodingFits_of_row 13 _ rfl fun hw => ?_
  simp_all [encode, Instr.WellFormed, Instr.wf, Format.Fits, Slot.allows, Format.fdP]

theorem EncodingFits.pser (rs1 : RegIdx) (m : Bool) : EncodingFits.Statement (.pser rs1 m) := by
  refine encodingFits_of_row 14 _ rfl fun hw => ?_
  simp_all [encode, Instr.WellFormed, Instr.wf, Format.Fits, Slot.allows, Format.pm]

theorem EncodingFits.smul (rd : RegIdx) (rs1 : RegIdx) (rs2 : RegIdx) : EncodingFits.Statement (.smul rd rs1 rs2) := by
  refine encodingFits_of_row 15 _ rfl fun hw => ?_
  simp_all [encode, Instr.WellFormed, Instr.wf, Format.Fits, Slot.allows, Format.pdFP]

theorem EncodingFits.kchk (rs1 : RegIdx) : EncodingFits.Statement (.kchk rs1) := by
  refine encodingFits_of_row 16 _ rfl fun hw => ?_
  simp_all [encode, Instr.WellFormed, Instr.wf, Format.Fits, Slot.allows, Format.fs]

theorem EncodingFits.hmac : EncodingFits.Statement (.hmac) := by
  refine encodingFits_of_row 17 _ rfl fun hw => ?_
  simp_all [encode, Instr.WellFormed, Instr.wf, Format.Fits, Slot.allows, Format.z]

theorem EncodingFits.pbkdf2 : EncodingFits.Statement (.pbkdf2) := by
  refine encodingFits_of_row 18 _ rfl fun hw => ?_
  simp_all [encode, Instr.WellFormed, Instr.wf, Format.Fits, Slot.allows, Format.z]

theorem EncodingFits.mseed : EncodingFits.Statement (.mseed) := by
  refine encodingFits_of_row 19 _ rfl fun hw => ?_
  simp_all [encode, Instr.WellFormed, Instr.wf, Format.Fits, Slot.allows, Format.z]

end Sys2Proof.Laws
end

