-- ==== Sys2Proof/Laws/RegMap.lean ====
section
/-! SUPPORT. The register map: its rows are words, do not overlap, and are found by their offsets; what a word write does to the register it patches. -/

namespace Sys2Proof.Machine

/-- Every row starts and ends at a word boundary, inside the map. -/
theorem row_words : ∀ r ∈ registerMap, r.base % 4 = 0 ∧ r.size % 4 = 0 ∧ r.base + r.size ≤ Config.mapBytes := by
  decide

/-- Two rows are the same or do not overlap. -/
theorem rows_disjoint : ∀ r ∈ registerMap, ∀ r' ∈ registerMap, r = r' ∨ r.base + r.size ≤ r'.base ∨ r'.base + r'.size ≤ r.base := by
  decide +kernel

/-- A legal field index is one of the eight windows. -/
theorem mem_fieldIndices (i : RegIdx) (h : i.toNat < 8) : i ∈ ([0, 1, 2, 3, 4, 5, 6, 7] : List RegIdx) := by revert i; decide

/-- A legal point index is one of the four windows. -/
theorem mem_pointIndices (j : RegIdx) (h : j.toNat < 4) : j ∈ ([0, 1, 2, 3] : List RegIdx) := by revert j; decide

theorem mem_of_fieldWindow {i : RegIdx} (h : i.toNat < 8) {r : MapRow} (hr : r ∈ fieldWindow i) : r ∈ registerMap := by
  unfold registerMap
  simp only [List.mem_append, List.mem_flatMap]
  exact .inl (.inl (.inr ⟨i, mem_fieldIndices i h, hr⟩))

theorem mem_of_pointWindow {j : RegIdx} (h : j.toNat < 4) {r : MapRow} (hr : r ∈ pointWindow j) : r ∈ registerMap := by
  unfold registerMap
  simp only [List.mem_append, List.mem_flatMap]
  exact .inl (.inr ⟨j, mem_pointIndices j h, hr⟩)

theorem mem_of_controlRows {r : MapRow} (hr : r ∈ controlRows) : r ∈ registerMap := by
  unfold registerMap
  simp only [List.mem_append]
  exact .inl (.inl (.inl hr))

theorem mem_of_bufferRows {r : MapRow} (hr : r ∈ bufferRows) : r ∈ registerMap := by
  unfold registerMap
  simp only [List.mem_append]
  exact .inr hr

theorem FieldReg.fullBit_eq (r : FieldReg) : r.fullBit = if r = .empty then 0 else 1 := by cases r <;> rfl

theorem PointReg.tag_eq (r : PointReg) : r.tag = if r = .empty then 0 else if r = .point .inf then 1 else 2 := by
  rcases r with _ | _ | _ <;> rfl

/-- A row is found by any offset inside it. -/
theorem findRow_of_mem {r : MapRow} (hr : r ∈ registerMap) {a : Nat} (h₁ : r.base ≤ a) (h₂ : a < r.base + r.size) : findRow a = some r := by
  unfold findRow
  cases hf : registerMap.find? (fun r => decide (r.base ≤ a ∧ a < r.base + r.size)) with
  | none =>
    have := List.find?_eq_none.mp hf r hr
    simp [h₁, h₂] at this
  | some r' =>
    have h' := List.find?_some hf
    rw [decide_eq_true_eq] at h'
    rcases rows_disjoint r hr r' (List.mem_of_find?_eq_some hf) with rfl | h | h
    · rfl
    · omega
    · omega

/-- What `findRow` can answer, said once. -/
theorem findRow_cases (a : Nat) :
    (∃ r ∈ registerMap, findRow a = some r ∧ r.base ≤ a ∧ a < r.base + r.size) ∨
    (findRow a = none ∧ ∀ r ∈ registerMap, ¬ (r.base ≤ a ∧ a < r.base + r.size)) := by
  cases hf : findRow a with
  | none =>
    refine .inr ⟨rfl, fun r hr h => ?_⟩
    rw [findRow_of_mem hr h.1 h.2] at hf
    exact absurd hf (by simp)
  | some r =>
    have h' := List.find?_some hf
    rw [decide_eq_true_eq] at h'
    exact .inl ⟨r, List.mem_of_find?_eq_some hf, rfl, h'⟩

/-- A word inside a row, from its first byte to its last. -/
theorem word_in_row {r : MapRow} (hr : r ∈ registerMap) {a : Nat} (ha : a % 4 = 0) (h₂ : a < r.base + r.size) :
    a + 4 ≤ r.base + r.size := by
  obtain ⟨hb, hs, _⟩ := row_words r hr
  omega

/-- What `locate` answers for a word of the map. -/
theorem locate_word {a : Nat} (ha : a % 4 = 0) (hm : a < Config.mapBytes) :
    locate a 4 = match findRow a with
      | some r => .ok r
      | none => .error (.refused .unmapped) := by
  unfold locate
  rw [if_neg (by simp), if_neg (by omega), if_neg (by omega)]
  all_goals cases findRow a <;> rfl

/-- A word of a row is located. -/
theorem locate_row {r : MapRow} (hr : r ∈ registerMap) {a : Nat} (ha : a % 4 = 0) (h₁ : r.base ≤ a) (h₂ : a < r.base + r.size) :
    locate a 4 = .ok r := by
  rw [locate_word ha (by have := (row_words r hr).2.2; omega), findRow_of_mem hr h₁ h₂]

/-- Every region but `CMD` has as many bytes as its row says. -/
theorem regionBytes_length (s : State) : ∀ r ∈ registerMap, r.region ≠ .cmd → (regionBytes s r.region).length = r.size := by
  have h : ∀ r ∈ registerMap, r.region ≠ .cmd → ∀ s : State, (regionBytes s r.region).length = r.size := by
    simp only [registerMap, controlRows, bufferRows, fieldWindow, pointWindow, List.flatMap_cons, List.flatMap_nil, List.cons_append,
      List.nil_append, List.append_nil, List.forall_mem_cons, List.not_mem_nil, false_implies, implies_true, and_true]
    simp [regionBytes, Config.keybufBytes, Config.msgbufBytes, Config.outbufBytes]
  exact fun r hr hc => h r hr hc s

/-- Four bytes of a run of bytes, read from memory. -/
theorem word_of_readBytes (m : Memory) (x n k : Nat) (h : k + 4 ≤ n) :
    ((Memory.readBytes m x n).drop k).take 4 = (List.range 4).map fun j => Memory.read m (x + k + j) := by
  apply List.ext_getElem
  · simp
    omega
  · intro i h₁ h₂
    simp [Memory.readBytes] at h₁ h₂ ⊢
    congr 1
    omega

/-- The word just written reads back. -/
theorem word_of_overwrite (X : List Byte) (k : Nat) (bs : List Byte) (h : k + bs.length ≤ X.length) (h4 : bs.length = 4) :
    ((overwrite X k bs).drop k).take 4 = bs := by
  unfold overwrite
  rw [List.append_assoc, List.drop_append_of_le_length (by simp; omega), List.drop_eq_nil_of_le (by simp), List.nil_append, ← h4, List.take_left']
  rfl

/-- Every other word reads as before. -/
theorem word_of_overwrite_ne (X : List Byte) (k : Nat) (bs : List Byte) (h : k + bs.length ≤ X.length) (h4 : bs.length = 4) (j : Nat)
    (hj : j + 4 ≤ k ∨ k + 4 ≤ j) : ((overwrite X k bs).drop j).take 4 = (X.drop j).take 4 := by
  apply List.ext_getElem?
  intro i
  by_cases hi : i < 4
  · rw [List.getElem?_take_of_lt hi, List.getElem?_take_of_lt hi, List.getElem?_drop, List.getElem?_drop, overwrite_getElem? _ _ _ h, if_neg (by omega)]
  · rw [List.getElem?_take_eq_none (by omega), List.getElem?_take_eq_none (by omega)]

/-- The bytes of a register of `n` bytes after a word write at byte `k`. -/
theorem be_patchInt (old n k : Nat) (bs : List Byte) (h : k + bs.length ≤ n) :
    be (patchInt old n k bs) n = overwrite (be old n) k bs := by
  have hl : (overwrite (be old n) k bs).length = n := by rw [overwrite_length _ _ _ (by simpa using h), be_length]
  unfold patchInt
  have := be_int (overwrite (be old n) k bs)
  rwa [hl] at this

/-- A patched register of `n` bytes still fits in `n` bytes. -/
theorem patchInt_lt (old n k : Nat) (bs : List Byte) (h : k + bs.length ≤ n) : patchInt old n k bs < 256 ^ n := by
  have hl : (overwrite (be old n) k bs).length = n := by rw [overwrite_length _ _ _ (by simpa using h), be_length]
  have := int_lt (overwrite (be old n) k bs)
  rwa [hl] at this

end Sys2Proof.Machine
end

