-- ==== Sys2Proof/Laws/Step.lean ====
section
/-! SUPPORT. What a host access and a step of the machine can do, said once each. -/

namespace Sys2Proof.Machine

/-- A host read that has a meaning: one reply, the bytes of the row at its offset. -/
theorem hostRead_cases {s t : State} {off width : Nat} (h : hostRead s off width = .next t) :
    ∃ r ∈ registerMap, width = 4 ∧ off % 4 = 0 ∧ r.base ≤ off ∧ off < r.base + r.size ∧ r.access ≠ .wo ∧ t = s.reply (readRow s r off) := by
  unfold hostRead locate at h
  split at h
  · rename_i o ho
    split at ho
    · cases ho; cases h
    · split at ho
      · cases ho; cases h
      · split at ho
        · cases ho; cases h
        · split at ho
          · cases ho
          · cases ho; cases h
  · rename_i r hr
    split at hr
    · cases hr
    · split at hr
      · cases hr
      · split at hr
        · cases hr
        · split at hr
          · rename_i r' hf
            cases hr
            rcases findRow_cases off with ⟨r₀, hm, hf', h₁, h₂⟩ | ⟨hf', -⟩
            · rw [hf] at hf'
              cases hf'
              refine ⟨r, hm, by omega, by omega, h₁, h₂, ?_, ?_⟩
              · intro hw; rw [hw] at h; cases h
              · cases ha : r.access <;> rw [ha] at h <;> cases h <;> rfl
            · rw [hf] at hf'; cases hf'
          · cases hr

/-- A host write that has a meaning: a command issued, or the bytes of a row changed. -/
theorem hostWrite_cases {s t : State} {off : Nat} {data : List Byte} (h : hostWrite s off data = .next t) :
    ∃ r ∈ registerMap, data.length = 4 ∧ off % 4 = 0 ∧ r.base ≤ off ∧ off < r.base + r.size ∧
      ((r.access = .wo ∧ t = s.issue (BitVec.ofNat 32 (int data))) ∨ (r.access = .rw ∧ t = writeRow s r off data)) := by
  unfold hostWrite locate at h
  split at h
  · rename_i o ho
    split at ho
    · cases ho; cases h
    · split at ho
      · cases ho; cases h
      · split at ho
        · cases ho; cases h
        · split at ho
          · cases ho
          · cases ho; cases h
  · rename_i r hr
    split at hr
    · cases hr
    · split at hr
      · cases hr
      · split at hr
        · cases hr
        · split at hr
          · rename_i r' hf
            cases hr
            rcases findRow_cases off with ⟨r₀, hm, hf', h₁, h₂⟩ | ⟨hf', -⟩
            · rw [hf] at hf'
              cases hf'
              refine ⟨r, hm, by omega, by omega, h₁, h₂, ?_⟩
              cases ha : r.access <;> rw [ha] at h <;> cases h
              · exact .inr ⟨rfl, rfl⟩
              · exact .inl ⟨rfl, rfl⟩
            · rw [hf] at hf'; cases hf'
          · cases hr

/-- A host read of a word of a readable row. -/
theorem hostRead_row {s : State} {r : MapRow} (hr : r ∈ registerMap) {off : Nat} (ha : off % 4 = 0) (h₁ : r.base ≤ off) (h₂ : off < r.base + r.size)
    (hac : r.access ≠ .wo) : hostRead s off 4 = .next (s.reply (readRow s r off)) := by
  unfold hostRead
  rw [locate_row hr ha h₁ h₂]
  cases h : r.access <;> simp_all

/-- A host write of a word of a writable row. -/
theorem hostWrite_row {s : State} {r : MapRow} (hr : r ∈ registerMap) {off : Nat} {data : List Byte} (hd : data.length = 4) (ha : off % 4 = 0)
    (h₁ : r.base ≤ off) (h₂ : off < r.base + r.size) (hac : r.access = .rw) : hostWrite s off data = .next (writeRow s r off data) := by
  unfold hostWrite
  rw [hd, locate_row hr ha h₁ h₂]
  simp [hac]

/-- A host write to `CMD`. -/
theorem hostWrite_cmd {s : State} {data : List Byte} (hd : data.length = 4) : hostWrite s 0 data = .next (s.issue (BitVec.ofNat 32 (int data))) := by
  unfold hostWrite
  rw [hd, locate_row (r := ⟨0x0000, 4, .wo, .cmd⟩) (by decide) (by decide) (by decide) (by decide)]

/-- An offset of no row is unmapped. -/
theorem locate_unmapped {off : Nat} (ha : off % 4 = 0) (hm : off < 0x2000) (h : ∀ r ∈ registerMap, ¬ (r.base ≤ off ∧ off < r.base + r.size)) :
    locate off 4 = .error (.refused .unmapped) := by
  rw [locate_word ha hm]
  rcases findRow_cases off with ⟨r, hr, -, h₁, h₂⟩ | ⟨hf, -⟩
  · exact absurd ⟨h₁, h₂⟩ (h r hr)
  · rw [hf]

/-- The rows the host may write are four registers and two buffers. -/
theorem rw_rows : ∀ r ∈ registerMap, r.access = .rw →
    r = ⟨0x0010, 4, .rw, .klen⟩ ∨ r = ⟨0x0014, 4, .rw, .mlen⟩ ∨ r = ⟨0x0040, 32, .rw, .opa⟩ ∨ r = ⟨0x0060, 32, .rw, .opm⟩ ∨
    r = ⟨0x1000, 256, .rw, .keybuf⟩ ∨ r = ⟨0x1100, 256, .rw, .msgbuf⟩ := by
  decide +kernel

/-- A write of a word of storage changes the host's operand registers or the two input buffers, and nothing else. -/
theorem writeRow_frame (s : State) (r : MapRow) (off : Nat) (data : List Byte) :
    writeRow s r off data = { s with
      opa := (writeRow s r off data).opa, opm := (writeRow s r off data).opm, klen := (writeRow s r off data).klen,
      mlen := (writeRow s r off data).mlen, mem := (writeRow s r off data).mem } := by
  unfold writeRow
  cases r.region <;> rfl

/-- Two rows with one region are one row. -/
theorem row_of_region : ∀ r ∈ registerMap, ∀ r' ∈ registerMap, r'.region = r.region → r' = r := by
  decide +kernel

/-- A word write leaves the bytes of every region but the one written, or the buffers, as they were. -/
theorem regionBytes_writeRow (s : State) (r : MapRow) (off : Nat) (data : List Byte) (R : Region) (hR : R ≠ r.region)
    (hb : R ≠ .keybuf ∧ R ≠ .msgbuf ∧ R ≠ .outbuf) : regionBytes (writeRow s r off data) R = regionBytes s R := by
  obtain ⟨base, size, ac, reg⟩ := r
  cases reg <;> cases R <;>
    first | exact absurd rfl hR | exact absurd rfl hb.1 | exact absurd rfl hb.2.1 | exact absurd rfl hb.2.2 | rfl

/-- A buffer's word, read byte by byte. -/
theorem readRow_buffer (s : State) (r : MapRow) (base n off : Nat) (hr : regionBytes s r.region = Memory.readBytes s.mem base n) (hb : r.base = base)
    (h₁ : base ≤ off) (h₂ : off + 4 ≤ base + n) : readRow s r off = (List.range 4).map fun k => Memory.read s.mem (off + k) := by
  unfold readRow
  rw [hr, hb, word_of_readBytes _ _ _ _ (by omega)]
  congr 1
  ext k
  rw [show base + (off - base) + k = off + k by omega]

/-- The bytes of a buffer word after a word write elsewhere. -/
theorem readWord_writeBytes_ne {m : Memory} (hw : Memory.wf m = true) {off off' : Nat} {data : List Byte} (hl : data.length = 4) (ha : off % 4 = 0)
    (ha' : off' % 4 = 0) (hne : off' ≠ off) :
    ((List.range 4).map fun k => Memory.read (Memory.writeBytes m off data) (off' + k)) = (List.range 4).map fun k => Memory.read m (off' + k) := by
  apply List.map_congr_left
  intro k hk
  simp only [List.mem_range] at hk
  rw [Memory.read_writeBytes (Memory.wf_sorted hw), if_neg (by omega)]

/-- A row of a wider register: the words that a word write does not reach read as before. -/
theorem readRow_patched {X : List Byte} {off off' base : Nat} {data : List Byte} (hl : data.length = 4) (ha : off % 4 = 0) (ha' : off' % 4 = 0)
    (hb : base % 4 = 0) (h₁ : base ≤ off) (h₁' : base ≤ off') (h₂ : off + 4 ≤ base + X.length) (hne : off' ≠ off) :
    ((overwrite X (off - base) data).drop (off' - base)).take 4 = (X.drop (off' - base)).take 4 :=
  word_of_overwrite_ne _ _ _ (by omega) hl _ (by omega)

/-- The bytes of a patched register of `n` bytes, held in `8n` bits. -/
theorem be_patched (w old n k : Nat) (data : List Byte) (hw : 2 ^ w = 256 ^ n) (h : k + data.length ≤ n) :
    be (BitVec.ofNat w (patchInt old n k data)).toNat n = overwrite (be old n) k data := by
  rw [BitVec.toNat_ofNat, Nat.mod_eq_of_lt (by rw [hw]; exact patchInt_lt _ _ _ _ h), be_patchInt _ _ _ _ h]

/-- A word write leaves every other word of the map as it reads. -/
theorem readRow_writeRow_ne {s : State} (hm : Memory.wf s.mem = true) {r r' : MapRow} (hr : r ∈ registerMap) (hr' : r' ∈ registerMap)
    (hac : r.access = .rw) (hac' : r'.access ≠ .wo) {off off' : Nat} {data : List Byte} (hl : data.length = 4) (ha : off % 4 = 0) (ha' : off' % 4 = 0)
    (h₁ : r.base ≤ off) (h₂ : off < r.base + r.size) (h₁' : r'.base ≤ off') (h₂' : off' < r'.base + r'.size) (hne : off' ≠ off) :
    readRow (writeRow s r off data) r' off' = readRow s r' off' := by
  have hb := (row_words r hr).1
  have hw := word_in_row hr ha h₂
  have hw' := word_in_row hr' ha' h₂'
  by_cases hbuf : r'.region = .keybuf ∨ r'.region = .msgbuf ∨ r'.region = .outbuf
  · -- a buffer
    have key : ∃ base n, r'.base = base ∧ (∀ s, regionBytes s r'.region = Memory.readBytes s.mem base n) ∧ r'.size = n := by
      rcases hbuf with h | h | h
      · rw [row_of_region ⟨0x1000, 256, .rw, .keybuf⟩ (by decide) r' hr' h]; exact ⟨_, _, rfl, fun _ => rfl, rfl⟩
      · rw [row_of_region ⟨0x1100, 256, .rw, .msgbuf⟩ (by decide) r' hr' h]; exact ⟨_, _, rfl, fun _ => rfl, rfl⟩
      · rw [row_of_region ⟨0x1200, 68, .ro, .outbuf⟩ (by decide) r' hr' h]; exact ⟨_, _, rfl, fun _ => rfl, rfl⟩
    obtain ⟨base, n, hbase, hreg, hsize⟩ := key
    rw [readRow_buffer _ r' base n off' (hreg _) hbase (by omega) (by omega), readRow_buffer _ r' base n off' (hreg _) hbase (by omega) (by omega)]
    have hmem : (writeRow s r off data).mem = s.mem ∨ (writeRow s r off data).mem = Memory.writeBytes s.mem off data := by
      unfold writeRow; cases r.region <;> first | exact .inl rfl | exact .inr rfl
    rcases hmem with h | h <;> rw [h]
    exact readWord_writeBytes_ne hm hl ha ha' hne
  · simp only [not_or] at hbuf
    by_cases hR : r'.region = r.region
    · obtain rfl := row_of_region r hr r' hr' hR
      rcases rw_rows r' hr hac with rfl | rfl | rfl | rfl | rfl | rfl <;> simp only at h₁ h₂ h₁' h₂' hb hbuf
      · omega
      · omega
      · simp only [readRow, regionBytes, writeRow]
        rw [be_patched 256 _ 32 _ _ (by norm_num) (by omega)]
        exact readRow_patched hl ha ha' (by decide) h₁ h₁' (by rw [be_length]; omega) hne
      · simp only [readRow, regionBytes, writeRow]
        rw [be_patched 256 _ 32 _ _ (by norm_num) (by omega)]
        exact readRow_patched hl ha ha' (by decide) h₁ h₁' (by rw [be_length]; omega) hne
      · exact absurd trivial hbuf.1
      · exact absurd trivial hbuf.2.1
    · unfold readRow
      rw [regionBytes_writeRow _ _ _ _ _ hR hbuf]

/-- The word a word write stored reads back. -/
theorem readRow_writeRow_same {s : State} (hm : Memory.wf s.mem = true) {r : MapRow} (hr : r ∈ registerMap) (hac : r.access = .rw) {off : Nat}
    {data : List Byte} (hl : data.length = 4) (ha : off % 4 = 0) (h₁ : r.base ≤ off) (h₂ : off < r.base + r.size) :
    readRow (writeRow s r off data) r off = data := by
  have hw := word_in_row hr ha h₂
  have hmem : ((List.range 4).map fun k => Memory.read (Memory.writeBytes s.mem off data) (off + k)) = data := by
    apply List.ext_getElem
    · simp [hl]
    · intro i h1 h2
      simp only [List.length_map, List.length_range] at h1
      simp only [List.getElem_map, List.getElem_range]
      rw [Memory.read_writeBytes (Memory.wf_sorted hm), if_pos (by omega)]
      simp [show off + i - off = i by omega, h2]
  rcases rw_rows r hr hac with rfl | rfl | rfl | rfl | rfl | rfl <;> simp only at h₁ h₂ hw
  · simp only [readRow, regionBytes, writeRow]
    rw [be_patched 32 _ 4 _ _ (by norm_num) (by omega), word_of_overwrite _ _ _ (by rw [be_length]; omega) hl]
  · simp only [readRow, regionBytes, writeRow]
    rw [be_patched 32 _ 4 _ _ (by norm_num) (by omega), word_of_overwrite _ _ _ (by rw [be_length]; omega) hl]
  · simp only [readRow, regionBytes, writeRow]
    rw [be_patched 256 _ 32 _ _ (by norm_num) (by omega), word_of_overwrite _ _ _ (by rw [be_length]; omega) hl]
  · simp only [readRow, regionBytes, writeRow]
    rw [be_patched 256 _ 32 _ _ (by norm_num) (by omega), word_of_overwrite _ _ _ (by rw [be_length]; omega) hl]
  · exact (readRow_buffer _ ⟨0x1000, 256, .rw, .keybuf⟩ 0x1000 256 off rfl rfl h₁ (by omega)).trans hmem
  · exact (readRow_buffer _ ⟨0x1100, 256, .rw, .msgbuf⟩ 0x1100 256 off rfl rfl h₁ (by omega)).trans hmem

/-- What one event can do. -/
theorem hostAction_cases {a : HostAction} {s t : State} (h : hostAction a s = .next t) :
    (∃ bs, t = s.reply bs) ∨ (∃ w, t = s.issue w) ∨ t = s.afterReset ∨
    (∃ r ∈ registerMap, r.access = .rw ∧ ∃ off data, off % 4 = 0 ∧ r.base ≤ off ∧ off < r.base + r.size ∧ data.length = 4 ∧ t = writeRow s r off data) := by
  cases a with
  | read off width =>
    obtain ⟨r, -, -, -, -, -, -, e⟩ := hostRead_cases h
    exact .inl ⟨_, e⟩
  | write off data =>
    obtain ⟨r, hr, hl, ha, h₁, h₂, ⟨-, e⟩ | ⟨hw, e⟩⟩ := hostWrite_cases h
    · exact .inr (.inl ⟨_, e⟩)
    · exact .inr (.inr (.inr ⟨r, hr, hw, off, data, ha, h₁, h₂, hl, e⟩))
  | reset => cases h; exact .inr (.inr (.inl rfl))
  | foreign => cases h

/-! ## The step -/

/-- Only a read of `STATUS` and a reset are not held. -/
theorem notHeld_iff (a : HostAction) : notHeld a = true ↔ a = .read 0x0004 4 ∨ a = .reset := by
  cases a with
  | read off width =>
    have h : notHeld (.read off width) = true ↔ off = 0x0004 ∧ width = 4 := decide_eq_true_iff
    simp [h]
  | write off data => simp [notHeld]
  | reset => simp [notHeld]
  | foreign => simp [notHeld]

/-- The pending word is completed when no event gets in. -/
theorem step_pending {s : State} {w : Word} (hp : s.pend = some w)
    (he : ∀ e, s.inputs.head? = some e → ¬ (e.early = true ∧ (e.act = .read 0x0004 4 ∨ e.act = .reset))) : step s = completePending w s := by
  unfold step stepUnit stepBusy State.earlyEvent
  rw [hp]
  cases hi : s.inputs with
  | nil => rfl
  | cons e es =>
    have := he e (by rw [hi]; rfl)
    rw [← notHeld_iff] at this
    simp [this]

/-- An early event that is not held takes effect while the unit is busy. -/
theorem step_early {s : State} {w : Word} {e : HostEvent} {rest : List HostEvent} (hp : s.pend = some w) (hi : s.inputs = e :: rest)
    (he : e.early = true) (ha : e.act = .read 0x0004 4 ∨ e.act = .reset) : step s = hostAction e.act { s with inputs := rest } := by
  simp [step, stepUnit, stepBusy, State.earlyEvent, State.popInput, hp, hi, he, (notHeld_iff e.act).mpr ha]

/-- A completed word that decodes is the command's execution. -/
theorem completePending_ok {w : Word} {i : Instr} (h : decode w = .ok i) (s : State) : completePending w s = exec i s := by
  unfold completePending
  rw [h]

/-- A completed word that is illegal raises `IllegalCommand`, or is dropped by a faulted unit. -/
theorem completePending_error {w : Word} {e : Illegal} (h : decode w = .error e) (s : State) : completePending w s = .next (s.illegalWord w) := by
  unfold completePending
  rw [h]

/-- The completion of a word always goes on, with nothing pending, and neither takes an event nor gives a reply. -/
theorem completePending_next (w : Word) (s : State) :
    ∃ t, completePending w s = .next t ∧ t.pend = none ∧ t.inputs = s.inputs ∧ t.replies = s.replies := by
  cases hd : decode w with
  | ok i =>
    rw [completePending_ok hd]
    rcases exec_cases i s with ⟨-, -, e⟩ | ⟨-, -, e⟩ | ⟨-, -, k, -, e⟩ | ⟨-, -, u, hu, e⟩
    · exact ⟨_, e, rfl, rfl, rfl⟩
    · exact ⟨_, e, rfl, rfl, rfl⟩
    · exact ⟨_, e, rfl, rfl, rfl⟩
    · refine ⟨_, e, rfl, ?_⟩
      rcases effectOf_ok hu with ⟨rfl, rfl⟩ | ⟨rfl, rfl⟩ | ⟨-, rfl⟩ | ⟨_, _, _, rfl, _⟩ | ⟨_, _, _, rfl, _⟩ | ⟨_, _, rfl, _⟩ <;> exact ⟨rfl, rfl⟩
  | error e =>
    rw [completePending_error hd]
    refine ⟨_, rfl, ?_⟩
    unfold State.illegalWord
    split <;> exact ⟨rfl, rfl, rfl⟩

/-- The next event takes effect when the unit is idle. -/
theorem step_idle {s : State} {e : HostEvent} {rest : List HostEvent} (hp : s.pend = none) (hi : s.inputs = e :: rest) :
    step s = hostAction e.act { s with inputs := rest } := by
  unfold step stepUnit stepIdle State.popInput
  rw [hp]
  simp only [hi, List.tail_cons]

@[simp] theorem hostAction_read (off width : Nat) (s : State) : hostAction (.read off width) s = hostRead s off width := rfl
@[simp] theorem hostAction_write (off : Nat) (data : List Byte) (s : State) : hostAction (.write off data) s = hostWrite s off data := rfl
@[simp] theorem hostAction_reset (s : State) : hostAction .reset s = .next s.afterReset := rfl
@[simp] theorem hostAction_foreign (s : State) : hostAction .foreign s = .refused .secondInitiator := rfl

/-- A write of a word to `CMD` at a unit that is not busy issues it. -/
theorem step_cmd {s : State} {w : Word} {b : Bool} {rest : List HostEvent} (hp : s.pend = none)
    (hi : s.inputs = ⟨.write 0x0000 (be w.toNat 4), b⟩ :: rest) : step s = .next (({ s with inputs := rest } : State).issue w) := by
  rw [step_idle hp hi, hostAction_write, hostWrite_cmd (be_length _ _), ofNat_int_be]

/-- A run begins with a step. -/
theorem run_succ (k : Nat) (s : State) : core.run (k + 1) s =
    match step s with
    | .next t => core.run k t
    | .fault r => .fault r
    | .refused r => .refused r := by
  have hs : core.step s = step s := rfl
  have hr := Host.Core.run.eq_2 core s k
  rw [hs] at hr
  refine hr.trans ?_
  cases step s <;> rfl

theorem run_succ_next {s t : State} (h : step s = .next t) (k : Nat) : core.run (k + 1) s = core.run k t := by
  rw [run_succ, h]

@[simp] theorem run_one (s : State) : core.run 1 s = step s := by
  rw [run_succ]
  cases step s <;> rfl

/-- What a step can do, said once: the pending command's execution, an illegal word, an event, or nothing at all. -/
theorem step_cases (s : State) :
    (∃ w i, s.pend = some w ∧ decode w = .ok i ∧ step s = exec i s) ∨
    (∃ w e, s.pend = some w ∧ decode w = .error e ∧ step s = .next (s.illegalWord w)) ∨
    (s.pend = none ∧ s.inputs = [] ∧ step s = .next s) ∨
    (∃ e rest, s.inputs = e :: rest ∧ (s.pend = none ∨ (e.early = true ∧ notHeld e.act = true)) ∧
      step s = hostAction e.act { s with inputs := rest }) := by
  have hin : s.inputs = [] ∨ ∃ e rest, s.inputs = e :: rest := by cases s.inputs <;> simp
  rcases Option.eq_none_or_eq_some s.pend with hp | ⟨w, hp⟩
  · rcases hin with hi | ⟨e, rest, hi⟩
    · exact .inr (.inr (.inl ⟨hp, hi, by simp [step, stepUnit, stepIdle, hp, hi]⟩))
    · exact .inr (.inr (.inr ⟨e, rest, hi, .inl hp, step_idle hp hi⟩))
  · have hc : completePending w s = step s ∨ ∃ e rest, s.inputs = e :: rest ∧ (e.early = true ∧ notHeld e.act = true) ∧
        step s = hostAction e.act { s with inputs := rest } := by
      rcases hin with hi | ⟨e, rest, hi⟩
      · exact .inl (step_pending hp (by simp [hi])).symm
      · by_cases he : e.early = true ∧ notHeld e.act = true
        · refine .inr ⟨e, rest, hi, he, ?_⟩
          simp [step, stepUnit, stepBusy, State.earlyEvent, State.popInput, hp, hi, he.1, he.2]
        · left
          have : (e.early && notHeld e.act) = false := by
            cases h₁ : e.early <;> cases h₂ : notHeld e.act <;> simp_all
          simp [step, stepUnit, stepBusy, State.earlyEvent, hp, hi, this]
    rcases hc with hc | ⟨e, rest, hi, he, hs⟩
    · unfold completePending at hc
      cases hd : decode w with
      | ok i =>
        rw [hd] at hc
        exact .inl ⟨w, i, hp, hd, hc.symm⟩
      | error e =>
        rw [hd] at hc
        exact .inr (.inl ⟨w, e, hp, hd, hc.symm⟩)
    · exact .inr (.inr (.inr ⟨e, rest, hi, .inr he, hs⟩))

end Sys2Proof.Machine
end

