-- ==== Sys2Proof/Tests/Slice0.lean ====
section
/-! SUPPORT. The model's own tests: ill-formed commands refused, words written out from the spec, one step of each command on a small state, and
for every statement with hypotheses a witness that meets them. Expected values are those of the spec's rules and vectors, named at each test. -/

set_option Elab.async false

namespace Sys2Proof.Tests

open Sys2Proof.Machine Sys2Proof.Claims

/-! ## Helpers -/

/-- The state an outcome goes on in, if it does. -/
def nextOf : Host.Outcome State Fault Refusal → Option State
  | .next t => some t
  | .fault _ => none
  | .refused _ => none

/-- The fault an outcome stops with, if it does. -/
def faultOf : Host.Outcome State Fault Refusal → Option Fault
  | .next _ => none
  | .fault r => some r
  | .refused _ => none

/-- The refusal an outcome stops with, if it does. -/
def refusalOf : Host.Outcome State Fault Refusal → Option Refusal
  | .next _ => none
  | .fault _ => none
  | .refused r => some r

/-- An outcome that goes on goes on in the state `nextOf` gives. -/
theorem next_of_some {o : Host.Outcome State Fault Refusal} {t : State} (h : nextOf o = some t) : o = .next t := by
  cases o <;> simp_all [nextOf]

/-- The step that runs the command word `w` at `s`. -/
def run1 (s : State) (w : Nat) : Option State := nextOf (step (s.withFetchWord 32 w))

/-- `STATUS` and `ECMD` after the command word `w`. -/
def record (s : State) (w : Nat) : Option (Nat × Nat) :=
  (run1 s w).map fun t => (t.statusWord.toNat, t.ecmd.toNat)

/-- A reset unit with `F[0]` and `F[1]` full. -/
def withF (v0 m0 v1 m1 : Nat) : State :=
  (State.reset.writeF 0 ⟨BitVec.ofNat 256 v0, BitVec.ofNat 256 m0⟩).writeF 1 ⟨BitVec.ofNat 256 v1, BitVec.ofNat 256 m1⟩

/-- A reset unit with `P[0]` and `P[1]` holding points. -/
def withP (A B : CurvePoint) : State := (State.reset.writeP 0 A).writeP 1 B

/-- A reset unit with `OPA` and `OPM` staged. -/
def staged (a m : Nat) : State := { State.reset with opa := BitVec.ofNat 256 a, opm := BitVec.ofNat 256 m }

/-- A reset unit with one event to come. -/
def event (a : HostAction) (early : Bool) : State := { State.reset with inputs := [⟨a, early⟩] }

/-- A reset unit with a key and a message in the buffers. -/
def keyed (K M : List Byte) : State :=
  { State.reset with
    mem := Memory.writeBytes (Memory.writeBytes [] 0x1000 K) 0x1100 M
    klen := BitVec.ofNat 32 K.length
    mlen := BitVec.ofNat 32 M.length }

/-- The ASCII bytes of a string. -/
def ascii (x : String) : List Byte := x.toList.map fun c => BitVec.ofNat 8 c.toNat

/-- The base point, written out (spec/00_scope.md R10). -/
def g : CurvePoint :=
  .fin 0x79BE667EF9DCBBAC55A06295CE870B07029BFCDB2DCE28D959F2815B16F81798
    0x483ADA7726A3C4655DA4FBFC0E1108A8FD17B448A68554199C47D08FFB10D4B8

/-! ## Ill-formed commands: one refused term for each check of `Instr.wf` (spec/30_encoding.md R82, R83) -/

theorem test_wf_refuses_fmake : Instr.wf (.fmake 8) = false := by decide
theorem test_wf_refuses_fadd : Instr.wf (.fadd 8 0 0) = false ∧ Instr.wf (.fadd 0 8 0) = false ∧ Instr.wf (.fadd 0 0 8) = false := by decide
theorem test_wf_refuses_fsub : Instr.wf (.fsub 8 0 0) = false ∧ Instr.wf (.fsub 0 9 0) = false ∧ Instr.wf (.fsub 0 0 15) = false := by decide
theorem test_wf_refuses_fmul : Instr.wf (.fmul 8 0 0) = false ∧ Instr.wf (.fmul 0 8 0) = false ∧ Instr.wf (.fmul 0 0 8) = false := by decide
theorem test_wf_refuses_fdiv : Instr.wf (.fdiv 8 0 0) = false ∧ Instr.wf (.fdiv 0 8 0) = false ∧ Instr.wf (.fdiv 0 0 8) = false := by decide
theorem test_wf_refuses_finv : Instr.wf (.finv 8 0) = false ∧ Instr.wf (.finv 0 8) = false := by decide
theorem test_wf_refuses_pmake : Instr.wf (.pmake 4 0 0) = false ∧ Instr.wf (.pmake 0 8 0) = false ∧ Instr.wf (.pmake 0 0 8) = false := by decide
theorem test_wf_refuses_pinf_pldg : Instr.wf (.pinf 4) = false ∧ Instr.wf (.pldg 4) = false := by decide
theorem test_wf_refuses_padd : Instr.wf (.padd 4 0 0) = false ∧ Instr.wf (.padd 0 4 0) = false ∧ Instr.wf (.padd 0 0 4) = false := by decide
theorem test_wf_refuses_pgetx_pgety : Instr.wf (.pgetx 8 0) = false ∧ Instr.wf (.pgetx 0 4) = false ∧ Instr.wf (.pgety 8 0) = false ∧
    Instr.wf (.pgety 0 4) = false := by decide
theorem test_wf_refuses_pser : Instr.wf (.pser 4 true) = false := by decide
theorem test_wf_refuses_smul : Instr.wf (.smul 4 0 0) = false ∧ Instr.wf (.smul 0 8 0) = false ∧ Instr.wf (.smul 0 0 4) = false := by decide
theorem test_wf_refuses_kchk : Instr.wf (.kchk 8) = false := by decide

/-! ## Decoding: words of spec/30_encoding.md R84, R88 and spec/95_test_vectors.md section 3.1 -/

theorem test_decode_system : decodeTableWord 32 0x01000000 = some .clrerr ∧ decodeTableWord 32 0x02000000 = some .zero := by decide +kernel
theorem test_decode_field : decodeTableWord 32 0x10700000 = some (.fmake 7) ∧ decodeTableWord 32 0x11201000 = some (.fadd 2 0 1) ∧
    decodeTableWord 32 0x12777000 = some (.fsub 7 7 7) ∧ decodeTableWord 32 0x13345000 = some (.fmul 3 4 5) ∧
    decodeTableWord 32 0x14510000 = some (.fdiv 5 1 0) ∧ decodeTableWord 32 0x15600000 = some (.finv 6 0) := by decide +kernel
theorem test_decode_point : decodeTableWord 32 0x20367000 = some (.pmake 3 6 7) ∧ decodeTableWord 32 0x21200000 = some (.pinf 2) ∧
    decodeTableWord 32 0x22000000 = some (.pldg 0) ∧ decodeTableWord 32 0x23201000 = some (.padd 2 0 1) ∧
    decodeTableWord 32 0x23300000 = some (Instr.pdbl 3 0) ∧ decodeTableWord 32 0x24030000 = some (.pgetx 0 3) ∧
    decodeTableWord 32 0x25100000 = some (.pgety 1 0) ∧ decodeTableWord 32 0x26010001 = some (.pser 1 true) ∧
    decodeTableWord 32 0x26030000 = some (.pser 3 false) := by decide +kernel
theorem test_decode_scalar : decodeTableWord 32 0x30100000 = some (.smul 1 0 0) ∧ decodeTableWord 32 0x31050000 = some (.kchk 5) := by
  decide +kernel
theorem test_decode_hash : decodeTableWord 32 0x40000000 = some .hmac ∧ decodeTableWord 32 0x41000000 = some .pbkdf2 ∧
    decodeTableWord 32 0x42000000 = some .mseed := by decide +kernel
/-- Rejected by name: DV-E23 to DV-E37, one word for each name. -/
theorem test_decode_illegal : decode 0x00000000 = .error .opcode ∧ decode 0x16000000 = .error .opcode ∧ decode 0xFFFFFFFF = .error .opcode ∧
    decode 0x10800000 = .error .fieldIndex ∧ decode 0x11201001 = .error .unusedNotZero ∧ decode 0x11201800 = .error .zNotZero ∧
    decode 0x11209000 = .error .fieldIndex ∧ decode 0x23400000 = .error .pointIndex ∧ decode 0x26000002 = .error .zNotZero ∧
    decode 0x26100001 = .error .unusedNotZero ∧ decode 0x01000001 = .error .unusedNotZero ∧ decode 0x40100000 = .error .unusedNotZero ∧
    decode 0x31080000 = .error .fieldIndex ∧ decode 0x15001000 = .error .unusedNotZero := by
  refine ⟨?_, ?_, ?_, ?_, ?_, ?_, ?_, ?_, ?_, ?_, ?_, ?_, ?_, ?_⟩ <;> rfl
/-- A byte sequence that is not four bytes long is no command word (spec/30_encoding.md R80). -/
theorem test_decode_length : decodeBytes [0x01, 0x00, 0x00] = .error .length := by rfl
/-- The bytes of `cmd FADD f2, f0, f1` (DV-M4), and the assembler line (spec/30_encoding.md R88). -/
theorem test_encode_bytes : encodeBytes (.fadd 2 0 1) = [0x11, 0x20, 0x10, 0x00] ∧ Instr.asm (.fadd 2 0 1) = "FADD f2, f0, f1" := by decide +kernel

/-! ## One step of each command -/

/-- spec/40_field.md R114, its example, and DV-F12. -/
theorem test_fmake : (run1 (staged 108 101) 0x10000000).map (·.readF 0) = some (.full ⟨7, 101⟩) ∧
    (run1 (staged 3 2) 0x10000000).map (·.readF 0) = some (.full ⟨1, 2⟩) := by decide +kernel
/-- DV-F13, DV-F14. -/
theorem test_fmake_modulus : record (staged 5 1) 0x10000000 = some (0x12, 0x10000000) ∧
    record (staged 5 0) 0x10000000 = some (0x12, 0x10000000) := by decide +kernel
/-- spec/40_field.md R115, and DV-F8 (the same register three times). -/
theorem test_fadd : (run1 (withF 70 101 50 101) 0x11201000).map (·.readF 2) = some (.full ⟨19, 101⟩) ∧
    (run1 (withF 100 101 0 101) 0x11000000).map (·.readF 0) = some (.full ⟨99, 101⟩) := by decide +kernel
/-- DV-F30, DV-F33: different moduli, and an Empty source. -/
theorem test_fadd_faults : record (withF 3 101 5 103) 0x11201000 = some (0x22, 0x11201000) ∧
    record (withF 3 101 5 103) 0x11202000 = some (0xC2, 0x11202000) := by decide +kernel
/-- spec/40_field.md R116, and DV-F17 (a negative difference made canonical). -/
theorem test_fsub : (run1 (withF 7 101 50 101) 0x12201000).map (·.readF 2) = some (.full ⟨58, 101⟩) ∧
    (run1 (withF 0 101 1 101) 0x12201000).map (·.readF 2) = some (.full ⟨100, 101⟩) := by decide +kernel
/-- spec/40_field.md R117. -/
theorem test_fmul : (run1 (withF 7 101 50 101) 0x13201000).map (·.readF 2) = some (.full ⟨47, 101⟩) := by decide +kernel
/-- spec/40_field.md R118, its example. -/
theorem test_fdiv : (run1 (withF 50 101 7 101) 0x14201000).map (·.readF 2) = some (.full ⟨36, 101⟩) := by decide +kernel
/-- DV-F27 to DV-F29: the order of the checks. -/
theorem test_fdiv_faults : record (withF 3 101 0 103) 0x14201000 = some (0x32, 0x14201000) ∧
    record (withF 3 101 10 100) 0x14201000 = some (0x42, 0x14201000) ∧
    record (withF 3 101 5 103) 0x14201000 = some (0x22, 0x14201000) := by decide +kernel
/-- spec/40_field.md R119, its example, and DV-F22 (a composite modulus). -/
theorem test_finv : (run1 (withF 7 101 7 100) 0x15100000).map (·.readF 1) = some (.full ⟨29, 101⟩) ∧
    (run1 (withF 7 101 7 100) 0x15210000).map (·.readF 2) = some (.full ⟨43, 100⟩) := by decide +kernel
/-- DV-F21, DV-F23. -/
theorem test_finv_faults : record (withF 0 101 10 100) 0x15200000 = some (0x42, 0x15200000) ∧
    record (withF 0 101 10 100) 0x15210000 = some (0x42, 0x15210000) := by decide +kernel
/-- spec/41_point.md R144, and a source of another modulus. -/
theorem test_pmake : (run1 (withF 5 Config.pField 6 Config.pField) 0x20001000).map (·.readP 0) = some (.point (.fin 5 6)) ∧
    record (withF 5 Config.pField 6 101) 0x20001000 = some (0x22, 0x20001000) := by decide +kernel
/-- spec/41_point.md R145, R146, their examples. -/
theorem test_pinf_pldg : (run1 State.reset 0x21200000).map (·.readP 2) = some (.point .inf) ∧
    (run1 State.reset 0x22000000).map (·.readP 0) = some (.point g) := by decide +kernel
/-- spec/41_point.md R147, its example: `2G`. -/
theorem test_padd_doubles : (run1 (withP g .inf) 0x23100000).map (·.readP 1) = some (.point
    (.fin 0xC6047F9441ED7D6D3045406E95C07CD85C778E4B8CEF3CA7ABAC09B95C709EE5
      0x1AE168FEA63DC339A3C58419466CEAEEF7F632653266D0E1236431A950CFE52A)) := by decide +kernel
/-- DV-P11 (off the curve) and DV-P10 (`y = 0` doubled). -/
theorem test_padd_chord_and_fault : (run1 (withP (.fin 1 1) (.fin 2 3)) 0x23201000).map (·.readP 2) = some (.point
    (.fin 1 0xFFFFFFFFFFFFFFFFFFFFFFFFFFFFFFFFFFFFFFFFFFFFFFFFFFFFFFFEFFFFFC2E)) ∧
    record (withP (.fin 5 0) .inf) 0x23100000 = some (0x32, 0x23100000) := by decide +kernel
/-- spec/41_point.md R148, R149, their examples. -/
theorem test_pgetx_pgety : (run1 (withP g .inf) 0x24300000).map (·.readF 3) = some (.full
      ⟨0x79BE667EF9DCBBAC55A06295CE870B07029BFCDB2DCE28D959F2815B16F81798, 0xFFFFFFFFFFFFFFFFFFFFFFFFFFFFFFFFFFFFFFFFFFFFFFFFFFFFFFFEFFFFFC2F⟩) ∧
    (run1 (withP g .inf) 0x25400000).map (·.readF 4) = some (.full
      ⟨0x483ADA7726A3C4655DA4FBFC0E1108A8FD17B448A68554199C47D08FFB10D4B8, 0xFFFFFFFFFFFFFFFFFFFFFFFFFFFFFFFFFFFFFFFFFFFFFFFFFFFFFFFEFFFFFC2F⟩) := by
  decide +kernel
/-- spec/41_point.md R148, R149: `Inf` and Empty. -/
theorem test_pgetx_pgety_faults : record (withP g .inf) 0x24010000 = some (0xD2, 0x24010000) ∧
    record (withP g .inf) 0x25020000 = some (0xC2, 0x25020000) := by decide +kernel
/-- spec/41_point.md R150, its example. -/
theorem test_pser_compressed : (run1 (withP g .inf) 0x26000001).map (fun t => (t.olen, Memory.readBytes t.mem 0x1200 34)) =
    some (33, [0x02, 0x79, 0xBE, 0x66, 0x7E, 0xF9, 0xDC, 0xBB, 0xAC, 0x55, 0xA0, 0x62, 0x95, 0xCE, 0x87, 0x0B, 0x07, 0x02, 0x9B, 0xFC, 0xDB,
      0x2D, 0xCE, 0x28, 0xD9, 0x59, 0xF2, 0x81, 0x5B, 0x16, 0xF8, 0x17, 0x98, 0x00]) := by decide +kernel
/-- spec/41_point.md R150: the uncompressed form begins with `04`, and an odd `y` compressed with `03`. -/
theorem test_pser_forms : (run1 (withP g .inf) 0x26000000).map (fun t => (t.olen, Memory.readBytes t.mem 0x1200 2, Memory.readBytes t.mem 0x1240 2)) =
    some (65, [0x04, 0x79], [0xB8, 0x00]) ∧
    (run1 (withP (.fin 5 7) .inf) 0x26000001).map (fun t => Memory.readBytes t.mem 0x1200 1) = some [0x03] := by decide +kernel
/-- spec/42_scalar.md R171, its example: `7G`. -/
theorem test_smul : (run1 ((State.reset.writeF 0 ⟨7, 101⟩).writeP 0 g) 0x30100000).map (·.readP 1) = some (.point
    (.fin 0x5CBDF0646E5DB4EAA398F365F2EA7A0E3D419B7E0330E39CE92BDDEDCAC4F9BC
      0x6AEBCA40BA255960A3178D6D861A54DBA813D0B813FDE7B5A5082628087264DA)) := by decide +kernel
/-- spec/42_scalar.md R171: a point of order 2 makes the doubling of the last turn fault. -/
theorem test_smul_fault : record ((State.reset.writeF 0 ⟨1, 101⟩).writeP 0 (.fin 5 0)) 0x30100000 = some (0x32, 0x30100000) := by decide +kernel
/-- spec/42_scalar.md R172, its examples. -/
theorem test_kchk : record (State.reset.writeF 0 ⟨7, 101⟩) 0x31000000 = some (0, 0) ∧
    record (State.reset.writeF 0 ⟨0, 101⟩) 0x31000000 = some (0x52, 0x31000000) := by decide +kernel
/-- spec/43_hmac_pbkdf2.md R194, its example. -/
theorem test_hmac : (run1 (keyed (ascii "key") (ascii "The quick brown fox jumps over the lazy dog")) 0x40000000).map
      (fun t => (t.olen, int (Memory.readBytes t.mem 0x1200 64), Memory.readBytes t.mem 0x1240 4)) =
    some (64, 0xB42AF09057BAC1E2D41708E48A902E09B5FF7F12AB428A4FE86653C73DD248FB82F948A549F7B791A5B41915EE4D1EC3935357E4E2317250D0372AFA2EBEEB3A,
      [0x00, 0x00, 0x00, 0x00]) := by decide +kernel
/-- spec/43_hmac_pbkdf2.md R193: a length above the capacity. -/
theorem test_hash_lengths : record { State.reset with klen := 257 } 0x40000000 = some (0xE2, 0x40000000) ∧
    record { State.reset with mlen := 257 } 0x41000000 = some (0xE2, 0x41000000) ∧
    record { State.reset with klen := 0xFFFFFFFF } 0x42000000 = some (0xE2, 0x42000000) := by decide +kernel
/-- The faulted unit drops a command and keeps the record; `CLRERR` clears it and `ZERO` does not (spec/60_exceptions.md R247, spec/44_system.md). -/
theorem test_faulted_unit : record { State.reset with err := true, ecode := 5, ecmd := 0x31000000 } 0x22000000 = some (0x52, 0x31000000) ∧
    record { State.reset with err := true, ecode := 5, ecmd := 0x31000000 } 0x01000000 = some (0, 0) ∧
    record { State.reset with err := true, ecode := 5, ecmd := 0x31000000 } 0x02000000 = some (0x52, 0x31000000) := by decide +kernel
/-- spec/44_system.md R212, its example. -/
theorem test_zero : (run1 { withF 7 101 7 101 with olen := 33, mem := [(0x1200, 0x02)] } 0x02000000).map
    (fun t => (t.readF 0, t.olen, t.mem)) = some (.empty, 0, []) := by decide +kernel
/-- An illegal word (DV-E27). -/
theorem test_illegal_word : record State.reset 0x10800000 = some (0xB2, 0x10800000) := by decide +kernel

/-! ## The hash functions (spec/45_sha512.md R221, R223) -/

/-- The digest of "abc", as FIPS 180-4 prints it. -/
theorem test_sha512_abc : int (sha512 (ascii "abc")) =
    0xDDAF35A193617ABACC417349AE20413112E6FA4E89A97EA20A9EEEE64B55D39A2192992A274FC1A836BA3C23A3FEEBBD454D4423643CE80E2A9AC94FA54CA49F := by
  decide +kernel

/-! ## The host's port -/

/-- DV-M1: the last word of `OPA` written and read back. -/
theorem test_write_opa : (nextOf (step (event (.write 0x005C [0x1D, 0x1E, 0x1F, 0x20]) true))).map (·.opa) = some 0x1D1E1F20 := by decide +kernel
/-- DV-M5, DV-M6: windows on `F[1]` and `P[2]`. -/
theorem test_windows : visibleWord (withF 0 101 7 101) 0x049C = [0x00, 0x00, 0x00, 0x07] ∧
    visibleWord (withF 0 101 7 101) 0x04BC = [0x00, 0x00, 0x00, 0x65] ∧ visibleWord (withF 0 101 7 101) 0x04C0 = [0x00, 0x00, 0x00, 0x01] ∧
    visibleWord (State.reset.writeP 2 g) 0x0900 = [0x79, 0xBE, 0x66, 0x7E] ∧ visibleWord (State.reset.writeP 2 g) 0x0940 = [0x00, 0x00, 0x00, 0x02] := by
  decide +kernel
/-- DV-M7: the last word of a buffer write is padded. -/
theorem test_wr_keybuf : wrBytes 0x1000 (ascii "key") = [held (.write 0x1000 [0x6B, 0x65, 0x79, 0x00])] := by decide +kernel
/-- spec/20_memory.md R58: a read of `STATUS` that gets in while a command is pending sees `BUSY`. -/
theorem test_status_busy : (nextOf (step { event (.read 0x0004 4) true with pend := some 0x22000000 })).map
    (fun t => (t.replies, t.pend)) = some ([[0x00, 0x00, 0x00, 0x01]], some 0x22000000) := by decide +kernel
/-- spec/70_reset_and_hazards.md R281: a reset abandons the pending command. -/
theorem test_reset_while_pending : (nextOf (step { event .reset true with pend := some 0x22000000, opa := 5 })) = some State.reset := by
  decide +kernel

/-! ## Witnesses: for every statement with hypotheses, values that meet them, clause by clause, at the boundaries -/

/-- A busy-free sample with something in every register and buffer. -/
def sample : State :=
  { (((State.reset.writeF 0 ⟨3, 101⟩).writeF 7 ⟨1, 2⟩).writeP 0 g).writeP 3 .inf with
    opa := 108, opm := 101, mem := [(0x1000, 0x6B), (0x11FF, 0x01), (0x1200, 0x02)], klen := 1, mlen := 256, olen := 33 }

theorem field_cases : ∀ i : RegIdx, sample.readF i = .empty ∨ sample.readF i = .full ⟨3, 101⟩ ∨ sample.readF i = .full ⟨1, 2⟩ := by
  decide +kernel

theorem point_cases : ∀ j : RegIdx, sample.readP j = .empty ∨ sample.readP j = .point g ∨ sample.readP j = .point .inf := by
  decide +kernel

/-- The sample meets the invariant. -/
theorem sample_inv : sample.Inv where
  fields i := by
    rcases field_cases i with h | h | h <;> rw [h]
    · exact trivial
    · exact ⟨by decide, by decide⟩
    · exact ⟨by decide, by decide⟩
  points j := by
    rcases point_cases j with h | h | h <;> rw [h]
    · exact trivial
    · exact ⟨by decide +kernel, by decide +kernel⟩
    · exact trivial
  memWf := by decide
  noRecord _ := ⟨rfl, rfl⟩
  record h := absurd h (by decide)
  pending h := absurd h (by decide)
  outLen := by decide
  outPad := by
    have h : ∀ k < 68, 33 ≤ k → Memory.read sample.mem (0x1200 + k) = 0 := by decide
    exact fun k h1 h2 => h k h2 h1
  workCleared := rfl

/-- An early write does not get in: it is held. -/
theorem held_write_first : NothingGetsIn [⟨.write 0x0010 [0, 0, 0, 1], true⟩] := by
  intro e h
  cases h
  decide

/-- A read of `STATUS` that comes after the completion does not get in. -/
theorem late_read_first : NothingGetsIn [⟨.read 0x0004 4, false⟩] := by
  intro e h
  cases h
  decide

theorem witness_DecodeOfEncodeIsTheCommand : (Instr.smul 3 7 3).WellFormed ∧ (Instr.padd 3 3 3).WellFormed ∧ (Instr.fadd 7 7 7).WellFormed ∧
    (Instr.pser 3 true).WellFormed ∧ Instr.hmac.WellFormed := by decide

theorem witness_EncodeOfDecodeIsTheWord : decode 0x30373000 = .ok (.smul 3 7 3) ∧ decode 0x26030001 = .ok (.pser 3 true) := ⟨rfl, rfl⟩

/-- An illegal word written to `CMD`, with an early write after it. -/
def illegalWritten : State :=
  { sample with inputs := [⟨.write 0x0000 (be (0x10800000 : Word).toNat 4), true⟩, ⟨.write 0x0010 [0, 0, 0, 1], true⟩] }

theorem witness_IllegalWordsAndWhatTheyDo : decode 0x10800000 = .error .fieldIndex ∧ decode 0x23400000 = .error .pointIndex ∧
    illegalWritten.pend = none ∧ illegalWritten.err = false ∧
    illegalWritten.inputs = ⟨.write 0x0000 (be (0x10800000 : Word).toNat 4), true⟩ :: [⟨.write 0x0010 [0, 0, 0, 1], true⟩] ∧
    NothingGetsIn [⟨.write 0x0010 [0, 0, 0, 1], true⟩] ∧ ({ illegalWritten with err := true, ecode := 3 } : State).err = true :=
  ⟨rfl, rfl, rfl, rfl, rfl, held_write_first, rfl⟩

theorem witness_ResetPutsEverythingAtItsResetValue :
    ((event .reset false).inputs = ⟨.reset, false⟩ :: [] ∧ (event .reset false).pend = none) ∧
    ({ event .reset true with pend := some 0x22000000 } : State).inputs = ⟨.reset, true⟩ :: [] := ⟨⟨rfl, rfl⟩, rfl⟩

/-- The invariant at a state with something everywhere, and a step from it. -/
theorem witness_EveryStepKeepsTheInvariant : sample.Inv ∧ ∃ t, step (sample.withFetchWord 32 0x11000000) = .next t ∧ t.readF 0 = .full ⟨6, 101⟩ :=
  ⟨sample_inv, _, rfl, by decide +kernel⟩

theorem witness_CodesSixToTenAndFifteenAreNeverProduced :
    step { State.reset with ecode := 6 } = .next { State.reset with ecode := 6 } ∧ (6 : BitVec 4).toNat ∈ [6, 7, 8, 9, 10, 15] ∧
    (15 : BitVec 4).toNat ∈ [6, 7, 8, 9, 10, 15] := ⟨rfl, by decide, by decide⟩

/-- The sample with one event to come. -/
def sampleEvent (a : HostAction) : State := { sample with inputs := [⟨a, true⟩] }

/-- One offset for each row of the register map, the last word of each. -/
theorem witness_ReadReturnsTheBytesShown :
    ∀ off ∈ [0x0004, 0x0008, 0x0010, 0x0014, 0x0018, 0x005C, 0x007C, 0x079C, 0x07BC, 0x07C0, 0x099C, 0x09BC, 0x09C0, 0x10FC, 0x11FC, 0x1240],
      (sampleEvent (.read off 4)).pend = none ∧ (sampleEvent (.read off 4)).inputs = ⟨.read off 4, true⟩ :: [] ∧
      Shows (sampleEvent (.read off 4)) off (visibleWord sample off) := by
  unfold Shows
  decide +kernel

theorem witness_WriteStoresItsBytesAndNothingElse :
    ∀ off ∈ [0x0010, 0x0014, 0x0040, 0x005C, 0x0060, 0x007C, 0x1000, 0x10FC, 0x1100, 0x11FC],
      Memory.wf (sampleEvent (.write off [0, 1, 2, 3])).mem = true ∧ (sampleEvent (.write off [0, 1, 2, 3])).pend = none ∧
      (sampleEvent (.write off [0, 1, 2, 3])).inputs = ⟨.write off [0, 1, 2, 3], true⟩ :: [] ∧ ([0, 1, 2, 3] : List Byte).length = 4 ∧
      Writable off := by
  unfold Writable
  decide +kernel

theorem witness_WritingOpaWordByWord :
    ({ sample with inputs := wrWide 0x0040 (2 ^ 256 - 1) } : State).pend = none ∧
    ({ sample with inputs := wrWide 0x0040 (2 ^ 256 - 1) } : State).inputs = wrWide 0x0040 (BitVec.ofNat 256 (2 ^ 256 - 1)).toNat :=
  ⟨rfl, rfl⟩

/-- One access for each clause, and what it answers. -/
theorem witness_RefusedAccessesHaveNoStep :
    refusalOf (step (event (.read 0x0004 2) true)) = some .accessWidth ∧ refusalOf (step (event (.read 0x0005 4) true)) = some .misaligned ∧
    faultOf (step (event (.read 0x2000 4) true)) = some .outsideMap ∧ refusalOf (step (event (.read 0x000C 4) true)) = some .unmapped ∧
    refusalOf (step (event (.read 0x0000 4) true)) = some .writeOnly ∧ refusalOf (step (event .foreign true)) = some .secondInitiator ∧
    refusalOf (step (event (.write 0x0010 [0x01]) true)) = some .accessWidth ∧
    refusalOf (step (event (.write 0x0042 [0x00, 0x00, 0x00, 0x00]) true)) = some .misaligned ∧
    faultOf (step (event (.write 0x2000 [0x00, 0x00, 0x00, 0x00]) true)) = some .outsideMap ∧
    refusalOf (step (event (.write 0x1FFC [0x00, 0x00, 0x00, 0x00]) true)) = some .unmapped ∧
    refusalOf (step (event (.write 0x0440 [0x00, 0x00, 0x00, 0x00]) true)) = some .readOnly := by decide +kernel

/-- Offsets at the edges of the holes and of the read-only windows. -/
theorem witness_RefusedAccessesHaveNoStep_edges :
    (∀ off ∈ [0x000C, 0x001C, 0x003C, 0x0080, 0x03FC, 0x0444, 0x047C, 0x07C4, 0x0844, 0x09C4, 0x0FFC, 0x1244, 0x1FFC], Unmapped off) ∧
    ∀ off ∈ [0x0004, 0x0008, 0x0018, 0x0400, 0x0440, 0x0780, 0x07C0, 0x0800, 0x0840, 0x0980, 0x09C0, 0x1200, 0x1240], ReadOnly off := by
  unfold Unmapped Writable ReadOnly
  decide +kernel

/-- A unit that is not faulted, and a faulted one that takes `CLRERR` and `ZERO` and drops `PLDG`. -/
theorem witness_CmdWriteMakesTheWordPending :
    (∀ w : Word, (sampleEvent (.write 0x0000 (be w.toNat 4))).pend = none ∧ (sampleEvent (.write 0x0000 (be w.toNat 4))).err = false ∧
      (sampleEvent (.write 0x0000 (be w.toNat 4))).inputs = ⟨.write 0x0000 (be w.toNat 4), true⟩ :: []) ∧
    (∀ w : Word, ({ sampleEvent (.write 0x0000 (be w.toNat 4)) with err := true, ecode := 3 } : State).err = true) ∧
    decode 0x01000000 = .ok .clrerr ∧ decode 0x02000000 = .ok .zero ∧ decode 0x22000000 ≠ .ok .clrerr ∧ decode 0x22000000 ≠ .ok .zero := by
  refine ⟨fun _ => ⟨rfl, rfl, rfl⟩, fun _ => rfl, rfl, rfl, ?_, ?_⟩ <;> exact fun h => by cases h

/-- A held access, an early access that is held all the same (a write, and one the spec refuses), and an early read of `STATUS`. -/
theorem witness_AccessesAreHeldWhileBusy :
    (∀ e : HostEvent, ({ sample with pend := some 0x22000000, inputs := [e] } : State).pend = some 0x22000000 ∧
      ({ sample with pend := some 0x22000000, inputs := [e] } : State).inputs = e :: []) ∧
    (∀ e ∈ ([⟨.read 0x0004 4, false⟩, ⟨.write 0x0010 [0, 0, 0, 1], true⟩, ⟨.foreign, true⟩, ⟨.read 0x0004 2, true⟩] : List HostEvent),
      ¬ (e.early = true ∧ (e.act = .read 0x0004 4 ∨ e.act = .reset))) ∧
    (⟨.read 0x0004 4, true⟩ : HostEvent).early = true ∧ (⟨.read 0x0004 4, true⟩ : HostEvent).act = .read 0x0004 4 :=
  ⟨fun _ => ⟨rfl, rfl⟩, by decide +kernel, rfl, rfl⟩

theorem witness_PendingCommandIsEventuallyCompleted :
    ({ sample with pend := some 0x22000000, inputs := [⟨.read 0x0004 4, true⟩, ⟨.reset, true⟩] } : State).pend = some 0x22000000 := rfl

theorem witness_CmdWriteThenCompletionIsOneCommand :
    (Instr.fadd 7 0 0).WellFormed ∧ sample.pend = none ∧ sample.err = false ∧
    ({ sample with inputs := [⟨.write 0x0000 (encodeBytes (.fadd 7 0 0)), true⟩, ⟨.read 0x0004 4, false⟩] } : State).inputs =
      ⟨.write 0x0000 (encodeBytes (.fadd 7 0 0)), true⟩ :: [⟨.read 0x0004 4, false⟩] ∧
    NothingGetsIn [⟨.read 0x0004 4, false⟩] := ⟨by decide, rfl, rfl, rfl, late_read_first⟩

/-- With an early write to come, which is held. -/
theorem witness_StepRunsTheDecodedCommand :
    ({ sampleEvent (.write 0x0010 [0, 0, 0, 1]) with pend := some 0x31000000 } : State).pend = some 0x31000000 ∧ decode 0x31000000 = .ok (.kchk 0) ∧
    NothingGetsIn ({ sampleEvent (.write 0x0010 [0, 0, 0, 1]) with pend := some 0x31000000 } : State).inputs ∧
    decodeTableWord 32 0x26030001 = some (.pser 3 true) := ⟨rfl, rfl, held_write_first, by decide +kernel⟩

theorem witness_FaultEntryWritesTheRecordAndNothingElse :
    (Instr.fadd 0 0 1).WellFormed ∧ sample.err = false ∧ (∃ t, exec (.fadd 0 0 1) sample = .next t ∧ t.err = true) ∧
    (∃ t, exec (.fadd 0 0 7) sample = .next t ∧ t.err = true) ∧
    decode 0x00000000 = .error .opcode ∧ ({ sampleEvent (.write 0x0010 [0, 0, 0, 1]) with pend := some 0x00000000 } : State).err = false ∧
    NothingGetsIn ({ sampleEvent (.write 0x0010 [0, 0, 0, 1]) with pend := some 0x00000000 } : State).inputs :=
  ⟨by decide, rfl, ⟨_, rfl, by decide +kernel⟩, ⟨_, rfl, by decide +kernel⟩, rfl, rfl, held_write_first⟩

theorem witness_FaultedUnitDropsCommands : ({ sample with err := true, ecode := 5 } : State).err = true ∧ Instr.pldg 0 ≠ .clrerr ∧
    Instr.pldg 0 ≠ .zero := by decide

theorem witness_ClearedFaultRecurs : (Instr.finv 0 1).WellFormed ∧ sample.err = false ∧ sample.ecode = 0 ∧ sample.ecmd = 0 ∧ sample.pend = none ∧
    sample.work = Work.cleared ∧ ∃ t, exec (.finv 0 1) sample = .next t ∧ t.err = true :=
  ⟨by decide, rfl, rfl, rfl, rfl, rfl, _, rfl, by decide +kernel⟩

theorem witness_OnlyClrerrLeavesTheFaultedState :
    ({ sample with err := true, ecode := 5 } : State).err = true ∧ (∃ t, exec .zero { sample with err := true, ecode := 5 } = .next t) ∧
    Instr.zero ≠ .clrerr := ⟨rfl, ⟨_, rfl⟩, by decide⟩

theorem witness_NoCommandButZeroWritesTheHostsOperands :
    Memory.wf sample.mem = true ∧ (∃ t, exec (.pser 0 true) sample = .next t) ∧ Instr.pser 0 true ≠ .zero := ⟨by decide, ⟨_, rfl⟩, by decide⟩

theorem witness_WritersOfFieldRegisters :
    ((Instr.fadd 7 0 0).WellFormed ∧ ∃ t, exec (.fadd 7 0 0) sample = .next t ∧ t.readF 7 ≠ sample.readF 7) ∧
    ∃ t, exec .zero sample = .next t ∧ t.readF 0 ≠ sample.readF 0 :=
  ⟨⟨by decide, _, rfl, by decide +kernel⟩, _, rfl, by decide +kernel⟩

theorem witness_WritersOfPointRegisters :
    ((Instr.pinf 0).WellFormed ∧ ∃ t, exec (.pinf 0) sample = .next t ∧ t.readP 0 ≠ sample.readP 0) ∧
    ∃ t, exec .zero sample = .next t ∧ t.readP 3 ≠ sample.readP 3 :=
  ⟨⟨by decide, _, rfl, by decide +kernel⟩, _, rfl, by decide +kernel⟩

theorem witness_WritersOfTheOutputBuffer :
    (∃ t, exec (.pser 0 true) sample = .next t ∧ t.mem ≠ sample.mem) ∧ ∃ t, exec .zero sample = .next t ∧ t.olen ≠ sample.olen :=
  ⟨⟨_, rfl, by decide +kernel⟩, _, rfl, by decide +kernel⟩

theorem witness_FmakeReducesTheStagedValue : (7 : RegIdx).toNat < 8 ∧ (staged 5 0).err = false ∧ (staged 5 0).opm.toNat ≤ 1 ∧
    (staged 5 1).opm.toNat ≤ 1 ∧ 1 < (staged 3 2).opm.toNat ∧ 1 < (staged 3 (2 ^ 256 - 1)).opm.toNat := by decide +kernel

/-- The clauses of `FADD`, `FSUB` and `FMUL`: Empty, different moduli, and one modulus (the smallest, and equal values). -/
theorem witness_FaddAddsModuloTheSourcesModulus : (7 : RegIdx).toNat < 8 ∧ (withF 1 2 0 2).err = false ∧ (withF 1 2 0 2).readF 7 = .empty ∧
    ((withF 3 101 5 103).readF 0 = .full ⟨3, 101⟩ ∧ (withF 3 101 5 103).readF 1 = .full ⟨5, 103⟩ ∧ (101 : U256) ≠ 103) ∧
    ((withF 1 2 0 2).readF 0 = .full ⟨1, 2⟩ ∧ (withF 1 2 0 2).readF 1 = .full ⟨0, 2⟩ ∧ 1 < (2 : U256).toNat) := by decide +kernel

theorem witness_FsubSubtractsModuloTheSourcesModulus : (7 : RegIdx).toNat < 8 ∧ (withF 1 2 0 2).err = false ∧ (withF 1 2 0 2).readF 7 = .empty ∧
    ((withF 3 101 5 103).readF 0 = .full ⟨3, 101⟩ ∧ (withF 3 101 5 103).readF 1 = .full ⟨5, 103⟩ ∧ (101 : U256) ≠ 103) ∧
    ((withF 1 2 0 2).readF 0 = .full ⟨1, 2⟩ ∧ (withF 1 2 0 2).readF 1 = .full ⟨0, 2⟩ ∧ (1 : U256).toNat < (2 : U256).toNat ∧
      (0 : U256).toNat < (2 : U256).toNat) := by decide +kernel

theorem witness_FmulMultipliesModuloTheSourcesModulus : (7 : RegIdx).toNat < 8 ∧ (withF 1 2 0 2).err = false ∧ (withF 1 2 0 2).readF 7 = .empty ∧
    ((withF 3 101 5 103).readF 0 = .full ⟨3, 101⟩ ∧ (withF 3 101 5 103).readF 1 = .full ⟨5, 103⟩ ∧ (101 : U256) ≠ 103) ∧
    ((withF 1 2 0 2).readF 0 = .full ⟨1, 2⟩ ∧ (withF 1 2 0 2).readF 1 = .full ⟨0, 2⟩ ∧ 1 < (2 : U256).toNat) := by decide +kernel

theorem canonical_of {v m : U256} (h : 1 < m.toNat ∧ v.toNat < m.toNat) : (FieldReg.full ⟨v, m⟩).Canonical := h

/-- The clauses of `FDIV`: Empty, a zero divisor, no inverse, different moduli, and a quotient (a composite and the smallest modulus). -/
theorem witness_FdivMultipliesByTheInverse :
    (withF 3 101 0 101).readF 7 = .empty ∧
    ((withF 3 101 0 101).readF 0 = .full ⟨3, 101⟩ ∧ (withF 3 101 0 101).readF 1 = .full ⟨0, 101⟩ ∧
      (FieldReg.full ⟨3, 101⟩).Canonical ∧ (FieldReg.full ⟨0, 101⟩).Canonical) ∧
    ((withF 3 101 10 100).readF 0 = .full ⟨3, 101⟩ ∧ (withF 3 101 10 100).readF 1 = .full ⟨10, 100⟩ ∧
      (FieldReg.full ⟨10, 100⟩).Canonical ∧ (10 : U256) ≠ 0 ∧ Nat.gcd 10 100 ≠ 1) ∧
    ((withF 3 101 5 103).readF 0 = .full ⟨3, 101⟩ ∧ (withF 3 101 5 103).readF 1 = .full ⟨5, 103⟩ ∧
      (FieldReg.full ⟨5, 103⟩).Canonical ∧ Nat.gcd 5 103 = 1 ∧ (101 : U256) ≠ 103) ∧
    ((withF 3 100 7 100).readF 0 = .full ⟨3, 100⟩ ∧ (withF 3 100 7 100).readF 1 = .full ⟨7, 100⟩ ∧
      (FieldReg.full ⟨3, 100⟩).Canonical ∧ (FieldReg.full ⟨7, 100⟩).Canonical ∧ Nat.gcd 7 100 = 1) ∧
    ((withF 0 2 1 2).readF 0 = .full ⟨0, 2⟩ ∧ (withF 0 2 1 2).readF 1 = .full ⟨1, 2⟩ ∧
      (FieldReg.full ⟨0, 2⟩).Canonical ∧ (FieldReg.full ⟨1, 2⟩).Canonical ∧ Nat.gcd 1 2 = 1) := by
  refine ⟨by decide +kernel,
    ⟨by decide +kernel, by decide +kernel, canonical_of (by decide), canonical_of (by decide)⟩,
    ⟨by decide +kernel, by decide +kernel, canonical_of (by decide), by decide, by decide⟩,
    ⟨by decide +kernel, by decide +kernel, canonical_of (by decide), by decide, by decide⟩,
    ⟨by decide +kernel, by decide +kernel, canonical_of (by decide), canonical_of (by decide), by decide⟩,
    by decide +kernel, by decide +kernel, canonical_of (by decide), canonical_of (by decide), by decide⟩

theorem witness_FinvInverts :
    (withF 0 101 1 2).readF 7 = .empty ∧
    ((withF 0 101 1 2).readF 0 = .full ⟨0, 101⟩ ∧ (FieldReg.full ⟨0, 101⟩).Canonical ∧ Nat.gcd 0 101 ≠ 1) ∧
    ((withF 0 101 1 2).readF 1 = .full ⟨1, 2⟩ ∧ (FieldReg.full ⟨1, 2⟩).Canonical ∧ Nat.gcd 1 2 = 1) :=
  ⟨by decide +kernel, ⟨by decide +kernel, canonical_of (by decide), by decide⟩, by decide +kernel, canonical_of (by decide), by decide⟩

theorem witness_InverseHelperFindsTheUniqueInverse : (2 ≤ 2 ∧ 2 < 2 ^ 256 ∧ 1 < 2 ∧ Nat.gcd 1 2 = 1) ∧
    (2 ≤ 2 ^ 256 - 1 ∧ 2 ^ 256 - 1 < 2 ^ 256 ∧ Nat.gcd 3 (2 ^ 256 - 1) ≠ 1) := by decide +kernel

theorem witness_RingHelpersGiveTheCanonicalRepresentative : 2 ≤ (2 : U256).toNat ∧ (1 : U256).toNat < (2 : U256).toNat ∧
    2 ≤ (BitVec.ofNat 256 (2 ^ 256 - 1)).toNat := by decide +kernel

theorem witness_FieldLawsOfAFixedModulus : 2 ≤ (100 : U256).toNat ∧ (99 : U256).toNat < (100 : U256).toNat ∧ (7 : U256).toNat < (100 : U256).toNat ∧
    (0 : U256).toNat < (100 : U256).toNat ∧ Nat.gcd (7 : U256).toNat (100 : U256).toNat = 1 := by decide +kernel

/-- Two states that differ everywhere but in the sources. -/
theorem witness_FieldCommandsDependOnlyOnTheirSources :
    (withF 3 101 5 101).err = false ∧ ({ withF 3 101 5 101 with opa := 1, p := sample.p, olen := 64 } : State).err = false ∧
    (withF 3 101 5 101).readF 0 = ({ withF 3 101 5 101 with opa := 1, p := sample.p, olen := 64 } : State).readF 0 ∧
    (withF 3 101 5 101).readF 1 = ({ withF 3 101 5 101 with opa := 1, p := sample.p, olen := 64 } : State).readF 1 ∧
    (∃ t, exec (.fdiv 2 0 1) (withF 3 101 5 101) = .next t ∧ t.err = false) ∧
    ∃ t, exec (.fdiv 2 0 1) { withF 3 101 5 101 with opa := 1, p := sample.p, olen := 64 } = .next t ∧ t.err = false :=
  ⟨rfl, rfl, by decide +kernel, by decide +kernel, ⟨_, rfl, by decide +kernel⟩, _, rfl, by decide +kernel⟩

/-- A tangent and a chord. -/
theorem witness_PointAdditionFormulas :
    ((1 : U256).toNat < Config.pField ∧ (BitVec.ofNat 256 (Config.pField - 1)).toNat < Config.pField) ∧
    (∃ C, pointAdd (.fin 1 1) (.fin 1 1) = .ok C) ∧ ∃ C, pointAdd (.fin 1 1) (.fin 2 3) = .ok C :=
  ⟨by decide +kernel, ⟨thirdPoint _ _ _ _, rfl⟩, thirdPoint _ _ _ _, rfl⟩

/-- Equal `x` with different `y`, with `y = 0`, and with equal `y`. -/
theorem witness_PointAdditionFaultsExactlyOnAZeroDenominator :
    (5 : U256).toNat < Config.pField ∧ (0 : U256).toNat < Config.pField ∧ pointAdd (.fin 5 1) (.fin 5 2) = .error .divisionByZero ∧
    pointAdd (.fin 5 0) (.fin 5 0) = .error .divisionByZero ∧ ∃ C, pointAdd (.fin 5 1) (.fin 5 1) = .ok C :=
  ⟨by decide +kernel, by decide +kernel, rfl, rfl, thirdPoint _ _ _ _, rfl⟩

theorem witness_PointAdditionCommutes : g.Canonical ∧ CurvePoint.inf.Canonical ∧ (CurvePoint.fin 5 0).Canonical :=
  ⟨⟨by decide +kernel, by decide +kernel⟩, trivial, by decide +kernel, by decide +kernel⟩

theorem witness_PmakeBuildsAFinitePoint :
    (3 : RegIdx).toNat < 4 ∧ (7 : RegIdx).toNat < 8 ∧ (withF 5 Config.pField 6 101).err = false ∧ (withF 5 Config.pField 6 101).readF 7 = .empty ∧
    ((withF 5 Config.pField 6 101).readF 1 = .full ⟨6, 101⟩ ∧ (101 : U256).toNat ≠ Config.pField) ∧
    ((withF 5 Config.pField 6 101).readF 0 = .full ⟨5, BitVec.ofNat 256 Config.pField⟩ ∧
      (BitVec.ofNat 256 Config.pField).toNat = Config.pField) := by decide +kernel

theorem witness_PinfAndPldgWriteTheirConstant : (3 : RegIdx).toNat < 4 ∧ sample.err = false := by decide +kernel

theorem witness_PaddAddsPoints :
    (3 : RegIdx).toNat < 4 ∧ (withP g (.fin 5 0)).err = false ∧ (withP g (.fin 5 0)).readP 3 = .empty ∧
    ((withP g (.fin 5 0)).readP 0 = .point g ∧ ∃ C, pointAdd g g = .ok C) ∧
    ((withP g (.fin 5 0)).readP 1 = .point (.fin 5 0) ∧ ∃ k, pointAdd (.fin 5 0) (.fin 5 0) = .error k) :=
  ⟨by decide, rfl, by decide +kernel, ⟨by decide +kernel, thirdPoint _ _ _ _, rfl⟩, by decide +kernel, .divisionByZero, rfl⟩

theorem witness_PgetxAndPgetyCopyACoordinate :
    (7 : RegIdx).toNat < 8 ∧ (3 : RegIdx).toNat < 4 ∧ (withP g .inf).err = false ∧ (withP g .inf).readP 3 = .empty ∧
    (withP g .inf).readP 1 = .point .inf ∧ (withP g .inf).readP 0 = .point g := by decide +kernel

theorem witness_PserSerializesAFinitePoint :
    (3 : RegIdx).toNat < 4 ∧ (withP g .inf).err = false ∧ Memory.wf (withP g .inf).mem = true ∧ (withP g .inf).readP 3 = .empty ∧
    (withP g .inf).readP 1 = .point .inf ∧ (withP g .inf).readP 0 = .point g := by decide +kernel

/-- Empty sources, scalars with a result (0 and 1), and a point of order 2. -/
theorem witness_SmulRunsTheDoubleAndAddLoop :
    (State.reset.writeF 0 ⟨1, 101⟩).readF 0 = .full ⟨1, 101⟩ ∧ (State.reset.writeF 0 ⟨1, 101⟩).readF 7 = .empty ∧
    (withP g (.fin 5 0)).readP 0 = .point g ∧ (withP g (.fin 5 0)).readP 1 = .point (.fin 5 0) ∧
    nextOf (exec (.smul 1 0 0) ((State.reset.writeF 0 ⟨1, 101⟩).writeP 0 g)) =
      some (wroteP ((State.reset.writeF 0 ⟨1, 101⟩).writeP 0 g) 1 g) ∧
    nextOf (exec (.smul 1 0 0) ((State.reset.writeF 0 ⟨0, 101⟩).writeP 0 g)) =
      some (wroteP ((State.reset.writeF 0 ⟨0, 101⟩).writeP 0 g) 1 .inf) := by decide +kernel

theorem witness_SmulOfTheBasePointFaultsOnlyAtTheOrder :
    ((State.reset.writeF 0 ⟨BitVec.ofNat 256 Config.nOrder, 2⟩).writeP 0 g).err = false ∧
    ((State.reset.writeF 0 ⟨BitVec.ofNat 256 Config.nOrder, 2⟩).writeP 0 g).readF 0 = .full ⟨BitVec.ofNat 256 Config.nOrder, 2⟩ ∧
    ((State.reset.writeF 0 ⟨BitVec.ofNat 256 Config.nOrder, 2⟩).writeP 0 g).readP 0 = .point g ∧
    (BitVec.ofNat 256 Config.nOrder).toNat = Config.nOrder ∧ (BitVec.ofNat 256 (Config.nOrder - 1)).toNat ≠ Config.nOrder ∧
    Config.nOrder < (BitVec.ofNat 256 (Config.nOrder + 1)).toNat := by decide +kernel

theorem witness_SmulOfTheBasePointIsRepeatedAddition : 0 + 1 < Config.nOrder ∧ Config.nOrder - 2 + 1 < Config.nOrder := by decide +kernel

theorem witness_KchkChecksTheKeyRange :
    (7 : RegIdx).toNat < 8 ∧ (withF 0 2 1 2).err = false ∧ (withF 0 2 1 2).readF 7 = .empty ∧ (withF 0 2 1 2).readF 0 = .full ⟨0, 2⟩ ∧
    (withF 0 2 1 2).readF 1 = .full ⟨1, 2⟩ ∧ 1 ≤ (1 : U256).toNat ∧ Config.nOrder ≤ (BitVec.ofNat 256 Config.nOrder).toNat ∧
    (BitVec.ofNat 256 (Config.nOrder - 1)).toNat < Config.nOrder := by decide +kernel

/-- The sample with the largest modulus staged, as the sequence wants it. -/
def sampleKey : State := { sample with opm := BitVec.ofNat 256 (2 ^ 256 - 1) }

theorem sampleKey_inv : sampleKey.Inv :=
  ⟨sample_inv.fields, sample_inv.points, sample_inv.memWf, sample_inv.noRecord, sample_inv.record, sample_inv.pending, sample_inv.outLen,
    sample_inv.outPad, sample_inv.workCleared⟩

/-- One key, and the two keys at the ends of the range. -/
theorem witness_PublicKeyFromPrivateNeverFaults :
    sampleKey.Inv ∧ sampleKey.err = false ∧ sampleKey.opm.toNat = 2 ^ 256 - 1 ∧ 1 ≤ sampleKey.opa.toNat ∧ sampleKey.opa.toNat < Config.nOrder ∧
    (BitVec.ofNat 256 (Config.nOrder - 1)).toNat < Config.nOrder :=
  ⟨sampleKey_inv, by decide +kernel⟩

/-- The hash commands: lengths at the capacity and one above it. -/
theorem witness_HmacWritesTheDigest : sample.err = false ∧ Memory.wf sample.mem = true ∧ sample.klen.toNat ≤ 256 ∧ sample.mlen.toNat ≤ 256 ∧
    256 < ({ sample with klen := 257 } : State).klen.toNat := by decide +kernel

theorem witness_Pbkdf2WritesTheDerivedKey : sample.err = false ∧ Memory.wf sample.mem = true ∧ sample.klen.toNat ≤ 256 ∧ sample.mlen.toNat ≤ 256 ∧
    256 < ({ sample with klen := 257 } : State).klen.toNat := by decide +kernel

theorem witness_MseedPrependsMnemonicToTheSalt : sample.err = false ∧ Memory.wf sample.mem = true ∧ sample.klen.toNat ≤ 256 ∧
    sample.mlen.toNat ≤ 256 ∧ 256 < ({ sample with mlen := 257 } : State).mlen.toNat := by decide +kernel

/-- A phrase with a passphrase, and the same phrase with "mnemonic" and the passphrase. -/
theorem witness_MseedIsPbkdf2WithTheHostsPrefix :
    Memory.wf (keyed (ascii "ab") (ascii "c")).mem = true ∧ Memory.wf (keyed (ascii "ab") (ascii "mnemonicc")).mem = true ∧
    (keyed (ascii "ab") (ascii "c")).klen.toNat ≤ 256 ∧ (keyed (ascii "ab") (ascii "mnemonicc")).klen = (keyed (ascii "ab") (ascii "c")).klen ∧
    (keyed (ascii "ab") (ascii "c")).mlen.toNat + 8 ≤ 256 ∧
    (keyed (ascii "ab") (ascii "mnemonicc")).mlen.toNat = (keyed (ascii "ab") (ascii "c")).mlen.toNat + 8 ∧
    (∀ k < 2, Memory.read (keyed (ascii "ab") (ascii "mnemonicc")).mem (0x1000 + k) = Memory.read (keyed (ascii "ab") (ascii "c")).mem (0x1000 + k)) ∧
    Memory.readBytes (keyed (ascii "ab") (ascii "mnemonicc")).mem 0x1100 8 = [0x6D, 0x6E, 0x65, 0x6D, 0x6F, 0x6E, 0x69, 0x63] ∧
    (∀ k < 1, Memory.read (keyed (ascii "ab") (ascii "mnemonicc")).mem (0x1100 + 8 + k) = Memory.read (keyed (ascii "ab") (ascii "c")).mem (0x1100 + k)) ∧
    (keyed (ascii "ab") (ascii "c")).err = false ∧ (keyed (ascii "ab") (ascii "mnemonicc")).err = false ∧
    (∃ t, exec .mseed (keyed (ascii "ab") (ascii "c")) = .next t) ∧ ∃ t, exec .pbkdf2 (keyed (ascii "ab") (ascii "mnemonicc")) = .next t :=
  ⟨by decide +kernel, by decide +kernel, by decide +kernel, by decide +kernel, by decide +kernel, by decide +kernel, by decide +kernel,
    by decide +kernel, by decide +kernel, rfl, rfl, ⟨_, rfl⟩, _, rfl⟩

/-- Two states that agree on the meaningful bytes and differ beyond them. -/
theorem witness_HashCommandsDependOnlyOnTheMeaningfulBytes :
    Instr.hmac ∈ ([.hmac, .pbkdf2, .mseed] : List Instr) ∧ (keyed [1] [2]).err = false ∧
    ({ keyed [1, 9] [2, 9] with klen := 1, mlen := 1 } : State).err = false ∧
    Memory.wf (keyed [1] [2]).mem = true ∧ Memory.wf (keyed [1, 9] [2, 9]).mem = true ∧
    (keyed [1] [2]).klen = 1 ∧ (keyed [1] [2]).mlen = 1 ∧
    Memory.read (keyed [1, 9] [2, 9]).mem 0x1000 = Memory.read (keyed [1] [2]).mem 0x1000 ∧
    Memory.read (keyed [1, 9] [2, 9]).mem 0x1100 = Memory.read (keyed [1] [2]).mem 0x1100 ∧
    (∃ t, exec .hmac (keyed [1] [2]) = .next t) ∧ ∃ t, exec .hmac { keyed [1, 9] [2, 9] with klen := 1, mlen := 1 } = .next t :=
  ⟨by decide, rfl, rfl, by decide +kernel, by decide +kernel, by decide, by decide, by decide +kernel, by decide +kernel, ⟨_, rfl⟩, _, rfl⟩

end Sys2Proof.Tests
end

section
/-! SUPPORT. The decoder and the encoder as the unit's step uses them: the word of a well-formed command decodes to it, a word that decodes gives a well-formed
command, and the words a faulted unit takes. -/

namespace Sys2Proof

/-- Every command's word fits the row of its opcode (spec/30_encoding.md R83, R84), from the lemma of each constructor. -/
theorem encodingFits : ∀ i : Instr, Laws.EncodingFits.Statement i
  | .clrerr => Laws.EncodingFits.clrerr
  | .zero => Laws.EncodingFits.zero
  | .fmake rd => Laws.EncodingFits.fmake rd
  | .fadd rd rs1 rs2 => Laws.EncodingFits.fadd rd rs1 rs2
  | .fsub rd rs1 rs2 => Laws.EncodingFits.fsub rd rs1 rs2
  | .fmul rd rs1 rs2 => Laws.EncodingFits.fmul rd rs1 rs2
  | .fdiv rd rs1 rs2 => Laws.EncodingFits.fdiv rd rs1 rs2
  | .finv rd rs1 => Laws.EncodingFits.finv rd rs1
  | .pmake rd rs1 rs2 => Laws.EncodingFits.pmake rd rs1 rs2
  | .pinf rd => Laws.EncodingFits.pinf rd
  | .pldg rd => Laws.EncodingFits.pldg rd
  | .padd rd rs1 rs2 => Laws.EncodingFits.padd rd rs1 rs2
  | .pgetx rd rs1 => Laws.EncodingFits.pgetx rd rs1
  | .pgety rd rs1 => Laws.EncodingFits.pgety rd rs1
  | .pser rs1 m => Laws.EncodingFits.pser rs1 m
  | .smul rd rs1 rs2 => Laws.EncodingFits.smul rd rs1 rs2
  | .kchk rs1 => Laws.EncodingFits.kchk rs1
  | .hmac => Laws.EncodingFits.hmac
  | .pbkdf2 => Laws.EncodingFits.pbkdf2
  | .mseed => Laws.EncodingFits.mseed

/-- The word of a well-formed command decodes to it. -/
theorem decode_encode {i : Instr} (hi : i.wf = true) : decode (encode i) = .ok i := by
  obtain ⟨r, hr, hop, hfit, hb⟩ := encodingFits i hi
  rw [decode_of_accepts hr ((accepts_iff hr _).mpr ⟨hop, hfit⟩), hb]

/-- A word that fits a row's format gives the row's command legal indices. -/
theorem build_wf : ∀ r ∈ opcodeMap, ∀ w : Word, r.format.Fits w → (r.build w).wf = true := by
  simp only [opcodeMap, List.cons_append, List.nil_append, List.forall_mem_cons, List.not_mem_nil, false_implies, implies_true, and_true]
  simp +contextual [Format.Fits, Slot.allows, Instr.wf, Format.z, Format.fd, Format.fdF, Format.fdFF, Format.pd, Format.pdFF, Format.pdPP, Format.fdP,
    Format.pm, Format.pdFP, Format.fs]

/-- A word that decodes gives a well-formed command. -/
theorem wf_of_decode {w : Word} {i : Instr} (h : decode w = .ok i) : i.wf = true := by
  rcases decode_cases w with ⟨r, hr, ha, hd⟩ | ⟨-, hd⟩
  · rw [hd] at h
    cases h
    exact build_wf r hr w ((accepts_iff hr w).mp ha).2
  · rw [hd] at h; cases h

/-- An opcode-table word of 32 bits is decoded as the word it is. -/
theorem decode_of_decodeTableWord {w : Nat} {i : Instr} (h : decodeTableWord 32 w = some i) : decode (BitVec.ofNat 32 (w % 2 ^ 32)) = .ok i := by
  have hw : (BitVec.ofNat 32 (w % 2 ^ 32)).toNat = w % 2 ^ 32 := by simp
  unfold decodeTableWord at h
  rw [if_pos le_rfl, ← hw, decodeBytes_be] at h
  cases hd : decode (BitVec.ofNat 32 (w % 2 ^ 32)) with
  | ok j => rw [hd] at h; cases h; rfl
  | error e => rw [hd] at h; cases h

end Sys2Proof

namespace Sys2Proof.Machine

/-- `CLRERR` and `ZERO` are the two commands that run while the unit is faulted (spec/44_system.md R210). -/
theorem runsWhileFaulted_iff (i : Instr) : runsWhileFaulted i = true ↔ i = .clrerr ∨ i = .zero := by
  cases i <;> simp [runsWhileFaulted]

/-- The words a faulted unit takes are those that decode to `CLRERR` or `ZERO` (spec/60_exceptions.md R247). -/
theorem acceptedWhileFaulted_iff (w : Word) : acceptedWhileFaulted w = true ↔ decode w = .ok .clrerr ∨ decode w = .ok .zero := by
  unfold acceptedWhileFaulted
  cases decode w with
  | ok i => simp [runsWhileFaulted_iff]
  | error e => simp

/-- A faulted unit drops every command but `CLRERR` and `ZERO` (spec/60_exceptions.md R247). -/
theorem exec_faulted {i : Instr} {s : State} (hs : s.err = true) (hc : i ≠ .clrerr) (hz : i ≠ .zero) : exec i s = .next s.drop := by
  have hr : runsWhileFaulted i = false := by
    rw [← Bool.not_eq_true, runsWhileFaulted_iff]
    simp [hc, hz]
  rw [exec_eq, runCommand_faulted hs hr]

/-- `ZERO` wipes the unit, faulted or not (spec/44_system.md R212). -/
theorem exec_zero (s : State) : exec .zero s = .next s.wipe.retire := by
  rw [exec_eq]
  rcases runCommand_cases .zero s (effectOf .zero s) with ⟨-, h, -⟩ | ⟨-, h, -⟩ | ⟨-, -, k, h, -⟩ | ⟨-, -, t, h, e⟩
  · cases h
  · cases h
  · cases h
  · cases h; exact e

/-! ## Destinations -/

/-- The commands with a field destination `j` (spec/10_state.md R23). -/
theorem eq_of_destF {i : Instr} {j : RegIdx} (h : destF i = some j) :
    i = .fmake j ∨ (∃ a b, i = .fadd j a b) ∨ (∃ a b, i = .fsub j a b) ∨ (∃ a b, i = .fmul j a b) ∨ (∃ a b, i = .fdiv j a b) ∨
      (∃ a, i = .finv j a) ∨ (∃ a, i = .pgetx j a) ∨ ∃ a, i = .pgety j a := by
  cases i <;> cases h <;> simp

/-- The commands with a point destination `j` (spec/10_state.md R26). -/
theorem eq_of_destP {i : Instr} {j : RegIdx} (h : destP i = some j) :
    (∃ a b, i = .pmake j a b) ∨ i = .pinf j ∨ i = .pldg j ∨ (∃ a b, i = .padd j a b) ∨ ∃ a b, i = .smul j a b := by
  cases i <;> cases h <;> simp

/-- The commands that write `OUTBUF` (spec/10_state.md R29). -/
theorem eq_of_writesOut {i : Instr} (h : writesOut i = true) : (∃ j m, i = .pser j m) ∨ i = .hmac ∨ i = .pbkdf2 ∨ i = .mseed := by
  cases i <;> cases h <;> simp

end Sys2Proof.Machine
end

section
/-! SUPPORT. The invariant of the unit's state is kept by every named operation, hence by every command, every event and every step
(spec/10_state.md R22, R25, R30 to R32, R35; spec/60_exceptions.md R241, R242, R247). -/

namespace Sys2Proof.Machine

/-! ## The named operations -/

theorem State.Inv.regular {s : State} (h : s.Inv) : s.Regular := ⟨h.fields, h.points⟩

/-- At reset everything is Empty, zero and idle (spec/10_state.md R36). -/
theorem State.reset_inv : State.reset.Inv where
  fields i := by rw [State.readF_reset]; trivial
  points j := by rw [State.readP_reset]; trivial
  memWf := rfl
  noRecord _ := ⟨rfl, rfl⟩
  record := nofun
  pending := nofun
  outLen := by decide
  outPad _ _ _ := rfl
  workCleared := rfl

theorem State.afterReset_inv (s : State) : s.afterReset.Inv := { State.reset_inv with }

namespace State.Inv

variable {s : State} (h : s.Inv)
include h

/-- The events to come and the replies given are no part of the invariant. -/
theorem withWorld (es : List HostEvent) (rs : List (List Byte)) : State.Inv { s with inputs := es, replies := rs } := { h with }

theorem drop : s.drop.Inv := { h with pending := nofun }

theorem retire : s.retire.Inv := { h with pending := nofun, workCleared := rfl }

/-- Fault entry with a record that fits the word. -/
theorem raise {k : ErrKind} {w : Word} (hk : RecordFits w k.code) : (s.raise k w).Inv :=
  { h with
    noRecord := nofun
    record := fun _ => hk
    pending := nofun
    workCleared := rfl }

/-- The record goes, and with it what the invariant says of a faulted unit. -/
theorem clearRecord : s.clearRecord.Inv :=
  { h with
    noRecord := fun _ => ⟨rfl, rfl⟩
    record := nofun
    pending := nofun }

/-- `ZERO`'s wipe: reset's registers and buffers with the record kept (spec/44_system.md R212). -/
theorem wipe : s.wipe.Inv :=
  { State.reset_inv with
    noRecord := h.noRecord
    record := h.record
    pending := h.pending }

theorem writeF {j : RegIdx} {e : FieldElement} (hj : j.toNat < 8) (he : (FieldReg.full e).Canonical) : (s.writeF j e).Inv :=
  { h with
    fields := fun i => by
      rw [State.readF_writeF _ _ _ _ hj]
      split
      · exact he
      · exact h.fields i }

theorem writeP {j : RegIdx} {P : CurvePoint} (hj : j.toNat < 4) (hP : P.Canonical) : (s.writeP j P).Inv :=
  { h with
    points := fun i => by
      rw [State.readP_writeP _ _ _ _ hj]
      split
      · exact hP
      · exact h.points i }

/-- A result into `OUTBUF`: its length is one `OLEN` may have, and the bytes after it are `00` (spec/93_implementation_defined.md U6). -/
theorem writeOut {X : List Byte} (hX : X.length ∈ [33, 64, 65]) : (s.writeOut X).Inv := by
  have hlen : X.length = 33 ∨ X.length = 64 ∨ X.length = 65 := by simpa using hX
  have holen : (s.writeOut X).olen.toNat = X.length := by
    rw [State.writeOut_olen, BitVec.toNat_ofNat]
    omega
  exact
  { h with
    memWf := State.writeOut_wf h.memWf X (by omega)
    outLen := by rw [holen]; exact List.mem_cons_of_mem _ hX
    outPad := fun k hk hk' => by
      rw [State.writeOut_read (Memory.wf_sorted h.memWf) X (by omega) k hk', List.getD_eq_default]
      omega }

/-- A faulted unit takes no word but `CLRERR` and `ZERO` (spec/60_exceptions.md R247). -/
theorem issue (w : Word) : (s.issue w).Inv := by
  unfold State.issue
  split
  · exact h
  · rename_i hc
    refine { h with pending := fun he w' hw' => ?_ }
    cases hw'
    have he : s.err = true := he
    simpa [he] using hc

/-- A word of an input buffer written by the host: memory stays canonical, and `OUTBUF` is not reached. -/
theorem writeInput {off : Nat} {data : List Byte} (h₁ : Config.keybufBase ≤ off) (h₂ : off + data.length ≤ Config.outbufBase) :
    State.Inv { s with mem := Memory.writeBytes s.mem off data } :=
  { h with
    memWf := Memory.writeBytes_wf h.memWf data fun k hk => by
      unfold Memory.inBuffers
      rw [decide_eq_true_eq]
      omega
    outPad := fun k hk hk' => by
      rw [Memory.read_writeBytes (Memory.wf_sorted h.memWf), if_neg (by omega)]
      exact h.outPad k hk hk' }

/-- The rows the host may write are operand registers, of which the invariant says nothing, and the two input buffers. -/
theorem of_writeRow {r : MapRow} (hr : r ∈ registerMap) (hac : r.access = .rw) {off : Nat} {data : List Byte} (hl : data.length = 4) (ha : off % 4 = 0)
    (h₁ : r.base ≤ off) (h₂ : off < r.base + r.size) : (writeRow s r off data).Inv := by
  have hw := word_in_row hr ha h₂
  rcases rw_rows r hr hac with rfl | rfl | rfl | rfl | rfl | rfl
  · exact { h with }
  · exact { h with }
  · exact { h with }
  · exact { h with }
  all_goals
    simp only at h₁ hw
    exact h.writeInput (by simp only [Config.keybufBase]; omega) (by simp only [Config.outbufBase]; omega)

/-! ## Commands, events, steps -/

/-- A command that succeeds keeps the invariant: its one write is of a canonical value to one of its registers. -/
theorem of_effectOf_ok {i : Instr} {t : State} (hi : i.wf = true) (ht : effectOf i s = .ok t) : t.Inv := by
  rcases effectOf_ok ht with ⟨-, rfl⟩ | ⟨-, rfl⟩ | ⟨-, rfl⟩ | ⟨j, e, hd, rfl, hc⟩ | ⟨j, P, hd, rfl, hc⟩ | ⟨-, X, rfl, hX⟩
  · exact h.clearRecord
  · exact h.wipe
  · exact h
  · exact h.writeF (destF_lt hi hd) (hc h.regular)
  · exact h.writeP (destP_lt hi hd) (hc h.regular)
  · exact h.writeOut hX

/-- The record a command leaves fits its word, because the word of a well-formed command decodes to it. -/
theorem of_exec {i : Instr} {t : State} (hi : i.wf = true) (ht : exec i s = .next t) : t.Inv := by
  rcases exec_cases i s with ⟨-, -, he⟩ | ⟨-, hw, -⟩ | ⟨-, -, k, hk, he⟩ | ⟨-, -, u, hu, he⟩
  · rw [he] at ht; cases ht
    exact h.drop
  · rw [hi] at hw; cases hw
  · rw [he] at ht; cases ht
    refine h.raise ?_
    unfold RecordFits
    rw [decode_encode hi]
    exact ⟨k, hk, rfl⟩
  · rw [he] at ht; cases ht
    exact (h.of_effectOf_ok hi hu).retire

theorem of_illegalWord {w : Word} {e : Illegal} (hw : decode w = .error e) : (s.illegalWord w).Inv := by
  unfold State.illegalWord
  split
  · exact h.drop
  · refine h.raise ?_
    unfold RecordFits
    rw [hw]

theorem of_hostAction {a : HostAction} {t : State} (ht : hostAction a s = .next t) : t.Inv := by
  rcases hostAction_cases ht with ⟨bs, rfl⟩ | ⟨w, rfl⟩ | rfl | ⟨r, hr, hac, off, data, ha, h₁, h₂, hl, rfl⟩
  · exact h.withWorld _ _
  · exact h.issue w
  · exact s.afterReset_inv
  · exact h.of_writeRow hr hac hl ha h₁ h₂

theorem of_step {t : State} (ht : step s = .next t) : t.Inv := by
  rcases step_cases s with ⟨w, i, -, hd, hs⟩ | ⟨w, e, -, hd, hs⟩ | ⟨-, -, hs⟩ | ⟨e, rest, -, -, hs⟩ <;> rw [hs] at ht
  · exact h.of_exec (wf_of_decode hd) ht
  · cases ht
    exact h.of_illegalWord hd
  · cases ht
    exact h
  · exact (h.withWorld rest s.replies).of_hostAction ht

end State.Inv

end Sys2Proof.Machine

namespace Sys2Proof.Proofs

/-- Settles O7: a step is a command's execution, an illegal word, an event or nothing, and each keeps the invariant. -/
theorem everyStepKeepsTheInvariant : Obligations.EveryStepKeepsTheInvariant :=
  fun _ _ h ht => h.of_step ht

/-- Settles O6: everything is Empty, zero and idle at reset. -/
theorem resetStateMeetsTheInvariant : Obligations.ResetStateMeetsTheInvariant := Machine.State.reset_inv

end Sys2Proof.Proofs
end

section
/-! SUPPORT. The status word, the reset event, the write to `CMD`, and the completion of a placed word. -/

namespace Sys2Proof.Machine

/-- Each bit of `STATUS` (spec/10_state.md R31): `BUSY`, `ERR`, two zeros, the four bits of `ECODE`, then zeros. -/
theorem State.statusWord_getLsbD (s : State) (k : Nat) : s.statusWord.getLsbD k =
    if k = 0 then s.busy else if k = 1 then s.err else if 4 ≤ k ∧ k < 8 then s.ecode.getLsbD (k - 4) else false := by
  unfold State.statusWord
  rcases k with _ | _ | _ | _ | k
  · simp only [BitVec.getLsbD_append]; simp
  · simp only [BitVec.getLsbD_append]; simp
  · simp only [BitVec.getLsbD_append]; simp
  · simp only [BitVec.getLsbD_append]; simp
  · simp only [BitVec.getLsbD_append]
    by_cases hk : k < 4
    · simp [hk, show k + 1 + 1 + 1 + 1 < 8 by omega]
    · simp [hk, show ¬ k + 1 + 1 + 1 + 1 < 8 by omega]

/-- The reset event takes effect at an idle unit, and early also at a busy one (spec/70_reset_and_hazards.md R280, R281). -/
theorem step_reset {s : State} {b : Bool} {rest : List HostEvent} (hi : s.inputs = ⟨.reset, b⟩ :: rest) (hb : s.pend = none ∨ b = true) :
    step s = .next (({ s with inputs := rest } : State).afterReset) := by
  rcases Option.eq_none_or_eq_some s.pend with hp | ⟨w, hp⟩
  · rw [step_idle hp hi, hostAction_reset]
  · have hb : b = true := hb.resolve_left (by simp [hp])
    rw [step_early hp hi hb (.inr rfl), hostAction_reset]

/-- `STATUS` reads 0 at reset. -/
theorem State.reset_statusWord : State.reset.statusWord = 0 := by decide

/-- A word issued to a unit that takes it is pending. -/
theorem State.issue_accepted {s : State} {w : Word} (h : s.err = false ∨ acceptedWhileFaulted w = true) : s.issue w = { s with pend := some w } := by
  unfold State.issue
  rw [if_neg]
  rcases h with h | h <;> simp [h]

/-- A faulted unit drops any other word: nothing happens at all (spec/60_exceptions.md R247). -/
theorem State.issue_dropped {s : State} {w : Word} (h : s.err = true) (hw : ¬ acceptedWhileFaulted w = true) : s.issue w = s := by
  unfold State.issue
  rw [if_pos]
  simp [h, hw]

/-- After a deferral no event gets in before the completion. -/
theorem head_deferFirst {es : List HostEvent} {e : HostEvent} (h : (deferFirst es).head? = some e) : e.early = false := by
  cases es with
  | nil => cases h
  | cons e' es => cases h; rfl

end Sys2Proof.Machine

namespace Sys2Proof.Proofs

open Sys2Proof.Machine Sys2Proof.Claims

/-- Settles O5: the step is the reset event's, at an idle unit or early at a busy one. -/
theorem resetPutsEverythingAtItsResetValue : Obligations.ResetPutsEverythingAtItsResetValue := by
  intro s b rest hi hb
  exact ⟨_, step_reset hi hb, State.readF_afterReset _, State.readP_afterReset _, rfl, rfl, Memory.read_nil,
    rfl, rfl, rfl, State.reset_statusWord, rfl, rfl, rfl, rfl, rfl⟩

/-- Settles O14: the step issues the word, which a faulted unit takes only if it decodes to `CLRERR` or `ZERO`. -/
theorem cmdWriteMakesTheWordPending : Obligations.CmdWriteMakesTheWordPending := by
  intro s w b rest hp hi
  rw [step_cmd hp hi, ← acceptedWhileFaulted_iff]
  refine ⟨fun h => ?_, fun he hc hz => ?_⟩
  · exact congrArg _ (State.issue_accepted (s := { s with inputs := rest }) h)
  · have hw : ¬ acceptedWhileFaulted w = true := by simp [acceptedWhileFaulted_iff, hc, hz]
    exact congrArg _ (State.issue_dropped (s := { s with inputs := rest }) he hw)

/-- Settles O8: the word is the concatenation of its fields, so each range of bits is one of them. -/
theorem statusWordLayout : Obligations.StatusWordLayout := by
  intro s
  refine ⟨s.statusWord_getLsbD 0, s.statusWord_getLsbD 1, ?_, ?_, ?_⟩
  all_goals
    apply BitVec.eq_of_getLsbD_eq
    intro k hk
    rw [BitVec.getLsbD_extractLsb', s.statusWord_getLsbD]
  · rw [if_neg (by omega), if_neg (by omega), if_pos (by omega), Nat.add_sub_cancel_left]
    simp [hk]
  · rw [if_neg (by omega), if_neg (by omega), if_neg (by omega)]
    simp
  · rw [if_neg (by omega), if_neg (by omega), if_neg (by omega)]
    simp

/-- Settles O18: with nothing getting in the step completes the pending word, and the completion of a word that decodes is the command's execution. -/
theorem stepRunsTheDecodedCommand : Obligations.StepRunsTheDecodedCommand := by
  refine ⟨fun s w i hp hd hn => ?_, fun s w i hd => ?_⟩
  · rw [step_pending hp hn, completePending_ok hd]
  · have hn : NothingGetsIn (s.withFetchWord 32 w).inputs := fun e he h => by
      rw [head_deferFirst he] at h
      exact Bool.false_ne_true h.1
    rw [step_pending rfl hn, completePending_ok (decode_of_decodeTableWord hd)]

end Sys2Proof.Proofs
end

section
/-! SUPPORT. Which commands write what: the settled statements about every command, from `exec_writes`, and the hash commands from the bytes they read. -/

namespace Sys2Proof.Machine

/-- Memories that agree on a range give the same bytes there. -/
theorem Memory.readBytes_congr {m m' : Memory} {x n : Nat} (h : ∀ k < n, Memory.read m' (x + k) = Memory.read m (x + k)) :
    Memory.readBytes m' x n = Memory.readBytes m x n :=
  List.map_congr_left fun k hk => h k (List.mem_range.mp hk)

/-- The three hash commands are `hashEffect` of a digest of 64 bytes (spec/43_hmac_pbkdf2.md R193). -/
theorem effectOf_hash {i : Instr} (hi : i ∈ [Instr.hmac, .pbkdf2, .mseed]) :
    i.wf = true ∧ ∃ digest : List Byte → List Byte → List Byte, (∀ K M, (digest K M).length = 64) ∧ ∀ s, effectOf i s = hashEffect digest s := by
  simp only [List.mem_cons, List.not_mem_nil, or_false] at hi
  rcases hi with rfl | rfl | rfl
  · exact ⟨rfl, hmac512, hmac512_length, fun _ => rfl⟩
  · exact ⟨rfl, pbkdf2_512, pbkdf2_512_length, fun _ => rfl⟩
  · exact ⟨rfl, mnemonicSeed, mnemonicSeed_length, fun _ => rfl⟩

/-- The buffer operands depend on the two lengths and the bytes below them only (spec/10_state.md R29). -/
theorem State.srcBuffers_congr {s s' : State} (hk : s'.klen = s.klen) (hm : s'.mlen = s.mlen)
    (hK : ∀ k < s.klen.toNat, Memory.read s'.mem (Config.keybufBase + k) = Memory.read s.mem (Config.keybufBase + k))
    (hM : ∀ k < s.mlen.toNat, Memory.read s'.mem (Config.msgbufBase + k) = Memory.read s.mem (Config.msgbufBase + k)) :
    s'.srcBuffers = s.srcBuffers := by
  unfold State.srcBuffers
  rw [hk, hm, Memory.readBytes_congr hK, Memory.readBytes_congr hM]

/-- What a hash command does, by its buffer operands: it raises `BufferLength`, or writes a digest of them. -/
theorem exec_hash {i : Instr} (hi : i ∈ [Instr.hmac, .pbkdf2, .mseed]) : ∃ digest : List Byte → List Byte → List Byte,
    (∀ K M, (digest K M).length = 64) ∧ ∀ s : State, s.err = false → exec i s = match s.srcBuffers with
      | .error k => .next (s.raise k (encode i))
      | .ok (K, M) => .next (s.writeOut (digest K M)).retire := by
  obtain ⟨hw, digest, hlen, heff⟩ := effectOf_hash hi
  refine ⟨digest, hlen, fun s hs => ?_⟩
  rw [exec_eq, heff, runCommand_unfaulted hs hw]
  unfold hashEffect
  cases s.srcBuffers <;> rfl

end Sys2Proof.Machine

namespace Sys2Proof.Proofs

open Sys2Proof.Machine

/-- Settles O23: of the two commands that run while the unit is faulted, `ZERO` keeps the record. -/
theorem onlyClrerrLeavesTheFaultedState : Obligations.OnlyClrerrLeavesTheFaultedState := by
  intro i s t hs ht hc
  by_cases hz : i = .zero
  · rw [hz, exec_zero] at ht
    cases ht
    exact ⟨hs, rfl, rfl⟩
  · rw [exec_faulted hs hc hz] at ht
    cases ht
    exact ⟨hs, rfl, rfl⟩

/-- Settles O24: besides `ZERO`, a command writes one register or `OUTBUF`. -/
theorem noCommandButZeroWritesTheHostsOperands : Obligations.NoCommandButZeroWritesTheHostsOperands := by
  intro i s t hw ht hz
  rcases exec_writes ht with ⟨-, -, ha, hm, hk, hl, hmem, -⟩ | ⟨rfl, -⟩ | ⟨-, j, e, -, rfl⟩ | ⟨-, j, P, -, rfl⟩ | ⟨-, X, rfl, hX⟩
  · exact ⟨ha, hm, hk, hl, fun _ _ => by rw [hmem]⟩
  · exact absurd rfl hz
  · exact ⟨rfl, rfl, rfl, rfl, fun _ _ => rfl⟩
  · exact ⟨rfl, rfl, rfl, rfl, fun _ _ => rfl⟩
  · have hlen : X.length ≤ 68 := by
      simp only [List.mem_cons, List.not_mem_nil, or_false] at hX
      omega
    exact ⟨rfl, rfl, rfl, rfl, State.writeOut_frame (Memory.wf_sorted hw) X hlen⟩

/-- Settles O25: of all writes only `ZERO`'s and that of a field destination reach a field register. -/
theorem writersOfFieldRegisters : Obligations.WritersOfFieldRegisters := by
  intro i s t j _ ht hne
  rcases exec_writes ht with ⟨hf, -⟩ | ⟨rfl, rfl⟩ | ⟨hi, d, e, hd, rfl⟩ | ⟨-, d, P, -, rfl⟩ | ⟨-, X, rfl, -⟩
  · exact absurd (State.readF_congr hf j) hne
  · exact .inl ⟨rfl, State.readF_wipe s j⟩
  · rw [State.readF_retire, State.readF_writeF _ _ _ _ (destF_lt hi hd)] at hne ⊢
    split at hne
    · subst j
      exact .inr ⟨⟨e, if_pos rfl⟩, eq_of_destF hd⟩
    · exact absurd rfl hne
  · exact absurd rfl hne
  · exact absurd rfl hne

/-- Settles O26: of all writes only `ZERO`'s and that of a point destination reach a point register. -/
theorem writersOfPointRegisters : Obligations.WritersOfPointRegisters := by
  intro i s t j _ ht hne
  rcases exec_writes ht with ⟨-, hp, -⟩ | ⟨rfl, rfl⟩ | ⟨-, d, e, -, rfl⟩ | ⟨hi, d, P, hd, rfl⟩ | ⟨-, X, rfl, -⟩
  · exact absurd (State.readP_congr hp j) hne
  · exact .inl ⟨rfl, State.readP_wipe s j⟩
  · exact absurd rfl hne
  · rw [State.readP_retire, State.readP_writeP _ _ _ _ (destP_lt hi hd)] at hne ⊢
    split at hne
    · subst j
      exact .inr ⟨⟨P, if_pos rfl⟩, eq_of_destP hd⟩
    · exact absurd rfl hne
  · exact absurd rfl hne

/-- Settles O27: a write of one register leaves memory and `OLEN` alone. -/
theorem writersOfTheOutputBuffer : Obligations.WritersOfTheOutputBuffer := by
  intro i s t ht hne
  rcases exec_writes ht with ⟨-, -, -, -, -, -, hm, ho⟩ | ⟨hz, -⟩ | ⟨-, j, e, -, rfl⟩ | ⟨-, j, P, -, rfl⟩ | ⟨hw, -⟩
  · exact absurd hne (by simp [hm, ho])
  · exact .inl hz
  · exact absurd hne (by simp)
  · exact absurd hne (by simp)
  · exact .inr (eq_of_writesOut hw)

/-- Settles O60: both states give the command the same buffer operands, so both raise `BufferLength` or both write the same digest. -/
theorem hashCommandsDependOnlyOnTheMeaningfulBytes : Obligations.HashCommandsDependOnlyOnTheMeaningfulBytes := by
  intro i s s' t t' hi hs hs' hw hw' hk hm hK hM ht ht'
  obtain ⟨digest, hlen, hexec⟩ := exec_hash hi
  rw [hexec s hs] at ht
  rw [hexec s' hs', State.srcBuffers_congr hk hm hK hM] at ht'
  cases hB : s.srcBuffers with
  | error k =>
    rw [hB] at ht ht'
    cases ht
    cases ht'
    exact ⟨rfl, fun _ => rfl, nofun⟩
  | ok KM =>
    rw [hB] at ht ht'
    cases ht
    cases ht'
    have hX : (digest KM.1 KM.2).length ≤ 68 := by rw [hlen]; decide
    refine ⟨hs.trans hs'.symm, fun h => absurd (hs.symm.trans h) Bool.false_ne_true, fun _ => ⟨rfl, fun k hk => ?_⟩⟩
    exact (State.writeOut_read (Memory.wf_sorted hw) _ hX k hk).trans (State.writeOut_read (Memory.wf_sorted hw') _ hX k hk).symm

end Sys2Proof.Proofs
end

section
/-! SUPPORT. A 256-bit value written to `OPA` word by word (spec/20_memory.md R52, R53, R55): each write adds four bytes of the value to those already in place. -/

namespace Sys2Proof

/-- A write of the next `m` bytes of `X` onto bytes that agree with `X` before them. -/
theorem overwrite_take_add {X Y : List Byte} {k m : Nat} (hY : Y.take k = X.take k) (hk : k + m ≤ X.length) :
    (overwrite Y k ((X.drop k).take m)).take (k + m) = X.take (k + m) := by
  have hl : (X.take k ++ (X.drop k).take m).length = k + m := by
    simp only [List.length_append, List.length_take, List.length_drop]
    omega
  unfold overwrite
  rw [hY, List.take_left' hl, List.take_add]

/-- A 256-bit value is determined by its 32 bytes. -/
theorem eq_of_be_eq {a b : U256} (h : be a.toNat 32 = be b.toNat 32) : a = b := by
  have h' := congrArg int h
  rw [int_be, int_be] at h'
  exact BitVec.eq_of_toNat_eq (by simpa [Nat.mod_eq_of_lt, a.isLt, b.isLt] using h')

end Sys2Proof

namespace Sys2Proof.Machine

/-- Word `t` of a sequence that has all its bytes needs no padding. -/
theorem wordOf_eq {X : List Byte} {t : Nat} (h : 4 * t + 4 ≤ X.length) : wordOf X t = (X.drop (4 * t)).take 4 := by
  have hl : ((X.drop (4 * t)).take 4).length = 4 := by
    simp only [List.length_take, List.length_drop]
    omega
  unfold wordOf
  rw [hl]
  exact List.append_nil _

/-- Writing word `k` of `v` to an `OPA` that holds the words of `v` before it. -/
theorem step_write_opa {s : State} {v : U256} {k : Nat} {rest : List HostEvent} (hk : k < 8) (hp : s.pend = none)
    (hi : s.inputs = held (.write (0x0040 + 4 * k) (wordOf (be v.toNat 32) k)) :: rest)
    (ho : (be s.opa.toNat 32).take (4 * k) = (be v.toNat 32).take (4 * k)) :
    ∃ w : U256, step s = .next { s with opa := w, inputs := rest } ∧
      (be w.toNat 32).take (4 * (k + 1)) = (be v.toNat 32).take (4 * (k + 1)) := by
  have hb : 4 * k + 4 ≤ (be v.toNat 32).length := by rw [be_length]; omega
  have hl : (wordOf (be v.toNat 32) k).length = 4 := by
    rw [wordOf_eq hb, List.length_take, List.length_drop]
    omega
  refine ⟨BitVec.ofNat 256 (patchInt s.opa.toNat 32 (4 * k) (wordOf (be v.toNat 32) k)), ?_, ?_⟩
  · have hrow : (⟨0x0040, 32, .rw, .opa⟩ : MapRow) ∈ registerMap := mem_of_controlRows (by decide)
    have hsub : 0x0040 + 4 * k - 0x0040 = 4 * k := Nat.add_sub_cancel_left _ _
    rw [step_idle hp hi]
    refine (hostWrite_row hrow hl (by omega) (by simp only; omega) (by simp only; omega) rfl).trans ?_
    simp only [writeRow, hsub]
  · rw [be_patched 256 _ 32 _ _ (by norm_num) (by omega), wordOf_eq hb]
    exact overwrite_take_add ho hb

/-- The words of `v` from word `k` on, written to an `OPA` that holds the words before. -/
theorem run_write_opa (v : U256) (n : Nat) : ∀ (k : Nat) (s : State), k + n = 8 → s.pend = none →
    s.inputs = (List.range' k n).map (fun t => held (.write (0x0040 + 4 * t) (wordOf (be v.toNat 32) t))) →
    (be s.opa.toNat 32).take (4 * k) = (be v.toNat 32).take (4 * k) → core.run n s = .next { s with opa := v, inputs := [] } := by
  induction n with
  | zero =>
    intro k s hk _ hi ho
    have hopa : s.opa = v := eq_of_be_eq (by simpa [show k = 8 by omega, List.take_of_length_le] using ho)
    subst hopa
    have hi : s.inputs = [] := hi
    rw [← hi]
    rfl
  | succ n ih =>
    intro k s hk hp hi ho
    rw [List.range'_succ, List.map_cons] at hi
    obtain ⟨w, hs, hw⟩ := step_write_opa (by omega) hp hi ho
    rw [run_succ_next hs]
    exact ih (k + 1) _ (by omega) hp rfl hw

end Sys2Proof.Machine

namespace Sys2Proof.Proofs

open Sys2Proof.Machine

/-- Settles O12: by induction on the writes still to come, beginning with none of the value's bytes in place. -/
theorem writingOpaWordByWord : Obligations.WritingOpaWordByWord := by
  intro s v hp hi
  refine run_write_opa v 8 0 s rfl hp ?_ (by simp)
  rw [hi, wrWide, wrBytes, be_length, List.range_eq_range']

end Sys2Proof.Proofs
end

section
/-! SUPPORT. The unit while it is busy (spec/20_memory.md R58, R59; spec/70_reset_and_hazards.md R281): the reads of `STATUS` that get in, the completion of the
pending word, and a run that ends in one. -/

namespace Sys2Proof.Machine

open Sys2Proof.Claims

/-- A run's last step, the run before it having gone on. -/
theorem run_succ_last {k : Nat} {s t : State} (h : core.run k s = .next t) : core.run (k + 1) s = step t := by
  induction k generalizing s with
  | zero =>
    cases h
    exact run_one _
  | succ k ih =>
    rw [run_succ] at h ⊢
    cases hs : step s with
    | next u =>
      rw [hs] at h
      exact ih h
    | fault r => rw [hs] at h; cases h
    | refused r => rw [hs] at h; cases h

/-- The word of `STATUS` as a number, while a command is pending (spec/10_state.md R31). -/
theorem State.statusWord_toNat_pending {s : State} {w : Word} (hp : s.pend = some w) :
    s.statusWord.toNat = 1 + 2 * s.err.toNat + 16 * s.ecode.toNat := by
  have layout : ∀ (e : Bool) (c : BitVec 4),
      (0#24 ++ c ++ 0#2 ++ BitVec.ofBool e ++ BitVec.ofBool true).toNat = 1 + 2 * e.toNat + 16 * c.toNat := by decide
  have hb : s.busy = true := by simp [State.busy, hp]
  rw [State.statusWord, hb]
  exact layout s.err s.ecode

/-- A host read of `STATUS` answers its word. -/
theorem hostRead_status (s : State) : hostRead s 0x0004 4 = .next (s.reply (be s.statusWord.toNat 4)) := by
  rw [hostRead_row (r := ⟨0x0004, 4, .ro, .status⟩) (mem_of_controlRows (by decide)) rfl le_rfl (by decide) nofun]
  simp [readRow, regionBytes, List.take_of_length_le]

/-- A read of `STATUS` that gets in is answered with `BUSY = 1`, and nothing else happens. -/
theorem step_statusRead {s : State} {w : Word} {rest : List HostEvent} (hp : s.pend = some w) (hi : s.inputs = ⟨.read 0x0004 4, true⟩ :: rest) :
    step s = .next { s with inputs := rest, replies := busyStatus s :: s.replies } := by
  have hb : be s.statusWord.toNat 4 = busyStatus s := by rw [State.statusWord_toNat_pending hp, busyStatus]
  rw [step_early hp hi rfl (.inl rfl), hostAction_read, hostRead_status, ← hb]
  rfl

/-- With nothing getting in, the step completes the pending word. -/
theorem completes_of_nothingGetsIn {s : State} {w : Word} (hp : s.pend = some w) (hn : NothingGetsIn s.inputs) : Completes w s := by
  rw [Completes, step_pending hp hn]
  refine ⟨fun i hd => completePending_ok hd s, fun e hd => ?_⟩
  rw [completePending_error hd]
  rfl

/-- What comes next at a busy unit: nothing that gets in, a read of `STATUS`, or a reset. -/
theorem nothingGetsIn_or_early (es : List HostEvent) :
    NothingGetsIn es ∨ ∃ rest, es = ⟨.read 0x0004 4, true⟩ :: rest ∨ es = ⟨.reset, true⟩ :: rest := by
  cases es with
  | nil => exact .inl nofun
  | cons e rest =>
    by_cases he : e.early = true ∧ (e.act = .read 0x0004 4 ∨ e.act = .reset)
    · obtain ⟨act, early⟩ := e
      obtain ⟨rfl, rfl | rfl⟩ := he
      · exact .inr ⟨rest, .inl rfl⟩
      · exact .inr ⟨rest, .inr rfl⟩
    · refine .inl fun e' h => ?_
      cases h
      exact he

/-- One read more: `k` reads after the first are `k + 1` reads. -/
theorem afterStatusReads_succ {s : State} {e : HostEvent} {rest : List HostEvent} (hi : s.inputs = e :: rest) (k : Nat) :
    afterStatusReads { s with inputs := rest, replies := busyStatus s :: s.replies } k = afterStatusReads s (k + 1) := by
  have hr : List.replicate k (busyStatus s) ++ busyStatus s :: s.replies = List.replicate (k + 1) (busyStatus s) ++ s.replies := by
    rw [List.replicate_succ', List.append_assoc, List.singleton_append]
  unfold afterStatusReads
  rw [hi, List.drop_succ_cons, ← hr]
  rfl

/-- The reads of `STATUS` at the head of the schedule get in one after the other, until nothing gets in or a reset does. -/
theorem run_statusReads {w : Word} : ∀ (es : List HostEvent) (s : State), s.pend = some w → s.inputs = es →
    ∃ k ≤ es.length, core.run k s = .next (afterStatusReads s k) ∧ (NothingGetsIn (es.drop k) ∨ ∃ rest, es.drop k = ⟨.reset, true⟩ :: rest) := by
  intro es
  induction es with
  | nil => exact fun s _ hi => ⟨0, le_rfl, congrArg _ (by simp [afterStatusReads]), .inl nofun⟩
  | cons e es ih =>
    intro s hp hi
    rcases nothingGetsIn_or_early (e :: es) with hn | ⟨rest, hr | hr⟩
    · exact ⟨0, Nat.zero_le _, rfl, .inl hn⟩
    · cases hr
      obtain ⟨k, hk, hrun, hend⟩ := ih { s with inputs := es, replies := busyStatus s :: s.replies } hp rfl
      refine ⟨k + 1, Nat.succ_le_succ hk, ?_, hend⟩
      rw [run_succ_next (step_statusRead hp hi), hrun, afterStatusReads_succ hi]
    · exact ⟨0, Nat.zero_le _, rfl, .inr ⟨rest, hr⟩⟩

/-- A word issued to a unit that takes it is completed as one execution of the command it decodes to, which does not look at `PEND`. -/
theorem step_issue {s : State} {w : Word} {i : Instr} (hw : decode w = .ok i) (he : s.err = false ∨ i = .clrerr ∨ i = .zero)
    (hn : NothingGetsIn s.inputs) : step (s.issue w) = exec i s := by
  have hacc : s.err = false ∨ acceptedWhileFaulted w = true :=
    he.imp_right fun h => by rw [acceptedWhileFaulted_iff, hw]; simpa using h
  rw [State.issue_accepted hacc, step_pending (s := { s with pend := some w }) rfl hn, completePending_ok hw, exec_pend]

end Sys2Proof.Machine

namespace Sys2Proof.Proofs

open Sys2Proof.Machine Sys2Proof.Claims

/-- Settles O15: an event that does not get in leaves the step to the completion; a read of `STATUS` that does is answered from the busy unit. -/
theorem accessesAreHeldWhileBusy : Obligations.AccessesAreHeldWhileBusy := by
  intro s w e rest hp hi
  refine ⟨fun he => ?_, fun hearly hact => ?_⟩
  · have hn : NothingGetsIn s.inputs := by
      rw [hi]
      intro e' h
      cases h
      exact he
    rw [step_pending hp hn]
    exact ⟨completes_of_nothingGetsIn hp hn, completePending_next w s⟩
  · obtain ⟨act, early⟩ := e
    cases hearly
    cases hact
    exact step_statusRead hp hi

/-- Settles O16: after the reads of `STATUS` that get in, the step completes the pending word, or it is the reset's. -/
theorem pendingCommandIsEventuallyCompleted : Obligations.PendingCommandIsEventuallyCompleted := by
  intro s w hp
  obtain ⟨k, hk, hrun, hend⟩ := run_statusReads s.inputs s hp rfl
  have hp' : (afterStatusReads s k).pend = some w := hp
  rcases hend with hn | ⟨rest, hr⟩
  · obtain ⟨t, ht, htp, -⟩ := completePending_next w (afterStatusReads s k)
    have hs : step (afterStatusReads s k) = .next t := (step_pending hp' hn).trans ht
    exact ⟨k, hk, t, hrun, hs, (run_succ_last hrun).trans hs, htp, .inl (completes_of_nothingGetsIn hp' hn)⟩
  · have hs := step_reset (s := afterStatusReads s k) hr (.inr rfl)
    exact ⟨k, hk, _, hrun, hs, (run_succ_last hrun).trans hs, rfl, .inr ⟨rest, hr, rfl⟩⟩

/-- Settles O17: the write makes the word pending, and the completion decodes it back to the command. -/
theorem cmdWriteThenCompletionIsOneCommand : Obligations.CmdWriteThenCompletionIsOneCommand := by
  intro s i b rest hwf hp he hi hn
  rw [run_succ_next (step_cmd hp hi)]
  exact (run_one _).trans (step_issue (s := { s with inputs := rest }) (decode_encode hwf) he hn)

end Sys2Proof.Proofs
end

section
/-! SUPPORT. The words of the register map (spec/20_memory.md R51 to R56): which of them are storage, read-only or no location at all, and what a readable
one shows. -/

namespace Sys2Proof.Machine

open Sys2Proof.Claims

/-! ## Words of a row -/

/-- The offset `off` is a word of row `r`. -/
def MapRow.HasWord (r : MapRow) (off : Nat) : Prop := off % 4 = 0 ∧ r.base ≤ off ∧ off < r.base + r.size

/-- The four bytes `bs` are those of the word at `off` of row `r`. -/
def RowShows (s : State) (r : MapRow) (off : Nat) (bs : List Byte) : Prop := r.HasWord off ∧ bs = readRow s r off

/-- What a row of `n` words shows, word by word. -/
theorem rowShows_iff {s : State} {r : MapRow} {n : Nat} (hr : r ∈ registerMap) (hs : r.size = 4 * n) (off : Nat) (bs : List Byte) :
    RowShows s r off bs ↔ ∃ t < n, off = r.base + 4 * t ∧ bs = ((regionBytes s r.region).drop (4 * t)).take 4 := by
  have hb := (row_words r hr).1
  have hword : ∀ t, readRow s r (r.base + 4 * t) = ((regionBytes s r.region).drop (4 * t)).take 4 := fun t => by
    rw [readRow, Nat.add_sub_cancel_left]
  constructor
  · rintro ⟨⟨ha, h₁, h₂⟩, hbs⟩
    obtain ⟨t, rfl⟩ : ∃ t, off = r.base + 4 * t := ⟨(off - r.base) / 4, by omega⟩
    exact ⟨t, by omega, rfl, hbs.trans (hword t)⟩
  · rintro ⟨t, ht, rfl, hbs⟩
    exact ⟨⟨by omega, by omega, by omega⟩, hbs.trans (hword t).symm⟩

/-- A row of one word shows its region. -/
theorem rowShows_register {s : State} {r : MapRow} (hr : r ∈ registerMap) (hs : r.size = 4) (hc : r.region ≠ .cmd) (off : Nat) (bs : List Byte) :
    RowShows s r off bs ↔ off = r.base ∧ bs = regionBytes s r.region := by
  have hl := (regionBytes_length s r hr hc).trans hs
  rw [rowShows_iff (n := 1) hr hs]
  simp [List.take_of_length_le hl.le]

/-- A row of `n` words of a buffer shows the bytes of memory at its offsets. -/
theorem rowShows_buffer {s : State} {r : MapRow} {n : Nat} (hr : r ∈ registerMap) (hs : r.size = 4 * n)
    (hreg : regionBytes s r.region = Memory.readBytes s.mem r.base r.size) (off : Nat) (bs : List Byte) :
    RowShows s r off bs ↔ ∃ t < n, off = r.base + 4 * t ∧ bs = (List.range 4).map fun k => Memory.read s.mem (off + k) := by
  rw [rowShows_iff hr hs, hreg]
  refine exists_congr fun t => and_congr_right fun ht => and_congr_right fun ho => ?_
  rw [word_of_readBytes _ _ _ _ (by omega), ho]

/-! ## Rows of the map -/

/-- The four parts of the map (spec/20_memory.md R51). -/
theorem exists_mem_registerMap (Q : MapRow → Prop) : (∃ r ∈ registerMap, Q r) ↔
    (∃ r ∈ controlRows, Q r) ∨ (∃ i : RegIdx, i.toNat < 8 ∧ ∃ r ∈ fieldWindow i, Q r) ∨
    (∃ j : RegIdx, j.toNat < 4 ∧ ∃ r ∈ pointWindow j, Q r) ∨ ∃ r ∈ bufferRows, Q r := by
  have hf : ∀ i : RegIdx, i ∈ ([0, 1, 2, 3, 4, 5, 6, 7] : List RegIdx) ↔ i.toNat < 8 := by decide
  have hp : ∀ j : RegIdx, j ∈ ([0, 1, 2, 3] : List RegIdx) ↔ j.toNat < 4 := by decide
  have window : ∀ (is : List RegIdx) (rows : RegIdx → List MapRow), (∃ r ∈ is.flatMap rows, Q r) ↔ ∃ i ∈ is, ∃ r ∈ rows i, Q r := by
    intro is rows
    simp only [List.mem_flatMap]
    constructor
    · rintro ⟨r, ⟨i, hi, hr⟩, hQ⟩
      exact ⟨i, hi, r, hr, hQ⟩
    · rintro ⟨i, hi, r, hr, hQ⟩
      exact ⟨r, ⟨i, hi, hr⟩, hQ⟩
  simp only [registerMap, List.mem_append, or_and_right, exists_or, window, hf, hp, or_assoc]

/-- The rows the host may read, location by location (spec/20_memory.md R51). -/
theorem exists_readable_row (Q : MapRow → Prop) : (∃ r ∈ registerMap, r.access ≠ .wo ∧ Q r) ↔
    Q ⟨0x0004, 4, .ro, .status⟩ ∨ Q ⟨0x0008, 4, .ro, .ecmd⟩ ∨ Q ⟨0x0010, 4, .rw, .klen⟩ ∨ Q ⟨0x0014, 4, .rw, .mlen⟩ ∨ Q ⟨0x0018, 4, .ro, .olen⟩ ∨
    Q ⟨0x0040, 32, .rw, .opa⟩ ∨ Q ⟨0x0060, 32, .rw, .opm⟩ ∨
    (∃ i : RegIdx, i.toNat < 8 ∧ Q ⟨0x0400 + 0x80 * i.toNat, 32, .ro, .fieldVal i⟩) ∨
    (∃ i : RegIdx, i.toNat < 8 ∧ Q ⟨0x0420 + 0x80 * i.toNat, 32, .ro, .fieldMod i⟩) ∨
    (∃ i : RegIdx, i.toNat < 8 ∧ Q ⟨0x0440 + 0x80 * i.toNat, 4, .ro, .fieldFull i⟩) ∨
    (∃ j : RegIdx, j.toNat < 4 ∧ Q ⟨0x0800 + 0x80 * j.toNat, 32, .ro, .pointX j⟩) ∨
    (∃ j : RegIdx, j.toNat < 4 ∧ Q ⟨0x0820 + 0x80 * j.toNat, 32, .ro, .pointY j⟩) ∨
    (∃ j : RegIdx, j.toNat < 4 ∧ Q ⟨0x0840 + 0x80 * j.toNat, 4, .ro, .pointTag j⟩) ∨
    Q ⟨0x1000, 256, .rw, .keybuf⟩ ∨ Q ⟨0x1100, 256, .rw, .msgbuf⟩ ∨ Q ⟨0x1200, 68, .ro, .outbuf⟩ := by
  rw [exists_mem_registerMap]
  simp [controlRows, fieldWindow, pointWindow, bufferRows, and_or_left, exists_or, or_assoc, Config.keybufBase, Config.keybufBytes, Config.msgbufBase,
    Config.msgbufBytes, Config.outbufBase, Config.outbufBytes]

/-- The words a read shows are the words of the readable rows (spec/20_memory.md R51 to R53). -/
theorem shows_iff (s : State) (off : Nat) (bs : List Byte) : Shows s off bs ↔ ∃ r ∈ registerMap, r.access ≠ .wo ∧ RowShows s r off bs := by
  rw [exists_readable_row]
  simp only [Shows, ← FieldReg.fullBit_eq, ← PointReg.tag_eq]
  refine Iff.symm <| or_congr ?status <| or_congr ?ecmd <| or_congr ?klen <| or_congr ?mlen <| or_congr ?olen <| or_congr ?opa <| or_congr ?opm <|
    or_congr (exists_congr fun i => and_congr_right fun hi => ?fieldVal) <| or_congr (exists_congr fun i => and_congr_right fun hi => ?fieldMod) <|
    or_congr (exists_congr fun i => and_congr_right fun hi => ?fieldFull) <| or_congr (exists_congr fun j => and_congr_right fun hj => ?pointX) <|
    or_congr (exists_congr fun j => and_congr_right fun hj => ?pointY) <| or_congr (exists_congr fun j => and_congr_right fun hj => ?pointTag) <|
    or_congr ?keybuf <| or_congr ?msgbuf ?outbuf
  case status | ecmd | klen | mlen | olen => exact rowShows_register (mem_of_controlRows (by decide)) rfl (by nofun) off bs
  case opa | opm => exact rowShows_iff (mem_of_controlRows (by decide)) rfl off bs
  case fieldVal | fieldMod =>
    refine rowShows_iff (mem_of_fieldWindow hi ?_) rfl off bs
    simp [fieldWindow]
  case fieldFull =>
    refine rowShows_register (mem_of_fieldWindow hi ?_) rfl (by nofun) off bs
    simp [fieldWindow]
  case pointX | pointY =>
    refine rowShows_iff (mem_of_pointWindow hj ?_) rfl off bs
    simp [pointWindow]
  case pointTag =>
    refine rowShows_register (mem_of_pointWindow hj ?_) rfl (by nofun) off bs
    simp [pointWindow]
  case keybuf | msgbuf | outbuf => exact rowShows_buffer (mem_of_bufferRows (by decide)) rfl rfl off bs

/-! ## Storage, read-only words, and words that are no location -/

/-- The indices of a window, as numbers. -/
theorem exists_regIdx {n : Nat} (hn : n ≤ 16) (P : Nat → Prop) : (∃ i : RegIdx, i.toNat < n ∧ P i.toNat) ↔ ∃ i < n, P i := by
  constructor
  · rintro ⟨i, hi, hP⟩
    exact ⟨i.toNat, hi, hP⟩
  · rintro ⟨i, hi, hP⟩
    have h : (BitVec.ofNat 4 i).toNat = i := by
      rw [BitVec.toNat_ofNat]
      omega
    exact ⟨BitVec.ofNat 4 i, by rwa [h], by rwa [h]⟩

/-- The words of storage are those of the rows the host may write and read. -/
theorem writable_iff (off : Nat) : Writable off ↔ ∃ r ∈ registerMap, r.access = .rw ∧ r.HasWord off := by
  rw [exists_mem_registerMap]
  simp only [Writable, MapRow.HasWord, controlRows, fieldWindow, pointWindow, bufferRows, Config.keybufBase, Config.keybufBytes, Config.msgbufBase,
    Config.msgbufBytes, List.mem_cons, List.not_mem_nil, exists_eq_or_imp, ↓existsAndEq, reduceCtorEq, true_and, false_and, false_or, or_false, and_false,
    or_self, exists_const]
  omega

/-- The read-only words are those of the read-only rows; the three rows of a register's window stand side by side. -/
theorem readOnly_iff (off : Nat) : ReadOnly off ↔ ∃ r ∈ registerMap, r.access = .ro ∧ r.HasWord off := by
  have hcontrol : (∃ r ∈ controlRows, r.access = .ro ∧ r.HasWord off) ↔ off % 4 = 0 ∧ (off = 0x0004 ∨ off = 0x0008 ∨ off = 0x0018) := by
    simp only [controlRows, MapRow.HasWord, List.mem_cons, List.not_mem_nil, exists_eq_or_imp, ↓existsAndEq, reduceCtorEq, true_and, false_and, and_false,
      false_or, or_false, or_self]
    omega
  have hfield : ∀ i : RegIdx, (∃ r ∈ fieldWindow i, r.access = .ro ∧ r.HasWord off) ↔
      off % 4 = 0 ∧ 0x0400 + 0x80 * i.toNat ≤ off ∧ off < 0x0444 + 0x80 * i.toNat := fun i => by
    simp only [fieldWindow, MapRow.HasWord, List.mem_cons, List.not_mem_nil, exists_eq_or_imp, ↓existsAndEq, true_and, or_false]
    omega
  have hpoint : ∀ j : RegIdx, (∃ r ∈ pointWindow j, r.access = .ro ∧ r.HasWord off) ↔
      off % 4 = 0 ∧ 0x0800 + 0x80 * j.toNat ≤ off ∧ off < 0x0844 + 0x80 * j.toNat := fun j => by
    simp only [pointWindow, MapRow.HasWord, List.mem_cons, List.not_mem_nil, exists_eq_or_imp, ↓existsAndEq, true_and, or_false]
    omega
  have hbuffer : (∃ r ∈ bufferRows, r.access = .ro ∧ r.HasWord off) ↔ off % 4 = 0 ∧ 0x1200 ≤ off ∧ off < 0x1244 := by
    simp [bufferRows, Config.outbufBase, Config.outbufBytes, MapRow.HasWord]
  rw [exists_mem_registerMap, hcontrol, hbuffer]
  simp only [hfield, hpoint]
  rw [exists_regIdx (n := 8) (by decide) fun i => off % 4 = 0 ∧ 0x0400 + 0x80 * i ≤ off ∧ off < 0x0444 + 0x80 * i,
    exists_regIdx (n := 4) (by decide) fun j => off % 4 = 0 ∧ 0x0800 + 0x80 * j ≤ off ∧ off < 0x0844 + 0x80 * j]
  by_cases ha : off % 4 = 0 <;> simp [ReadOnly, ha, or_assoc]

/-- Only `CMD` is write-only. -/
theorem wo_row : ∀ r ∈ registerMap, r.access = .wo → r = ⟨0x0000, 4, .wo, .cmd⟩ := by
  decide +kernel

/-- No row holds an unmapped offset. -/
theorem not_in_row_of_unmapped {off : Nat} (h : Unmapped off) : ∀ r ∈ registerMap, ¬ (r.base ≤ off ∧ off < r.base + r.size) := by
  obtain ⟨ha, -, h0, hrw, hro⟩ := h
  intro r hr hin
  cases hac : r.access with
  | rw => exact hrw ((writable_iff off).mpr ⟨r, hr, hac, ha, hin⟩)
  | ro => exact hro ((readOnly_iff off).mpr ⟨r, hr, hac, ha, hin⟩)
  | wo =>
    obtain rfl := wo_row r hr hac
    simp only at hin
    omega

/-! ## A word write, by what is shown after it -/

/-- The word written is shown. -/
theorem shows_writeRow_same {s : State} (hm : Memory.wf s.mem = true) {r : MapRow} (hr : r ∈ registerMap) (hac : r.access = .rw) {off : Nat}
    {data : List Byte} (hl : data.length = 4) (hw : r.HasWord off) : Shows (writeRow s r off data) off data := by
  have ⟨ha, h₁, h₂⟩ := hw
  have hsame := readRow_writeRow_same hm hr hac hl ha h₁ h₂
  exact (shows_iff _ _ _).mpr ⟨r, hr, by simp [hac], hw, hsame.symm⟩

/-- Every other readable word shows what it did: it too is a word of a row. -/
theorem shows_writeRow_ne {s : State} (hm : Memory.wf s.mem = true) {r : MapRow} (hr : r ∈ registerMap) (hac : r.access = .rw) {off off' : Nat}
    {data bs : List Byte} (hl : data.length = 4) (hw : r.HasWord off) (hne : off' ≠ off) (h : Shows s off' bs) :
    Shows (writeRow s r off data) off' bs := by
  obtain ⟨ha, h₁, h₂⟩ := hw
  obtain ⟨r', hr', hac', ⟨ha', h₁', h₂'⟩, rfl⟩ := (shows_iff s off' bs).mp h
  have hother := readRow_writeRow_ne hm hr hr' hac hac' hl ha ha' h₁ h₂ h₁' h₂' hne
  exact (shows_iff _ _ _).mpr ⟨r', hr', hac', ⟨ha', h₁', h₂'⟩, hother.symm⟩

/-! ## Accesses without a meaning -/

/-- What stops an access before its row is looked at (spec/20_memory.md R50, R54, R56; log 4). -/
theorem locate_refused (off width : Nat) :
    (width ≠ 4 → locate off width = .error (.refused .accessWidth)) ∧
    (width = 4 → off % 4 ≠ 0 → locate off width = .error (.refused .misaligned)) ∧
    (width = 4 → off % 4 = 0 → 0x2000 ≤ off → locate off width = .error (.fault .outsideMap)) ∧
    (width = 4 → Unmapped off → locate off width = .error (.refused .unmapped)) := by
  refine ⟨fun hw => if_pos hw, fun hw ha => ?_, fun hw ha ho => ?_, fun hw hu => ?_⟩
  · rw [locate, if_neg (not_not.mpr hw), if_pos ha]
  · rw [locate, if_neg (not_not.mpr hw), if_neg (not_not.mpr ha), if_pos (show Config.mapBytes ≤ off from ho)]
  · have ⟨ha, hlt, _⟩ := hu
    rw [hw, locate_unmapped ha hlt (not_in_row_of_unmapped hu)]

theorem hostRead_error {s : State} {off width : Nat} {o : Host.Outcome State Fault Refusal} (h : locate off width = .error o) :
    hostRead s off width = o := by
  rw [hostRead, h]

theorem hostWrite_error {s : State} {off : Nat} {data : List Byte} {o : Host.Outcome State Fault Refusal} (h : locate off data.length = .error o) :
    hostWrite s off data = o := by
  rw [hostWrite, h]

/-- `CMD` cannot be read (spec/20_memory.md R56). -/
theorem hostRead_cmd (s : State) : hostRead s 0x0000 4 = .refused .writeOnly := by
  rw [hostRead, locate_row (r := ⟨0x0000, 4, .wo, .cmd⟩) (mem_of_controlRows (by decide)) rfl le_rfl (by decide)]

/-- A read-only word cannot be written (spec/20_memory.md R56). -/
theorem hostWrite_readOnly {s : State} {off : Nat} {data : List Byte} (hd : data.length = 4) (ho : ReadOnly off) :
    hostWrite s off data = .refused .readOnly := by
  obtain ⟨r, hr, hac, ha, h₁, h₂⟩ := (readOnly_iff off).mp ho
  rw [hostWrite, hd, locate_row hr ha h₁ h₂]
  simp only [hac]

end Sys2Proof.Machine

namespace Sys2Proof.Proofs

open Sys2Proof.Machine Sys2Proof.Claims

/-- Settles O10: the bytes shown are those of a readable row, which the read answers. -/
theorem readReturnsTheBytesShown : Obligations.ReadReturnsTheBytesShown := by
  intro s off bs b rest hp hi hshow
  obtain ⟨r, hr, hac, ⟨ha, h₁, h₂⟩, rfl⟩ := (shows_iff { s with inputs := rest } off bs).mp hshow
  rw [step_idle hp hi, hostAction_read, hostRead_row hr ha h₁ h₂ hac]
  rfl

/-- Settles O11: the write patches one word of a row the host may write, and nothing but the operands and the buffers. -/
theorem writeStoresItsBytesAndNothingElse : Obligations.WriteStoresItsBytesAndNothingElse := by
  intro s off data b rest hm hp hi hl hwr
  obtain ⟨r, hr, hac, hw⟩ := (writable_iff off).mp hwr
  have ⟨ha, h₁, h₂⟩ := hw
  have hstep : step s = .next (writeRow { s with inputs := rest } r off data) := by
    rw [step_idle hp hi, hostAction_write, hostWrite_row hr hl ha h₁ h₂ hac]
  have hframe := writeRow_frame { s with inputs := rest } r off data
  exact ⟨_, hstep, congrArg State.inputs hframe, shows_writeRow_same (s := { s with inputs := rest }) hm hr hac hl hw,
    fun off' bs hne h => shows_writeRow_ne (s := { s with inputs := rest }) hm hr hac hl hw hne h, hframe⟩

/-- Settles O13: width, alignment and offset stop an access before its row is looked at; a row that is found stops the wrong direction. -/
theorem refusedAccessesHaveNoStep : Obligations.RefusedAccessesHaveNoStep := by
  intro s b rest hp
  refine ⟨fun off width hi => ?_, fun hi => ?_, fun off data hi => ?_⟩
  · obtain ⟨hwidth, halign, hmap, hunmapped⟩ := locate_refused off width
    rw [step_idle hp hi, hostAction_read]
    refine ⟨fun hw => hostRead_error (hwidth hw), fun hw ha => hostRead_error (halign hw ha), fun hw ha ho => hostRead_error (hmap hw ha ho),
      fun hw hu => hostRead_error (hunmapped hw hu), ?_⟩
    rintro rfl rfl
    exact hostRead_cmd _
  · rw [step_idle hp hi, hostAction_foreign]
  · obtain ⟨hwidth, halign, hmap, hunmapped⟩ := locate_refused off data.length
    rw [step_idle hp hi, hostAction_write]
    exact ⟨fun hw => hostWrite_error (hwidth hw), fun hw ha => hostWrite_error (halign hw ha), fun hw ha ho => hostWrite_error (hmap hw ha ho),
      fun hw hu => hostWrite_error (hunmapped hw hu), fun hw ho => hostWrite_readOnly hw ho⟩

end Sys2Proof.Proofs
end

section
/-! SUPPORT. The command words as a code (spec/30_encoding.md R80 to R90): a word is rebuilt from its fields, and a word is illegal by its opcode, by `z`, or by an
operand its format refuses. -/

namespace Sys2Proof

/-! ## From the word to the command and back -/

/-- A word whose `z` is 0 is packed from its other fields (spec/30_encoding.md R81, R88). -/
theorem packWord_fields {w : Word} (hz : zField w = 0) : packWord (opField w) (rdField w) (rs1Field w) (rs2Field w) (mField w) = w := by
  apply word_ext <;> simp [hz]

/-- The command a row builds from a word that fits its format is encoded with the row's opcode and the word's fields: those the command does not hold are zero. -/
theorem encode_build : ∀ r ∈ opcodeMap, ∀ w : Word, r.format.Fits w →
    encode (r.build w) = packWord r.op (rdField w) (rs1Field w) (rs2Field w) (mField w) := by
  simp only [opcodeMap, List.cons_append, List.nil_append, List.forall_mem_cons, List.not_mem_nil, false_implies, implies_true, and_true]
  simp +contextual [Format.Fits, Slot.allows, encode, Format.z, Format.fd, Format.fdF, Format.fdFF, Format.pd, Format.pdFF, Format.pdPP, Format.fdP,
    Format.pm, Format.pdFP, Format.fs]

/-- A word that decodes is the word of the command it decodes to. -/
theorem encode_of_decode {w : Word} {i : Instr} (h : decode w = .ok i) : encode i = w := by
  rcases decode_cases w with ⟨r, hr, ha, hd⟩ | ⟨-, hd⟩ <;> rw [hd] at h <;> cases h
  obtain ⟨hop, hfit⟩ := (accepts_iff hr w).mp ha
  rw [encode_build r hr w hfit, ← hop, packWord_fields hfit.1]

/-! ## Illegal words -/

/-- When a slot refuses an index (spec/30_encoding.md R82, R83). -/
theorem Slot.not_allows_iff (s : Slot) (i : RegIdx) :
    ¬ s.allows i = true ↔ (s = .zero ∧ i ≠ 0) ∨ (s = .field ∧ 8 ≤ i.toNat) ∨ (s = .point ∧ 4 ≤ i.toNat) := by
  cases s <;> simp [Slot.allows]

/-- A format refuses an operand of a word: one the format does not use is not zero, or an index is out of range (spec/30_encoding.md R86). -/
def Format.RefusesOperand (f : Format) (w : Word) : Prop :=
  (f.rd = .zero ∧ rdField w ≠ 0) ∨ (f.rs1 = .zero ∧ rs1Field w ≠ 0) ∨ (f.rs2 = .zero ∧ rs2Field w ≠ 0) ∨
  (f.m = false ∧ mField w = true) ∨
  (f.rd = .field ∧ 8 ≤ (rdField w).toNat) ∨ (f.rs1 = .field ∧ 8 ≤ (rs1Field w).toNat) ∨ (f.rs2 = .field ∧ 8 ≤ (rs2Field w).toNat) ∨
  (f.rd = .point ∧ 4 ≤ (rdField w).toNat) ∨ (f.rs1 = .point ∧ 4 ≤ (rs1Field w).toNat) ∨ (f.rs2 = .point ∧ 4 ≤ (rs2Field w).toNat)

/-- A word fits a format unless `z` is not 0 or the format refuses an operand: the conditions of `Fits` go slot by slot, those of R86 kind by kind. -/
theorem Format.not_fits_iff (f : Format) (w : Word) : ¬ f.Fits w ↔ zField w ≠ 0 ∨ f.RefusesOperand w := by
  have hm : ¬ (f.m = true ∨ mField w = false) ↔ f.m = false ∧ mField w = true := by simp
  rw [Format.Fits, not_and_or, not_and_or, not_and_or, not_and_or, hm, Slot.not_allows_iff, Slot.not_allows_iff, Slot.not_allows_iff,
    Format.RefusesOperand]
  exact or_congr_right (Iff.of_eq (by ac_rfl))

/-- A word is illegal exactly when the row of its opcode, if there is one, does not fit it. -/
theorem illegal_iff_not_fits (w : Word) : (∃ e, decode w = .error e) ↔ ∀ r ∈ opcodeMap, r.op = opField w → ¬ r.format.Fits w := by
  rcases decode_cases w with ⟨r, hr, ha, hd⟩ | ⟨hrej, hd⟩
  · obtain ⟨hop, hfit⟩ := (accepts_iff hr w).mp ha
    refine ⟨fun ⟨e, he⟩ => ?_, fun h => absurd hfit (h r hr hop.symm)⟩
    rw [hd] at he; cases he
  · refine ⟨fun _ r hr hop hfit => ?_, fun _ => ⟨_, hd⟩⟩
    exact Bool.false_ne_true ((hrej r hr).symm.trans ((accepts_iff hr w).mpr ⟨hop.symm, hfit⟩))

/-- The conditions of spec/30_encoding.md R86 for the whole map: the opcode is none of the twenty, `z` is not 0, or the opcode's format refuses an operand. -/
theorem illegal_iff (w : Word) : (∃ e, decode w = .error e) ↔
    (∀ r ∈ opcodeMap, r.op ≠ opField w) ∨ zField w ≠ 0 ∨ ∃ r ∈ opcodeMap, r.op = opField w ∧ r.format.RefusesOperand w := by
  rw [illegal_iff_not_fits]
  constructor
  · intro h
    by_cases hop : ∃ r ∈ opcodeMap, r.op = opField w
    · obtain ⟨r, hr, hop⟩ := hop
      exact .inr (((r.format.not_fits_iff w).mp (h r hr hop)).imp_right fun hbad => ⟨r, hr, hop, hbad⟩)
    · exact .inl fun r hr h => hop ⟨r, hr, h⟩
  · rintro (hop | hz | ⟨r, hr, hop, hbad⟩) r' hr' hop'
    · exact absurd hop' (hop r' hr')
    · exact (r'.format.not_fits_iff w).mpr (.inl hz)
    · rw [← row_eq_of_op hr hr' (hop.trans hop'.symm)]
      exact (r.format.not_fits_iff w).mpr (.inr hbad)

end Sys2Proof

namespace Sys2Proof.Machine

open Sys2Proof.Claims

/-- An illegal word issued to a unit that is not faulted is completed as fault entry with code 11 (spec/30_encoding.md R86). -/
theorem step_issue_illegal {s : State} {w : Word} {e : Illegal} (hw : decode w = .error e) (hs : s.err = false) (hn : NothingGetsIn s.inputs) :
    step (s.issue w) = .next (faulted s 11 w) := by
  rw [State.issue_accepted (.inl hs), (completes_of_nothingGetsIn (s := { s with pend := some w }) rfl hn).2 e hw, if_neg (by simp [hs])]
  rfl

/-- A faulted unit does not take an illegal word (spec/60_exceptions.md R247). -/
theorem State.issue_illegal_dropped {s : State} {w : Word} {e : Illegal} (hw : decode w = .error e) (hs : s.err = true) : s.issue w = s :=
  State.issue_dropped hs (by simp [acceptedWhileFaulted_iff, hw])

end Sys2Proof.Machine

namespace Sys2Proof.Proofs

open Sys2Proof.Machine

/-- Settles O1: the word carries the opcode of the command's row and fits its format, so this row accepts it and builds the command back. -/
theorem decodeOfEncodeIsTheCommand : Obligations.DecodeOfEncodeIsTheCommand := fun _ => decode_encode

/-- Settles O2: the row that accepts the word leaves no field of it out, and allows its indices. -/
theorem encodeOfDecodeIsTheWord : Obligations.EncodeOfDecodeIsTheWord := fun _ _ h => ⟨encode_of_decode h, wf_of_decode h⟩

/-- Settles O3: a word is legal when the one row of its opcode fits it; an illegal word is issued and completed, or not issued at all. -/
theorem illegalWordsAndWhatTheyDo : Obligations.IllegalWordsAndWhatTheyDo := by
  refine ⟨illegal_iff, ⟨.opcode, rfl⟩, ⟨.opcode, rfl⟩, fun w e s hw hp => ⟨fun hs b rest hi hn => ?_, fun hs b rest hi => ?_⟩⟩
  · rw [run_succ_next (step_cmd hp hi)]
    exact (run_one _).trans (step_issue_illegal (s := { s with inputs := rest }) hw hs hn)
  · rw [step_cmd hp hi]
    exact congrArg _ (State.issue_illegal_dropped (s := { s with inputs := rest }) hw hs)

/-- Settles O4: each word is the one the encoder gives for its command. -/
theorem wordsWrittenOutDecode : Obligations.WordsWrittenOutDecode :=
  ⟨decode_encode (i := .clrerr) rfl, decode_encode (i := .zero) rfl, decode_encode (i := .fadd 2 0 1) rfl,
    decode_encode (i := .fdiv 5 1 0) rfl, decode_encode (i := .pmake 3 6 7) rfl, decode_encode (i := .pdbl 3 0) rfl,
    decode_encode (i := .pgetx 0 3) rfl, decode_encode (i := .pser 1 true) rfl, decode_encode (i := .smul 1 0 0) rfl,
    decode_encode (i := .kchk 5) rfl, decode_encode (i := .mseed) rfl⟩

end Sys2Proof.Proofs
end

section
/-! SUPPORT. The arithmetic of one modulus (spec/40_field.md R111 to R113, R120): the ring helpers as sums, differences and products in `ZMod m`, and the inverse by
the equation it solves. -/

namespace Sys2Proof.Machine

/-! ## The ring helpers -/

/-- A sum of two canonical values is reduced at most once. -/
theorem faddMod_toNat_of_lt {m a b : U256} (ha : a.toNat < m.toNat) (hb : b.toNat < m.toNat) :
    (faddMod m a b).toNat = if a.toNat + b.toNat < m.toNat then a.toNat + b.toNat else a.toNat + b.toNat - m.toNat := by
  rw [faddMod_toNat _ _ _ (by omega)]
  split
  · exact Nat.mod_eq_of_lt ‹_›
  · rw [Nat.mod_eq_sub_mod (by omega), Nat.mod_eq_of_lt (by omega)]

/-- A difference of two canonical values needs the modulus at most once. -/
theorem fsubMod_toNat_of_lt {m a b : U256} (ha : a.toNat < m.toNat) (hb : b.toNat < m.toNat) :
    (fsubMod m a b).toNat = if b.toNat ≤ a.toNat then a.toNat - b.toNat else a.toNat + m.toNat - b.toNat := by
  have h := fsubMod_toNat m a b (by omega)
  split
  · rw [Int.emod_eq_of_lt (by omega) (by omega)] at h
    omega
  · rw [← Int.add_emod_right, Int.emod_eq_of_lt (by omega) (by omega)] at h
    omega

section
variable {m : U256} (hm : 0 < m.toNat) (a b : U256)
include hm

theorem faddMod_cast : ((faddMod m a b).toNat : ZMod m.toNat) = a.toNat + b.toNat := by
  rw [faddMod_toNat _ _ _ hm, ZMod.natCast_mod, Nat.cast_add]

theorem fmulMod_cast : ((fmulMod m a b).toNat : ZMod m.toNat) = a.toNat * b.toNat := by
  rw [fmulMod_toNat _ _ _ hm, ZMod.natCast_mod, Nat.cast_mul]

theorem fsubMod_cast : ((fsubMod m a b).toNat : ZMod m.toNat) = a.toNat - b.toNat := by
  rw [← Int.cast_natCast, fsubMod_toNat _ _ _ hm, ZMod.intCast_mod, Int.cast_sub, Int.cast_natCast, Int.cast_natCast]

end

/-- Canonical values are equal when they are equal in `ZMod m`. -/
theorem eq_of_cast_eq {m a b : U256} (ha : a.toNat < m.toNat) (hb : b.toNat < m.toNat) (h : (a.toNat : ZMod m.toNat) = b.toNat) : a = b :=
  BitVec.eq_of_toNat_eq (Nat.ModEq.eq_of_lt_of_lt ((ZMod.natCast_eq_natCast_iff _ _ _).mp h) ha hb)

/-! ## The inverse -/

/-- Multiplying by `i` and then by an inverse of `i` changes nothing. -/
theorem mul_mul_mod_cancel {m a b i : Nat} (ha : a < m) (h : i * b % m = 1) : a * i % m * b % m = a :=
  calc a * i % m * b % m = a * (i * b % m) % m := by rw [Nat.mod_mul_mod, Nat.mul_mod_mod, Nat.mul_assoc]
    _ = a := by rw [h, Nat.mul_one, Nat.mod_eq_of_lt ha]

/-- `inv_m(a)` is the number below the modulus whose product with `a` is 1. -/
theorem invMod_eq_ok {m a t : Nat} (h2 : 2 ≤ m) (hm : m < 2 ^ 256) (ha : a < m) (ht : t < m) (h : t * a % m = 1) : invMod m a = .ok t := by
  have hg : Nat.gcd a m = 1 := Nat.coprime_of_mul_modEq_one t (by rw [Nat.ModEq, Nat.mul_comm, h, Nat.mod_eq_of_lt h2])
  obtain ⟨u, hu, hlt, hinv⟩ := invMod_ok h2 hm ha hg
  rw [hu, inverse_unique hlt ht hinv h]

/-- `m − 1` is `−1`, its own inverse. -/
theorem pred_mul_pred_mod {m : Nat} (h2 : 2 ≤ m) : (m - 1) * (m - 1) % m = 1 := by
  obtain ⟨k, rfl⟩ := Nat.exists_eq_add_of_le h2
  have h : (2 + k - 1) * (2 + k - 1) = 1 + (2 + k) * k := by
    rw [show 2 + k - 1 = k + 1 by omega]
    ring
  rw [h, Nat.add_mul_mod_self_left, Nat.mod_eq_of_lt (by omega)]

end Sys2Proof.Machine

namespace Sys2Proof.Proofs

open Sys2Proof.Machine

/-- Settles O36: `inv` decides by the gcd, and the number it gives is the only one that solves its equation. -/
theorem inverseHelperFindsTheUniqueInverse : Obligations.InverseHelperFindsTheUniqueInverse := by
  intro m a h2 hm ha
  refine ⟨fun hg => ?_, invMod_noInverse hm ha, ?_, ?_, ?_⟩
  · obtain ⟨t, ht, hlt, hinv⟩ := invMod_ok h2 hm ha hg
    exact ⟨t, ht, hlt, hinv, fun u hu hu' => inverse_unique hu hlt hu' hinv⟩
  · exact invMod_noInverse hm (by omega) (by rw [Nat.gcd_zero_left]; omega)
  · exact invMod_eq_ok h2 hm (by omega) (by omega) (Nat.mod_eq_of_lt h2)
  · exact invMod_eq_ok h2 hm (by omega) (by omega) (pred_mul_pred_mod h2)

/-- Settles O37: the helpers' remainders, with the one reduction a sum or a difference of canonical values can need. -/
theorem ringHelpersGiveTheCanonicalRepresentative : Obligations.RingHelpersGiveTheCanonicalRepresentative := by
  intro m a b h2 ha hb
  have hm : 0 < m.toNat := by omega
  exact ⟨faddMod_toNat_of_lt ha hb, fsubMod_toNat_of_lt ha hb, fmulMod_toNat m a b hm, faddMod_lt m a b hm, fsubMod_lt m a b hm, fmulMod_lt m a b hm⟩

/-- Settles O38: the ring laws hold in `ZMod m`, where canonical values embed; the inverse solves its equation from either side. -/
theorem fieldLawsOfAFixedModulus : Obligations.FieldLawsOfAFixedModulus := by
  intro m a b c h2 ha hb hc
  have hm : 0 < m.toNat := by omega
  have hadd := fun x y => faddMod_lt m x y hm
  have hmul := fun x y => fmulMod_lt m x y hm
  have hsub := fun x y => fsubMod_lt m x y hm
  refine ⟨eq_of_cast_eq (hadd _ _) (hadd _ _) ?_, eq_of_cast_eq (hadd _ _) (hadd _ _) ?_, eq_of_cast_eq (hmul _ _) (hmul _ _) ?_,
    eq_of_cast_eq (hmul _ _) (hmul _ _) ?_, eq_of_cast_eq (hmul _ _) (hadd _ _) ?_, eq_of_cast_eq (hsub _ _) ha ?_, fun hg => ?inverse⟩
  case inverse =>
    obtain ⟨i, hi, hlt, hinv⟩ := invMod_ok h2 m.isLt hb hg
    have hinv' : b.toNat * i % m.toNat = 1 := by rw [Nat.mul_comm, hinv]
    refine ⟨i, hi, BitVec.eq_of_toNat_eq ?_, invMod_eq_ok h2 m.isLt hlt hb hinv'⟩
    rw [fmulMod_toNat _ _ _ hm, fmulMod_toNat _ _ _ hm, toNat_ofNat_of_lt (lt_trans hlt m.isLt), mul_mul_mod_cancel ha hinv']
  all_goals
    simp only [faddMod_cast hm, fmulMod_cast hm, fsubMod_cast hm]
    ring

end Sys2Proof.Proofs
end

section
/-! SUPPORT. The field commands (spec/40_field.md R114 to R121): their effects case by case, what a command at a unit that is not faulted answers, and that the
effect is a function of the source registers. -/

namespace Sys2Proof.Machine

open Sys2Proof.Claims

/-! ## The effects, case by case -/

theorem State.srcFF_full {s : State} {i j : RegIdx} {a b : FieldElement} (ha : s.readF i = .full a) (hb : s.readF j = .full b) :
    s.srcFF i j = .ok (a, b) := by
  rw [State.srcFF, State.srcF_full ha, State.srcF_full hb]

theorem State.srcFF_empty {s : State} {i j : RegIdx} (h : s.readF i = .empty ∨ s.readF j = .empty) : s.srcFF i j = .error .emptyOperand := by
  rcases s.srcFF_cases i j with ⟨a, b, ha, hb, -⟩ | ⟨-, e⟩
  · simp [ha, hb] at h
  · exact e

section
variable {s : State} {rd rs1 rs2 : RegIdx}

theorem fieldBinary_empty (op : U256 → U256 → U256 → U256) (h : s.readF rs1 = .empty ∨ s.readF rs2 = .empty) :
    fieldBinary op s rd rs1 rs2 = .error .emptyOperand := by
  rw [fieldBinary, State.srcFF_empty h]

theorem fieldDivide_empty (h : s.readF rs1 = .empty ∨ s.readF rs2 = .empty) : fieldDivide s rd rs1 rs2 = .error .emptyOperand := by
  rw [fieldDivide, State.srcFF_empty h]

theorem fieldInvert_empty (h : s.readF rs1 = .empty) : fieldInvert s rd rs1 = .error .emptyOperand := by
  rw [fieldInvert, State.srcF_empty h]

variable {a b : FieldElement} (ha : s.readF rs1 = .full a) (hb : s.readF rs2 = .full b)

section
include ha

theorem fieldInvert_error {k : ErrKind} (hi : invMod a.mod.toNat a.val.toNat = .error k) : fieldInvert s rd rs1 = .error k := by
  simp only [fieldInvert, State.srcF_full ha, hi]

theorem fieldInvert_ok {t : Nat} (hi : invMod a.mod.toNat a.val.toNat = .ok t) :
    fieldInvert s rd rs1 = .ok (s.writeF rd ⟨BitVec.ofNat 256 t, a.mod⟩) := by
  simp only [fieldInvert, State.srcF_full ha, hi]

end

include ha hb

theorem fieldBinary_mismatched (op : U256 → U256 → U256 → U256) (hm : a.mod ≠ b.mod) :
    fieldBinary op s rd rs1 rs2 = .error .mismatchedModulus := by
  simp only [fieldBinary, State.srcFF_full ha hb, if_neg hm]

theorem fieldBinary_ok (op : U256 → U256 → U256 → U256) (hm : a.mod = b.mod) :
    fieldBinary op s rd rs1 rs2 = .ok (s.writeF rd ⟨op a.mod a.val b.val, a.mod⟩) := by
  simp only [fieldBinary, State.srcFF_full ha hb, if_pos hm]

theorem fieldDivide_zero (h0 : b.val = 0) : fieldDivide s rd rs1 rs2 = .error .divisionByZero := by
  simp only [fieldDivide, State.srcFF_full ha hb, if_pos h0]

theorem fieldDivide_error {k : ErrKind} (h0 : b.val ≠ 0) (hi : invMod b.mod.toNat b.val.toNat = .error k) :
    fieldDivide s rd rs1 rs2 = .error k := by
  simp only [fieldDivide, State.srcFF_full ha hb, if_neg h0, hi]

theorem fieldDivide_mismatched {i : Nat} (h0 : b.val ≠ 0) (hi : invMod b.mod.toNat b.val.toNat = .ok i) (hm : a.mod ≠ b.mod) :
    fieldDivide s rd rs1 rs2 = .error .mismatchedModulus := by
  simp only [fieldDivide, State.srcFF_full ha hb, if_neg h0, hi, if_neg hm]

theorem fieldDivide_ok {i : Nat} (h0 : b.val ≠ 0) (hi : invMod b.mod.toNat b.val.toNat = .ok i) (hm : a.mod = b.mod) :
    fieldDivide s rd rs1 rs2 = .ok (s.writeF rd ⟨fmulMod a.mod a.val (BitVec.ofNat 256 i), a.mod⟩) := by
  simp only [fieldDivide, State.srcFF_full ha hb, if_neg h0, hi, if_pos hm]

end

/-! ## The commands at a unit that is not faulted -/

section
variable {i : Instr} {s : State} (hs : s.err = false) (hw : i.wf = true)
include hs hw

/-- A failing check is fault entry with the kind's code. -/
theorem exec_faults {k : ErrKind} (h : effectOf i s = .error k) : exec i s = .next (faulted s k.code (encode i)) := exec_of_error hs hw h

/-- A field result is written to the destination, and nothing else is. -/
theorem exec_writesF {rd : RegIdx} {v m : U256} (h : effectOf i s = .ok (s.writeF rd ⟨v, m⟩)) : exec i s = .next (wroteF s rd v m) :=
  exec_of_ok hs hw h

/-- `FADD`, `FSUB` and `FMUL`: the two faults in their order, else the result of the helper (spec/40_field.md R115 to R117). -/
theorem exec_fieldBinary {op : U256 → U256 → U256 → U256} {rd rs1 rs2 : RegIdx} (he : effectOf i s = fieldBinary op s rd rs1 rs2) :
    ((s.readF rs1 = .empty ∨ s.readF rs2 = .empty) → exec i s = .next (faulted s 12 (encode i))) ∧
    ∀ a b, s.readF rs1 = .full a → s.readF rs2 = .full b →
      (a.mod ≠ b.mod → exec i s = .next (faulted s 2 (encode i))) ∧
      (a.mod = b.mod → exec i s = .next (wroteF s rd (op a.mod a.val b.val) a.mod)) :=
  ⟨fun h => exec_faults hs hw (he.trans (fieldBinary_empty op h)), fun _ _ ha hb =>
    ⟨fun hm => exec_faults hs hw (he.trans (fieldBinary_mismatched ha hb op hm)), fun hm => exec_writesF hs hw (he.trans (fieldBinary_ok ha hb op hm))⟩⟩

end

/-! ## The effect is a function of the sources -/

/-- Two effects with one result: the same failure, or the same element written to `rd`. -/
def SameResult (rd : RegIdx) (s s' : State) (x x' : Effect) : Prop :=
  (∃ k, x = .error k ∧ x' = .error k) ∨ ∃ e, x = .ok (s.writeF rd e) ∧ x' = .ok (s'.writeF rd e)

section
variable {s s' : State} {rd rs1 rs2 : RegIdx} (h₁ : s.readF rs1 = s'.readF rs1) (h₂ : s.readF rs2 = s'.readF rs2)

include h₁ in
theorem fieldInvert_sameResult : SameResult rd s s' (fieldInvert s rd rs1) (fieldInvert s' rd rs1) := by
  have hcases := fieldInvert_cases s rd rs1
  rw [h₁] at hcases
  rcases hcases with ⟨h, e⟩ | ⟨a, ha, ⟨k, hk, e⟩ | ⟨t, ht, e⟩⟩
  · exact .inl ⟨_, e, fieldInvert_empty h⟩
  · exact .inl ⟨_, e, fieldInvert_error ha hk⟩
  · exact .inr ⟨_, e, fieldInvert_ok ha ht⟩

include h₁ h₂

theorem fieldBinary_sameResult (op : U256 → U256 → U256 → U256) :
    SameResult rd s s' (fieldBinary op s rd rs1 rs2) (fieldBinary op s' rd rs1 rs2) := by
  have hcases := fieldBinary_cases op s rd rs1 rs2
  rw [h₁, h₂] at hcases
  rcases hcases with ⟨h, e⟩ | ⟨a, b, ha, hb, ⟨hm, e⟩ | ⟨hm, e⟩⟩
  · exact .inl ⟨_, e, fieldBinary_empty op h⟩
  · exact .inl ⟨_, e, fieldBinary_mismatched ha hb op hm⟩
  · exact .inr ⟨_, e, fieldBinary_ok ha hb op hm⟩

theorem fieldDivide_sameResult : SameResult rd s s' (fieldDivide s rd rs1 rs2) (fieldDivide s' rd rs1 rs2) := by
  have hcases := fieldDivide_cases s rd rs1 rs2
  rw [h₁, h₂] at hcases
  rcases hcases with ⟨h, e⟩ | ⟨a, b, ha, hb, ⟨h0, e⟩ | ⟨h0, k, hk, e⟩ | ⟨h0, i, hi, ⟨hm, e⟩ | ⟨hm, e⟩⟩⟩
  · exact .inl ⟨_, e, fieldDivide_empty h⟩
  · exact .inl ⟨_, e, fieldDivide_zero ha hb h0⟩
  · exact .inl ⟨_, e, fieldDivide_error ha hb h0 hk⟩
  · exact .inl ⟨_, e, fieldDivide_mismatched ha hb h0 hi hm⟩
  · exact .inr ⟨_, e, fieldDivide_ok ha hb h0 hi hm⟩

/-- The five commands with field sources only. -/
theorem effectOf_sameResult {i : Instr} (hi : i ∈ [.fadd rd rs1 rs2, .fsub rd rs1 rs2, .fmul rd rs1 rs2, .fdiv rd rs1 rs2, .finv rd rs1]) :
    SameResult rd s s' (effectOf i s) (effectOf i s') := by
  simp only [List.mem_cons, List.not_mem_nil, or_false] at hi
  rcases hi with rfl | rfl | rfl | rfl | rfl
  · exact fieldBinary_sameResult h₁ h₂ faddMod
  · exact fieldBinary_sameResult h₁ h₂ fsubMod
  · exact fieldBinary_sameResult h₁ h₂ fmulMod
  · exact fieldDivide_sameResult h₁ h₂
  · exact fieldInvert_sameResult h₁

end

end Sys2Proof.Machine

namespace Sys2Proof.Proofs

open Sys2Proof.Machine

/-- Settles O30: the one check, then the remainder. -/
theorem fmakeReducesTheStagedValue : Obligations.FmakeReducesTheStagedValue := by
  intro rd s hd hs
  have hw : (Instr.fmake rd).wf = true := by simp [Instr.wf, hd]
  refine ⟨by simp [encode, packWord_toNat], fun h => ?_, fun h => ⟨_, reduceMod_toNat s.opm s.opa (by omega), ?_⟩⟩
  · exact exec_faults hs hw (if_pos h)
  · exact exec_writesF hs hw (if_neg (by omega))

/-- Settles O31: the helper's sum, in the frame of the three binary commands. -/
theorem faddAddsModuloTheSourcesModulus : Obligations.FaddAddsModuloTheSourcesModulus := by
  intro rd rs1 rs2 s hd h₁ h₂ hs
  obtain ⟨hempty, hfull⟩ := exec_fieldBinary (i := .fadd rd rs1 rs2) hs (by simp [Instr.wf, hd, h₁, h₂]) rfl
  refine ⟨by simp [encode, packWord_toNat], hempty, fun a b ha hb => ?_⟩
  obtain ⟨hne, hsame⟩ := hfull a b ha hb
  exact ⟨hne, fun hm h1 => ⟨_, faddMod_toNat _ _ _ (by omega), hsame hm⟩⟩

/-- Settles O32: the helper's difference of canonical values, in the frame of the three binary commands. -/
theorem fsubSubtractsModuloTheSourcesModulus : Obligations.FsubSubtractsModuloTheSourcesModulus := by
  intro rd rs1 rs2 s hd h₁ h₂ hs
  obtain ⟨hempty, hfull⟩ := exec_fieldBinary (i := .fsub rd rs1 rs2) hs (by simp [Instr.wf, hd, h₁, h₂]) rfl
  refine ⟨by simp [encode, packWord_toNat], hempty, fun a b ha hb => ?_⟩
  obtain ⟨hne, hsame⟩ := hfull a b ha hb
  exact ⟨hne, fun hm hla hlb => ⟨_, fsubMod_toNat_of_lt hla (hm ▸ hlb), hsame hm⟩⟩

/-- Settles O33: the helper's product, in the frame of the three binary commands. -/
theorem fmulMultipliesModuloTheSourcesModulus : Obligations.FmulMultipliesModuloTheSourcesModulus := by
  intro rd rs1 rs2 s hd h₁ h₂ hs
  obtain ⟨hempty, hfull⟩ := exec_fieldBinary (i := .fmul rd rs1 rs2) hs (by simp [Instr.wf, hd, h₁, h₂]) rfl
  refine ⟨by simp [encode, packWord_toNat], hempty, fun a b ha hb => ?_⟩
  obtain ⟨hne, hsame⟩ := hfull a b ha hb
  exact ⟨hne, fun hm h1 => ⟨_, fmulMod_toNat _ _ _ (by omega), hsame hm⟩⟩

/-- Settles O34: the gcd decides whether the divisor has an inverse, and the product with it is undone by the divisor. -/
theorem fdivMultipliesByTheInverse : Obligations.FdivMultipliesByTheInverse := by
  intro rd rs1 rs2 s hd h₁ h₂ hs
  have hw : (Instr.fdiv rd rs1 rs2).wf = true := by simp [Instr.wf, hd, h₁, h₂]
  refine ⟨by simp [encode, packWord_toNat], fun h => exec_faults hs hw (fieldDivide_empty h), fun a b ha hb ⟨h1, hla⟩ ⟨h1b, hlb⟩ => ?_⟩
  refine ⟨fun h0 => ?_, fun h0 hg => ?_, fun h0 hg hm => ?_, fun h0 hg hm => ?_⟩
  · exact exec_faults hs hw (fieldDivide_zero ha hb h0)
  · exact exec_faults hs hw (fieldDivide_error ha hb h0 (invMod_noInverse b.mod.isLt hlb hg))
  · obtain ⟨i, hi, -⟩ := invMod_ok h1b b.mod.isLt hlb hg
    exact exec_faults hs hw (fieldDivide_mismatched ha hb h0 hi hm)
  · obtain ⟨i, hi, hlt, hinv⟩ := invMod_ok h1b b.mod.isLt hlb hg
    have hv : (fmulMod a.mod a.val (BitVec.ofNat 256 i)).toNat = a.val.toNat * i % a.mod.toNat := by
      rw [fmulMod_toNat _ _ _ (by omega), toNat_ofNat_of_lt (lt_trans hlt b.mod.isLt)]
    refine ⟨_, i, hm ▸ hlt, hm ▸ hinv, hv, ?_, exec_writesF hs hw (fieldDivide_ok ha hb h0 hi hm)⟩
    rw [hv, mul_mul_mod_cancel hla (hm ▸ hinv)]

/-- Settles O35: the gcd decides whether there is an inverse. -/
theorem finvInverts : Obligations.FinvInverts := by
  intro rd rs1 s hd h₁ hs
  have hw : (Instr.finv rd rs1).wf = true := by simp [Instr.wf, hd, h₁]
  refine ⟨by simp [encode, packWord_toNat], fun h => exec_faults hs hw (fieldInvert_empty h), fun a ha ⟨h1, hla⟩ => ⟨fun hg => ?_, fun hg => ?_⟩⟩
  · exact exec_faults hs hw (fieldInvert_error ha (invMod_noInverse a.mod.isLt hla hg))
  · obtain ⟨t, ht, hlt, hinv⟩ := invMod_ok h1 a.mod.isLt hla hg
    have hv : (BitVec.ofNat 256 t).toNat = t := toNat_ofNat_of_lt (lt_trans hlt a.mod.isLt)
    exact ⟨_, by rwa [hv], by rwa [hv], exec_writesF hs hw (fieldInvert_ok ha ht)⟩

/-- Settles O39: the effects in the two states have one result, a fault's code or the element written. -/
theorem fieldCommandsDependOnlyOnTheirSources : Obligations.FieldCommandsDependOnlyOnTheirSources := by
  intro rd rs1 rs2 s s' t t' i hd hr₁ hr₂ hs hs' h₁ h₂ hi ht ht'
  have hw : i.wf = true := by
    simp only [List.mem_cons, List.not_mem_nil, or_false] at hi
    rcases hi with rfl | rfl | rfl | rfl | rfl <;> simp [Instr.wf, hd, hr₁, hr₂]
  rcases effectOf_sameResult h₁ h₂ hi with ⟨k, hk, hk'⟩ | ⟨e, he, he'⟩
  · rw [exec_of_error hs hw hk] at ht
    rw [exec_of_error hs' hw hk'] at ht'
    cases ht
    cases ht'
    exact ⟨rfl, fun _ => rfl, nofun⟩
  · rw [exec_of_ok hs hw he] at ht
    rw [exec_of_ok hs' hw he'] at ht'
    cases ht
    cases ht'
    refine ⟨hs.trans hs'.symm, fun h => absurd (hs.symm.trans h) Bool.false_ne_true, fun _ => ?_⟩
    rw [State.readF_retire, State.readF_retire, State.readF_writeF _ _ _ _ hd, State.readF_writeF _ _ _ _ hd, if_pos rfl, if_pos rfl]

end Sys2Proof.Proofs
end

section
/-! SUPPORT. The sum of two finite points (spec/41_point.md R141): its slope and its third point. -/

namespace Sys2Proof.Machine

/-- A sum of two finite points that is answered is the third point of their slope. -/
theorem pointAdd_fin_ok {x1 y1 x2 y2 : U256} {C : CurvePoint} (h : pointAdd (.fin x1 y1) (.fin x2 y2) = .ok C) :
    ∃ lam, slope x1.toNat y1.toNat x2.toNat y2.toNat = .ok lam ∧ C = thirdPoint lam x1.toNat y1.toNat x2.toNat := by
  simp only [pointAdd] at h
  split at h
  · rename_i lam hl
    cases h
    exact ⟨lam, hl, rfl⟩
  · cases h

end Sys2Proof.Machine

namespace Sys2Proof.Proofs

open Sys2Proof.Machine

/-- Settles O40: the slope solves the tangent's or the chord's equation, and the coordinates are remainders. -/
theorem pointAdditionFormulas : Obligations.PointAdditionFormulas := by
  intro x1 y1 x2 y2 C hx1 hy1 hx2 _ h
  obtain ⟨lam, hl, rfl⟩ := pointAdd_fin_ok h
  rcases slope_cases hx1 hy1 hx2 (y2 := y2.toNat) with ⟨-, -, he⟩ | ⟨-, q, hq, hlt, htangent, hchord⟩
  · rw [hl] at he
    cases he
  · rw [hl] at hq
    cases hq
    rw [BitVec.toNat_inj, BitVec.toNat_inj] at htangent hchord
    obtain ⟨x3, y3, hC, hx3, hy3⟩ := thirdPoint_eq lam x1.toNat y1.toNat x2.toNat
    refine ⟨x3, y3, lam, hC, hx3 ▸ modP_lt _, hy3 ▸ modP_lt _, hlt, htangent, hchord, hx3 ▸ modP_modEq _, ?_⟩
    rw [hy3, hx3]
    exact modP_modEq _

end Sys2Proof.Proofs
end

section
/-! SUPPORT. The sum of two finite points, when it fails and why its operands may be exchanged (spec/41_point.md R141 to R143). -/

namespace Sys2Proof.Machine

/-- The sum of two finite points, said once: it fails exactly where the slope's denominator is zero, and is finite everywhere else. -/
theorem pointAdd_fin_cases {x1 y1 x2 y2 : U256} (hx1 : x1.toNat < Config.pField) (hy1 : y1.toNat < Config.pField) (hx2 : x2.toNat < Config.pField) :
    (x1 = x2 ∧ (y1 ≠ y2 ∨ y1 = 0) ∧ pointAdd (.fin x1 y1) (.fin x2 y2) = .error .divisionByZero) ∨
    (¬ (x1 = x2 ∧ (y1 ≠ y2 ∨ y1 = 0)) ∧ ∃ x y, pointAdd (.fin x1 y1) (.fin x2 y2) = .ok (.fin x y)) := by
  have hzero : y1.toNat = 0 ↔ y1 = 0 := BitVec.toNat_inj (y := 0)
  have hcases := slope_cases (y2 := y2.toNat) hx1 hy1 hx2
  rw [ne_eq, hzero, BitVec.toNat_inj, BitVec.toNat_inj] at hcases
  rcases hcases with ⟨hx, hy, he⟩ | ⟨hne, lam, hl, -⟩
  · exact .inl ⟨hx, hy, by simp only [pointAdd, he]⟩
  · obtain ⟨x, y, ht, -⟩ := thirdPoint_eq lam x1.toNat y1.toNat x2.toNat
    exact .inr ⟨hne, x, y, by simp only [pointAdd, hl, ht]⟩

/-- Two points with the same `x` and different `y` have no sum (spec/41_point.md R143). -/
theorem pointAdd_same_x {x y1 y2 : U256} (hx : x.toNat < Config.pField) (hy1 : y1.toNat < Config.pField) (hy : y1 ≠ y2) :
    pointAdd (.fin x y1) (.fin x y2) = .error .divisionByZero := by
  rcases pointAdd_fin_cases (y2 := y2) hx hy1 hx with ⟨-, -, he⟩ | ⟨hne, -⟩
  · exact he
  · exact absurd ⟨rfl, .inl hy⟩ hne

/-- At most one number below `P_FIELD` solves `a · d = n` modulo it, when `d` is not zero modulo it. -/
theorem eq_of_mul_modEq {a b : Nat} {d n : Int} (ha : a < Config.pField) (hb : b < Config.pField) (hd : modP d ≠ 0)
    (h₁ : a * d ≡ n [ZMOD Config.pField]) (h₂ : b * d ≡ n [ZMOD Config.pField]) : a = b := by
  rw [ne_eq, modP_eq_zero_iff] at hd
  have hdvd : (Config.pField : Int) ∣ (a - b) * d := by
    rw [sub_mul]
    exact (h₂.trans h₁.symm).dvd
  have hprime := Nat.prime_iff_prime_int.mp Primes.pField_prime
  exact (sub_modP ha hb).mp ((modP_eq_zero_iff _).mpr ((hprime.dvd_or_dvd hdvd).resolve_right hd))

/-- The chord has one slope, taken from either end. -/
theorem slope_comm {x1 y1 x2 y2 : Nat} (hx1 : x1 < Config.pField) (hy1 : y1 < Config.pField) (hx2 : x2 < Config.pField) (hy2 : y2 < Config.pField)
    (hx : x1 ≠ x2) : ∃ lam : Nat, slope x1 y1 x2 y2 = .ok lam ∧ slope x2 y2 x1 y1 = .ok lam ∧
      (lam : Int) * ((x2 : Int) - x1) ≡ (y2 : Int) - y1 [ZMOD Config.pField] := by
  rcases slope_cases (y2 := y2) hx1 hy1 hx2 with ⟨h, -⟩ | ⟨-, lam, hl, hlt, -, hchord⟩
  · exact absurd h hx
  rcases slope_cases (y2 := y1) hx2 hy2 hx1 with ⟨h, -⟩ | ⟨-, lam', hl', hlt', -, hchord'⟩
  · exact absurd h.symm hx
  have h₁ := hchord fun h => hx h.1
  have h₂ : (lam' : Int) * ((x2 : Int) - x1) ≡ (y2 : Int) - y1 [ZMOD Config.pField] := by
    have := (hchord' fun h => hx h.1.symm).neg
    rwa [← mul_neg, neg_sub, neg_sub] at this
  have hd : modP ((x2 : Int) - x1) ≠ 0 := fun h => hx ((sub_modP hx2 hx1).mp h).symm
  obtain rfl := eq_of_mul_modEq hlt hlt' hd h₁ h₂
  exact ⟨lam, hl, hl', h₁⟩

/-- The third point of a chord, taken from either end. -/
theorem thirdPoint_comm {lam x1 y1 x2 y2 : Int} (h : lam * (x2 - x1) ≡ y2 - y1 [ZMOD Config.pField]) :
    thirdPoint lam x1 y1 x2 = thirdPoint lam x2 y2 x1 := by
  have hx : lam * lam - x2 - x1 = lam * lam - x1 - x2 := by ring
  have hy : ∀ x3, modP (lam * (x1 - x3) - y1) = modP (lam * (x2 - x3) - y2) := by
    intro x3
    rw [modP_eq_iff, Int.modEq_iff_dvd, show lam * (x2 - x3) - y2 - (lam * (x1 - x3) - y1) = lam * (x2 - x1) - (y2 - y1) by ring]
    exact h.symm.dvd
  simp only [thirdPoint, hx, hy]

/-- The sum of two finite points with different `x` is the same from either side. -/
theorem pointAdd_fin_comm {x1 y1 x2 y2 : U256} (hx1 : x1.toNat < Config.pField) (hy1 : y1.toNat < Config.pField) (hx2 : x2.toNat < Config.pField)
    (hy2 : y2.toNat < Config.pField) (hx : x1 ≠ x2) : pointAdd (.fin x1 y1) (.fin x2 y2) = pointAdd (.fin x2 y2) (.fin x1 y1) := by
  obtain ⟨lam, hl, hl', hchord⟩ := slope_comm hx1 hy1 hx2 hy2 (mt BitVec.toNat_inj.mp hx)
  simp only [pointAdd, hl, hl', thirdPoint_comm hchord]

end Sys2Proof.Machine

namespace Sys2Proof.Proofs

open Sys2Proof.Machine

/-- Settles O41: the slope decides whether the sum fails, and the third point is finite. -/
theorem pointAdditionFaultsExactlyOnAZeroDenominator : Obligations.PointAdditionFaultsExactlyOnAZeroDenominator := by
  refine ⟨fun A => ⟨pointAdd_inf_left A, pointAdd_inf_right A⟩, fun x1 y1 x2 y2 hx1 hy1 hx2 _ => ⟨fun _ => pointAdd_error, ?_⟩⟩
  rcases pointAdd_fin_cases (y2 := y2) hx1 hy1 hx2 with ⟨hx, hy, he⟩ | ⟨hne, x, y, he⟩
  · rw [he]
    exact ⟨iff_of_true ⟨_, rfl⟩ ⟨hx, hy⟩, nofun⟩
  · rw [he]
    exact ⟨iff_of_false nofun hne, nofun⟩

/-- Settles O42: `Inf` is the identity on both sides, a chord is the same from either end, and two points with the same `x` are equal or fail both ways. -/
theorem pointAdditionCommutes : Obligations.PointAdditionCommutes := by
  intro A B hA hB
  cases A with
  | inf => rw [pointAdd_inf_left, pointAdd_inf_right]
  | fin x1 y1 =>
    cases B with
    | inf => rw [pointAdd_inf_left, pointAdd_inf_right]
    | fin x2 y2 =>
      obtain ⟨hx1, hy1⟩ := hA
      obtain ⟨hx2, hy2⟩ := hB
      by_cases hx : x1 = x2
      · subst hx
        by_cases hy : y1 = y2
        · rw [hy]
        · rw [pointAdd_same_x hx1 hy1 hy, pointAdd_same_x hx1 hy2 (Ne.symm hy)]
      · exact pointAdd_fin_comm hx1 hy1 hx2 hy2 hx

end Sys2Proof.Proofs
end

section
/-! SUPPORT. The point commands (spec/41_point.md R144 to R150): their effects case by case, and the frames of the commands
that write a point register or `OUTBUF`. -/

namespace Sys2Proof.Machine

open Sys2Proof.Claims

/-! ## The effects, case by case -/

theorem eq_pFieldWord_iff (m : U256) : m = pFieldWord ↔ m.toNat = Config.pField := by
  rw [← BitVec.toNat_inj, pFieldWord, pFieldWord_toNat]

theorem State.srcPP_point {s : State} {i j : RegIdx} {A B : CurvePoint} (hA : s.readP i = .point A) (hB : s.readP j = .point B) :
    s.srcPP i j = .ok (A, B) := by
  rw [State.srcPP, State.srcP_point hA, State.srcP_point hB]

theorem State.srcPP_empty {s : State} {i j : RegIdx} (h : s.readP i = .empty ∨ s.readP j = .empty) : s.srcPP i j = .error .emptyOperand := by
  rcases s.srcPP_cases i j with ⟨A, B, hA, hB, -⟩ | ⟨-, e⟩
  · simp [hA, hB] at h
  · exact e

section
variable {s : State} {rd rs1 rs2 : RegIdx}

theorem makePoint_empty (h : s.readF rs1 = .empty ∨ s.readF rs2 = .empty) : makePoint s rd rs1 rs2 = .error .emptyOperand := by
  rw [makePoint, State.srcFF_empty h]

theorem addPoints_empty (h : s.readP rs1 = .empty ∨ s.readP rs2 = .empty) : addPoints s rd rs1 rs2 = .error .emptyOperand := by
  rw [addPoints, State.srcPP_empty h]

section
variable {a b : FieldElement} (ha : s.readF rs1 = .full a) (hb : s.readF rs2 = .full b)
include ha hb

theorem makePoint_mismatched (hm : a.mod ≠ pFieldWord ∨ b.mod ≠ pFieldWord) : makePoint s rd rs1 rs2 = .error .mismatchedModulus := by
  simp only [makePoint, State.srcFF_full ha hb]
  split
  · exact if_neg (hm.resolve_left (not_not_intro ‹_›))
  · rfl

theorem makePoint_ok (hma : a.mod = pFieldWord) (hmb : b.mod = pFieldWord) : makePoint s rd rs1 rs2 = .ok (s.writeP rd (.fin a.val b.val)) := by
  simp only [makePoint, State.srcFF_full ha hb, if_pos hma, if_pos hmb]

end

section
variable {A B : CurvePoint} (hA : s.readP rs1 = .point A) (hB : s.readP rs2 = .point B)
include hA hB

theorem addPoints_error {k : ErrKind} (h : pointAdd A B = .error k) : addPoints s rd rs1 rs2 = .error k := by
  simp only [addPoints, State.srcPP_point hA hB, h]

theorem addPoints_ok {C : CurvePoint} (h : pointAdd A B = .ok C) : addPoints s rd rs1 rs2 = .ok (s.writeP rd C) := by
  simp only [addPoints, State.srcPP_point hA hB, h]

end

theorem State.srcFin_empty (h : s.readP rs1 = .empty) : s.srcFin rs1 = .error .emptyOperand := by
  rw [State.srcFin, State.srcP_empty h]

theorem State.srcFin_inf (h : s.readP rs1 = .point .inf) : s.srcFin rs1 = .error .infinityOperand := by
  rw [State.srcFin, State.srcP_point h]
  rfl

theorem State.srcFin_fin {x y : U256} (h : s.readP rs1 = .point (.fin x y)) : s.srcFin rs1 = .ok (x, y) := by
  rw [State.srcFin, State.srcP_point h]
  rfl

theorem getCoordinate_error (pick : U256 × U256 → U256) {k : ErrKind} (h : s.srcFin rs1 = .error k) : getCoordinate pick s rd rs1 = .error k := by
  rw [getCoordinate, h]

theorem getCoordinate_ok (pick : U256 × U256 → U256) {xy : U256 × U256} (h : s.srcFin rs1 = .ok xy) :
    getCoordinate pick s rd rs1 = .ok (s.writeF rd ⟨pick xy, pFieldWord⟩) := by
  rw [getCoordinate, h]

theorem serializePoint_error (m : Bool) {k : ErrKind} (h : s.srcFin rs1 = .error k) : serializePoint s rs1 m = .error k := by
  rw [serializePoint, h]

theorem serializePoint_ok (m : Bool) {xy : U256 × U256} (h : s.srcFin rs1 = .ok xy) :
    serializePoint s rs1 m = .ok (s.writeOut (serialize xy.1 xy.2 m)) := by
  rw [serializePoint, h]

end

/-- The compressed form, its first byte by the parity of `y` as a number (spec/41_point.md R150). -/
theorem serialize_compressed (x y : U256) : serialize x y true = (if y.toNat % 2 = 0 then (0x02 : Byte) else 0x03) :: be x.toNat 32 := by
  have hbit : y.getLsbD 0 = decide (y.toNat % 2 = 1) := by rw [BitVec.getLsbD, Nat.testBit_zero]
  rcases Nat.mod_two_eq_zero_or_one y.toNat with h | h <;> rw [serialize, hbit, h] <;> rfl

theorem serialize_uncompressed (x y : U256) : serialize x y false = (0x04 : Byte) :: (be x.toNat 32 ++ be y.toNat 32) := rfl

/-! ## The commands at a unit that is not faulted -/

/-- A result in `OUTBUF` and `OLEN`, and nothing else written. -/
theorem writeOut_retire_wroteOut {s : State} (hm : Memory.wf s.mem = true) {X : List Byte} (hX : X.length ≤ 68) :
    WroteOut s (s.writeOut X).retire X :=
  ⟨State.writeOut_read (Memory.wf_sorted hm) X hX, State.writeOut_frame (Memory.wf_sorted hm) X hX, Nat.mod_eq_of_lt (lt_of_le_of_lt hX (by decide)), rfl⟩

section
variable {i : Instr} {s : State} (hs : s.err = false) (hw : i.wf = true)
include hs hw

/-- A point result is written to the destination, and nothing else is. -/
theorem exec_writesP {rd : RegIdx} {P : CurvePoint} (h : effectOf i s = .ok (s.writeP rd P)) : exec i s = .next (wroteP s rd P) :=
  exec_of_ok hs hw h

/-- A result of at most 68 bytes is written to `OUTBUF`, its length to `OLEN`, and nothing else is. -/
theorem exec_writesOut (hm : Memory.wf s.mem = true) {X : List Byte} (hX : X.length ≤ 68) (h : effectOf i s = .ok (s.writeOut X)) :
    ∃ t, exec i s = .next t ∧ t.olen.toNat = X.length ∧ WroteOut s t X := by
  obtain ⟨hread, hframe, holen, hrest⟩ := writeOut_retire_wroteOut hm hX
  exact ⟨_, exec_of_ok hs hw h, holen, hread, hframe, holen, hrest⟩

/-- `PGETX` and `PGETY`: Empty, then Inf, else the coordinate (spec/41_point.md R148, R149). -/
theorem exec_getCoordinate {pick : U256 × U256 → U256} {rd rs1 : RegIdx} (he : effectOf i s = getCoordinate pick s rd rs1) :
    (s.readP rs1 = .empty → exec i s = .next (faulted s 12 (encode i))) ∧
    (s.readP rs1 = .point .inf → exec i s = .next (faulted s 13 (encode i))) ∧
    ∀ x y, s.readP rs1 = .point (.fin x y) → exec i s = .next (wroteF s rd (pick (x, y)) pFieldWord) :=
  ⟨fun h => exec_faults hs hw (he.trans (getCoordinate_error pick (State.srcFin_empty h))),
   fun h => exec_faults hs hw (he.trans (getCoordinate_error pick (State.srcFin_inf h))),
   fun _ _ h => exec_writesF hs hw (he.trans (getCoordinate_ok pick (State.srcFin_fin h)))⟩

end

end Sys2Proof.Machine

namespace Sys2Proof.Proofs

open Sys2Proof.Machine

/-- Settles O43: the checks in their order, else the two values as they are. -/
theorem pmakeBuildsAFinitePoint : Obligations.PmakeBuildsAFinitePoint := by
  intro rd rs1 rs2 s hd h₁ h₂ hs
  have hw : (Instr.pmake rd rs1 rs2).wf = true := by simp [Instr.wf, hd, h₁, h₂]
  refine ⟨by simp [encode, packWord_toNat], fun h => exec_faults hs hw (makePoint_empty h), fun a b ha hb => ?_⟩
  rw [ne_eq, ne_eq, ← eq_pFieldWord_iff, ← eq_pFieldWord_iff]
  exact ⟨fun hm => exec_faults hs hw (makePoint_mismatched ha hb hm), fun hma hmb => exec_writesP hs hw (makePoint_ok ha hb hma hmb)⟩

/-- Settles O44: neither command has a check. -/
theorem pinfAndPldgWriteTheirConstant : Obligations.PinfAndPldgWriteTheirConstant := by
  intro rd s hd hs
  exact ⟨by simp [encode, packWord_toNat], exec_writesP hs (by simp [Instr.wf, hd]) rfl,
    by simp [encode, packWord_toNat], exec_writesP hs (by simp [Instr.wf, hd]) rfl⟩

/-- Settles O45: the sum is the helper's, and all it can fail with is `DivisionByZero`. -/
theorem paddAddsPoints : Obligations.PaddAddsPoints := by
  intro rd rs1 rs2 s hd h₁ h₂ hs
  have hw : (Instr.padd rd rs1 rs2).wf = true := by simp [Instr.wf, hd, h₁, h₂]
  refine ⟨by simp [encode, packWord_toNat], fun h => exec_faults hs hw (addPoints_empty h), fun A B hA hB => ⟨fun C hC => ?_, fun k hk => ?_⟩⟩
  · exact exec_writesP hs hw (addPoints_ok hA hB hC)
  · obtain rfl := pointAdd_error hk
    exact exec_faults hs hw (addPoints_error hA hB hk)

/-- Settles O46: the two commands differ in the coordinate they pick. -/
theorem pgetxAndPgetyCopyACoordinate : Obligations.PgetxAndPgetyCopyACoordinate := by
  intro rd rs1 s hd h₁ hs
  obtain ⟨hxEmpty, hxInf, hxFin⟩ := exec_getCoordinate (i := .pgetx rd rs1) hs (by simp [Instr.wf, hd, h₁]) rfl
  obtain ⟨hyEmpty, hyInf, hyFin⟩ := exec_getCoordinate (i := .pgety rd rs1) hs (by simp [Instr.wf, hd, h₁]) rfl
  exact ⟨by simp [encode, packWord_toNat], by simp [encode, packWord_toNat], fun h => ⟨hxEmpty h, hyEmpty h⟩, fun h => ⟨hxInf h, hyInf h⟩,
    fun x y h => ⟨pFieldWord, pFieldWord_toNat, hxFin x y h, hyFin x y h⟩⟩

/-- Settles O47: the serialized point fits `OUTBUF` in both forms. -/
theorem pserSerializesAFinitePoint : Obligations.PserSerializesAFinitePoint := by
  intro rs1 m s h₁ hs hmem
  have hw : (Instr.pser rs1 m).wf = true := by simp [Instr.wf, h₁]
  refine ⟨by simp [encode, packWord_toNat], fun h => ?_, fun h => ?_, fun x y h => ?_⟩
  · exact exec_faults hs hw (serializePoint_error m (State.srcFin_empty h))
  · exact exec_faults hs hw (serializePoint_error m (State.srcFin_inf h))
  · have hlen := serialize_length x y m
    obtain ⟨t, ht, holen, hout⟩ := exec_writesOut hs hw hmem (by rw [hlen]; split <;> decide) (serializePoint_ok m (State.srcFin_fin h))
    rw [hlen] at holen
    refine ⟨?_, ?_⟩ <;> rintro rfl
    · exact ⟨t, ht, holen, serialize_compressed x y ▸ hout⟩
    · exact ⟨t, ht, holen, serialize_uncompressed x y ▸ hout⟩

end Sys2Proof.Proofs
end

section
/-! SUPPORT. Repeated addition of a point of order `N_ORDER` (spec/41_point.md R151, spec/42_scalar.md R171). -/

namespace Sys2Proof.Machine.Curve

open Sys2Proof.Claims

section
variable {K : Type} [Field K] [CharP K Config.pField] [DecidableEq K]

/-- Up to `N_ORDER − 1` times a point of that order, no addition fails, and the sum is the multiple in the group. -/
theorem addTimes_rep {A : CurvePoint} {Q : (curve K).Point} (hA : Rep A Q) (hQ : addOrderOf Q = Config.nOrder) :
    ∀ k, k + 1 < Config.nOrder → ∃ C, addTimes A k = .ok C ∧ Rep C ((k + 1) • Q) := by
  intro k
  induction k with
  | zero => exact fun _ => ⟨A, rfl, by rwa [zero_add, one_smul]⟩
  | succ k ih =>
    intro hk
    obtain ⟨R, hR, hrep⟩ := ih (by omega)
    rcases rep_add hrep hA with ⟨C, hC, hr, -⟩ | ⟨-, -, hz, -⟩
    · exact ⟨C, by simp only [addTimes, hR, hC], by rwa [← succ_nsmul] at hr⟩
    · rw [← succ_nsmul, smul_eq_zero hQ] at hz
      exact absurd (Nat.le_of_dvd (Nat.succ_pos _) hz) (Nat.not_le_of_lt hk)

/-- On a point of order `N_ORDER`, double-and-add gives what repeated addition gives. -/
theorem scalarMul_eq_addTimes {A : CurvePoint} {Q : (curve K).Point} (hA : Rep A Q) (hQ : addOrderOf Q = Config.nOrder) {k : Nat}
    (hk : k + 1 < Config.nOrder) : ∃ C, scalarMul (k + 1) A = .ok C ∧ addTimes A k = .ok C := by
  obtain ⟨C, hC, hr⟩ := addTimes_rep hA hQ k hk
  rcases scalarMul_rep hA hQ (lt_trans hk nOrder_lt) with ⟨-, C', hC', hr'⟩ | ⟨hN, -⟩
  · exact ⟨C, by rw [hC', rep_unique hr' hr], hC⟩
  · exact absurd hN hk.ne

end

end Sys2Proof.Machine.Curve

namespace Sys2Proof.Proofs

open Sys2Proof.Machine

/-- Settles O50: both loops compute the multiple in the group of the curve over `ZMod P_FIELD`, where the base point has order `N_ORDER`. -/
theorem smulOfTheBasePointIsRepeatedAddition : Obligations.SmulOfTheBasePointIsRepeatedAddition := by
  have : Fact (Nat.Prime Config.pField) := ⟨Primes.pField_prime⟩
  intro k hk
  exact Curve.scalarMul_eq_addTimes (K := ZMod Config.pField) Curve.gPoint_rep Curve.addOrderOf_G hk

end Sys2Proof.Proofs
end

section
/-! SUPPORT. The loop of `SMUL` with no bound on its turns, and what it answers on a point of order `N_ORDER` (spec/42_scalar.md R171, R173). -/

namespace Sys2Proof.Machine

/-- The double-and-add loop with no bound on its turns: `k` turns are never too few for the scalar `k` (spec/42_scalar.md R171; log 10). -/
def doubleAndAdd (k : Nat) (R A : CurvePoint) : Except ErrKind CurvePoint := smulLoop k k R A

/-- `SMUL`'s bound on the turns is never what ends its loop. -/
theorem scalarMul_eq_doubleAndAdd {k : Nat} (hk : k < 2 ^ 256) (P : CurvePoint) : scalarMul k P = doubleAndAdd k .inf P :=
  smulLoop_turns smulTurns k k .inf P hk Nat.lt_two_pow_self

/-- The loop's own addition is `pointAdd`, with `Inf` in the accumulator too. -/
theorem pointAdd_eq_ite (R A : CurvePoint) : (if R = .inf then .ok A else pointAdd R A) = pointAdd R A := by
  split
  · subst R; rfl
  · rfl

/-- One turn of the loop: the rest of the scalar needs no more turns than it says itself. -/
theorem doubleAndAdd_turn {k : Nat} (hk : k ≠ 0) (R A : CurvePoint) : doubleAndAdd k R A =
    ((if k % 2 = 1 then (if R = .inf then .ok A else pointAdd R A) else .ok R) >>= fun R' =>
      pointAdd A A >>= fun A' => doubleAndAdd (k / 2) R' A') := by
  obtain ⟨n, rfl⟩ := Nat.exists_eq_succ_of_ne_zero hk
  have hrest (R' A') : smulLoop n ((n + 1) / 2) R' A' = doubleAndAdd ((n + 1) / 2) R' A' :=
    smulLoop_turns n _ _ R' A' (lt_of_le_of_lt (by omega : (n + 1) / 2 ≤ n) Nat.lt_two_pow_self) Nat.lt_two_pow_self
  simp only [doubleAndAdd, smulLoop_succ, if_neg hk, hrest, pointAdd_eq_ite]

/-- A 256-bit scalar reaches the order at most once. -/
theorem two_pow_256_lt_two_mul_nOrder : 2 ^ 256 < 2 * Config.nOrder := by decide

namespace Curve

section
variable {K : Type} [Field K] [CharP K Config.pField] [DecidableEq K]

omit [CharP K Config.pField] in
/-- No 256-bit scalar but 0 and `N_ORDER` is a multiple of the order, so `Inf` comes from 0 only. -/
theorem eq_inf_iff_of_rep_smul {Q : (curve K).Point} (hQ : addOrderOf Q = Config.nOrder) {k : Nat} (hk : k < 2 ^ 256) (hne : k ≠ Config.nOrder)
    {C : CurvePoint} (hC : Rep C (k • Q)) : C = .inf ↔ k = 0 := by
  have h2 := two_pow_256_lt_two_mul_nOrder
  rw [rep_zero hC, smul_eq_zero hQ]
  refine ⟨fun ⟨c, hc⟩ => ?_, fun h => h ▸ dvd_zero _⟩
  have hc2 : c < 2 := by
    by_contra h
    have : Config.nOrder * 2 ≤ Config.nOrder * c := Nat.mul_le_mul_left _ (not_lt.mp h)
    omega
  interval_cases c <;> omega

variable {A : CurvePoint} {Q : (curve K).Point} (hA : Rep A Q) (hQ : addOrderOf Q = Config.nOrder)
include hA hQ

/-- `N_ORDER` is the one scalar for which double-and-add fails. -/
theorem scalarMul_nOrder : scalarMul Config.nOrder A = .error .divisionByZero := by
  rcases scalarMul_rep hA hQ nOrder_lt with ⟨hne, -⟩ | ⟨-, h⟩
  · exact absurd rfl hne
  · exact h

/-- Every other scalar gives a value, and it stands for the multiple in the group. -/
theorem scalarMul_ok {k : Nat} (hk : k < 2 ^ 256) (hne : k ≠ Config.nOrder) : ∃ C, scalarMul k A = .ok C ∧ Rep C (k • Q) := by
  rcases scalarMul_rep hA hQ hk with ⟨-, h⟩ | ⟨h, -⟩
  · exact h
  · exact absurd h hne

/-- Above the order the multiples repeat, and one value stands for each. -/
theorem scalarMul_sub_nOrder {k : Nat} (hk : k < 2 ^ 256) (hN : Config.nOrder < k) {C : CurvePoint} (hC : Rep C (k • Q)) :
    scalarMul (k - Config.nOrder) A = .ok C := by
  have h2 := two_pow_256_lt_two_mul_nOrder
  obtain ⟨C', h', hr⟩ := scalarMul_ok hA hQ (k := k - Config.nOrder) (by omega) (by omega)
  have hperiod : (k - Config.nOrder) • Q = k • Q := by
    conv_rhs => rw [← Nat.sub_add_cancel hN.le, add_smul, (smul_eq_zero hQ _).mpr dvd_rfl, add_zero]
  rw [hperiod] at hr
  rw [h', rep_unique hr hC]

end

end Curve

/-- A valid key times the base point is a finite point (spec/42_scalar.md R173, R174). -/
theorem scalarMul_gPoint_finite {k : Nat} (h1 : 1 ≤ k) (hN : k < Config.nOrder) : ∃ x y, scalarMul k gPoint = .ok (.fin x y) := by
  have : Fact (Nat.Prime Config.pField) := ⟨Primes.pField_prime⟩
  have hk := hN.trans nOrder_lt
  obtain ⟨C, hC, hr⟩ := Curve.scalarMul_ok (K := ZMod Config.pField) Curve.gPoint_rep Curve.addOrderOf_G hk hN.ne
  have hinf := Curve.eq_inf_iff_of_rep_smul Curve.addOrderOf_G hk hN.ne hr
  cases C with
  | inf => exact absurd (hinf.mp rfl) (by omega)
  | fin x y => exact ⟨x, y, hC⟩

end Sys2Proof.Machine
end

section
/-! SUPPORT. The scalar commands (spec/42_scalar.md R170 to R174): their effects case by case, and what the registers and `OUTBUF` hold after a command,
for the public-key sequence. -/

namespace Sys2Proof.Machine

open Sys2Proof.Claims

/-! ## The effects, case by case -/

section
variable {s : State} {rd rs1 rs2 : RegIdx}

theorem multiplyPoint_empty (h : s.readF rs1 = .empty ∨ s.readP rs2 = .empty) : multiplyPoint s rd rs1 rs2 = .error .emptyOperand := by
  rcases multiplyPoint_cases s rd rs1 rs2 with ⟨-, e⟩ | ⟨a, P, ha, hP, -⟩
  · exact e
  · simp [ha, hP] at h

theorem checkKey_empty (h : s.readF rs1 = .empty) : checkKey s rs1 = .error .emptyOperand := by
  rw [checkKey, State.srcF_empty h]

section
variable {a : FieldElement} (ha : s.readF rs1 = .full a)
include ha

theorem checkKey_outOfRange (h : a.val.toNat = 0 ∨ Config.nOrder ≤ a.val.toNat) : checkKey s rs1 = .error .invalidPrivateKeyRange := by
  simp only [checkKey, State.srcF_full ha, if_pos h]

theorem checkKey_inRange (h : ¬ (a.val.toNat = 0 ∨ Config.nOrder ≤ a.val.toNat)) : checkKey s rs1 = .ok s := by
  simp only [checkKey, State.srcF_full ha, if_neg h]

variable {P : CurvePoint} (hP : s.readP rs2 = .point P)
include hP

theorem multiplyPoint_error {k : ErrKind} (h : scalarMul a.val.toNat P = .error k) : multiplyPoint s rd rs1 rs2 = .error k := by
  simp only [multiplyPoint, State.srcF_full ha, State.srcP_point hP, h]

theorem multiplyPoint_ok {C : CurvePoint} (h : scalarMul a.val.toNat P = .ok C) : multiplyPoint s rd rs1 rs2 = .ok (s.writeP rd C) := by
  simp only [multiplyPoint, State.srcF_full ha, State.srcP_point hP, h]

end

/-! ## `SMUL` at a unit that is not faulted -/

theorem wf_smul (hd : rd.toNat < 4) (h₁ : rs1.toNat < 8) (h₂ : rs2.toNat < 4) : (Instr.smul rd rs1 rs2).wf = true := by
  simp [Instr.wf, hd, h₁, h₂]

section
variable (hs : s.err = false) (hw : (Instr.smul rd rs1 rs2).wf = true) {a : FieldElement} {P : CurvePoint} (ha : s.readF rs1 = .full a)
  (hP : s.readP rs2 = .point P)
include hs hw ha hP

theorem exec_smul_ok {C : CurvePoint} (h : scalarMul a.val.toNat P = .ok C) : exec (.smul rd rs1 rs2) s = .next (wroteP s rd C) :=
  exec_writesP hs hw (multiplyPoint_ok ha hP h)

/-- Whatever the scalar and the point, the loop can fail with `DivisionByZero` only. -/
theorem exec_smul_error {k : ErrKind} (h : scalarMul a.val.toNat P = .error k) :
    exec (.smul rd rs1 rs2) s = .next (faulted s 3 (encode (.smul rd rs1 rs2))) := by
  obtain rfl := scalarMul_error h
  exact exec_faults hs hw (multiplyPoint_error ha hP h)

end

end

/-! ## What a command leaves -/

theorem readF_wroteF_same (s : State) {i : RegIdx} (hi : i.toNat < 8) (v m : U256) : (wroteF s i v m).readF i = .full ⟨v, m⟩ :=
  (s.readF_writeF i i ⟨v, m⟩ hi).trans (if_pos rfl)

theorem readP_wroteP_same (s : State) {j : RegIdx} (hj : j.toNat < 4) (P : CurvePoint) : (wroteP s j P).readP j = .point P :=
  (s.readP_writeP j j P hj).trans (if_pos rfl)

/-- What `SMUL` finds in the public-key sequence: the key `k` in `F[0]` and the base point in `P[0]` (spec/42_scalar.md R174). -/
def publicKeyOperands (s : State) (k : U256) : State := wroteP (unchanged (wroteF s 0 k s.opm)) 0 gPoint

theorem publicKeyOperands_scalar (s : State) (k : U256) : (publicKeyOperands s k).readF 0 = .full ⟨k, s.opm⟩ :=
  readF_wroteF_same s (by decide) k s.opm

theorem publicKeyOperands_point (s : State) (k : U256) : (publicKeyOperands s k).readP 0 = .point gPoint :=
  readP_wroteP_same _ (by decide) gPoint

/-- `OUTBUF` up to `OLEN` is the result. -/
theorem readBytes_of_wroteOut {s t : State} {X : List Byte} (h : WroteOut s t X) (hX : X.length ≤ 68) :
    Memory.readBytes t.mem 0x1200 t.olen.toNat = X := by
  obtain ⟨hread, -, holen, -⟩ := h
  rw [holen]
  refine List.ext_getElem (Memory.readBytes_length ..) fun k hk hk' => ?_
  rw [Memory.readBytes_getElem, hread k (by omega), List.getD_eq_getElem _ _ hk']

/-- A result leaves the unit as faulted or not as it was. -/
theorem err_of_wroteOut {s t : State} {X : List Byte} (h : WroteOut s t X) : t.err = s.err := by
  obtain ⟨-, -, -, hrest⟩ := h
  rw [hrest]

theorem serialize_eq_ite (x y : U256) (c : Bool) : serialize x y c =
    if c then (if y.toNat % 2 = 0 then (0x02 : Byte) else 0x03) :: be x.toNat 32 else (0x04 : Byte) :: (be x.toNat 32 ++ be y.toNat 32) := by
  cases c
  · exact serialize_uncompressed x y
  · exact serialize_compressed x y

/-- `PSER` of a finite point, with `OUTBUF` read back up to `OLEN` (spec/41_point.md R150). -/
theorem exec_pser_fin {s : State} (hs : s.err = false) (hm : Memory.wf s.mem = true) {j : RegIdx} (hj : j.toNat < 4) (c : Bool) {x y : U256}
    (h : s.readP j = .point (.fin x y)) : ∃ t, exec (.pser j c) s = .next t ∧ t.err = false ∧ t.olen.toNat = (if c then 33 else 65) ∧
      Memory.readBytes t.mem 0x1200 t.olen.toNat = serialize x y c := by
  have hlen := serialize_length x y c
  have h68 : (serialize x y c).length ≤ 68 := by rw [hlen]; split <;> decide
  have hw : (Instr.pser j c).wf = true := by simp [Instr.wf, hj]
  obtain ⟨t, ht, holen, hout⟩ := exec_writesOut hs hw hm h68 (serializePoint_ok (xy := (x, y)) c (State.srcFin_fin h))
  exact ⟨t, ht, (err_of_wroteOut hout).trans hs, holen.trans hlen, readBytes_of_wroteOut hout h68⟩

end Sys2Proof.Machine

namespace Sys2Proof.Proofs

open Sys2Proof.Machine

/-- Settles O48: the loop is `doubleAndAdd`, which `scalarMul` agrees with on every 256-bit scalar. -/
theorem smulRunsTheDoubleAndAddLoop : Obligations.SmulRunsTheDoubleAndAddLoop := by
  refine ⟨doubleAndAdd, fun _ _ => rfl, fun _ _ _ hk => doubleAndAdd_turn hk _ _, fun rd rs1 rs2 s hd h₁ h₂ hs => ?_⟩
  have hw := wf_smul hd h₁ h₂
  refine ⟨by simp [encode, packWord_toNat], fun h => exec_faults hs hw (multiplyPoint_empty h), fun a P ha hP => ?_⟩
  rw [← scalarMul_eq_doubleAndAdd a.val.isLt]
  exact ⟨fun _ => exec_smul_ok hs hw ha hP, fun _ => exec_smul_error hs hw ha hP⟩

/-- Settles O49: the base point has order `N_ORDER` in the group of the curve over `ZMod P_FIELD`, and the loop computes its multiples there. -/
theorem smulOfTheBasePointFaultsOnlyAtTheOrder : Obligations.SmulOfTheBasePointFaultsOnlyAtTheOrder := by
  have : Fact (Nat.Prime Config.pField) := ⟨Primes.pField_prime⟩
  have hG := Curve.gPoint_rep (K := ZMod Config.pField)
  have hord := Curve.addOrderOf_G (K := ZMod Config.pField)
  intro rd rs1 rs2 s a hd h₁ h₂ hs ha hP
  change s.readP rs2 = .point gPoint at hP
  have hw := wf_smul hd h₁ h₂
  refine ⟨fun hN => exec_smul_error hs hw ha hP (hN ▸ Curve.scalarMul_nOrder hG hord), fun hN => ?_⟩
  obtain ⟨C, hC, hr⟩ := Curve.scalarMul_ok hG hord a.val.isLt hN
  exact ⟨C, exec_smul_ok hs hw ha hP hC, Curve.eq_inf_iff_of_rep_smul hord a.val.isLt hN hr,
    fun hlt => Curve.scalarMul_sub_nOrder hG hord a.val.isLt hlt hr⟩

/-- Settles O51: the two checks in their order, and no write. -/
theorem kchkChecksTheKeyRange : Obligations.KchkChecksTheKeyRange := by
  intro rs1 s h₁ hs
  have hw : (Instr.kchk rs1).wf = true := by simp [Instr.wf, h₁]
  refine ⟨by simp [encode, packWord_toNat], fun h => exec_faults hs hw (checkKey_empty h), fun a ha => ⟨fun h => ?_, fun h1 hN => ?_⟩⟩
  · exact exec_faults hs hw (checkKey_outOfRange ha h)
  · exact exec_of_ok hs hw (checkKey_inRange ha (not_or.mpr ⟨Nat.one_le_iff_ne_zero.mp h1, not_le.mpr hN⟩))

/-- Settles O52: `FMAKE` keeps the key, which is below the modulus, `KCHK` lets it pass, and its multiple of the base point is finite. -/
theorem publicKeyFromPrivateNeverFaults : Obligations.PublicKeyFromPrivateNeverFaults := by
  intro s c hinv hs hm h1 hN
  obtain ⟨-, -, hmake⟩ := fmakeReducesTheStagedValue 0 s (by decide) hs
  obtain ⟨v, hv, hs1⟩ := hmake (by omega)
  have hkey : v.toNat = s.opa.toNat := by
    have : Config.nOrder < 2 ^ 256 - 1 := by decide
    rw [hv, hm, Nat.mod_eq_of_lt (by omega)]
  obtain ⟨-, -, hchk⟩ := kchkChecksTheKeyRange 0 (Claims.wroteF s 0 v s.opm) (by decide) hs
  obtain ⟨-, hpass⟩ := hchk _ (readF_wroteF_same s (by decide) v s.opm)
  obtain ⟨-, -, -, hldg⟩ := pinfAndPldgWriteTheirConstant 0 (Claims.unchanged (Claims.wroteF s 0 v s.opm)) (by decide) hs
  obtain ⟨x, y, hxy⟩ := scalarMul_gPoint_finite h1 hN
  have hs4 := exec_smul_ok (s := publicKeyOperands s v) (rd := 1) hs (by decide) (publicKeyOperands_scalar s v) (publicKeyOperands_point s v)
    (hkey ▸ hxy)
  obtain ⟨s5, hs5, herr, holen, hbytes⟩ := exec_pser_fin (s := Claims.wroteP (publicKeyOperands s v) 1 (.fin x y)) hs hinv.memWf (by decide) c
    (readP_wroteP_same _ (by decide) _)
  exact ⟨_, _, _, _, s5, x, y, hs1, hpass (hkey ▸ h1) (hkey ▸ hN), hldg, hs4, hs5, herr, hxy, holen, hbytes.trans (serialize_eq_ite x y c)⟩

end Sys2Proof.Proofs
end

section
/-! SUPPORT. The hash commands (spec/43_hmac_pbkdf2.md R191 to R196): HMAC's key block and the running values of PBKDF2, a hash command at a unit that is not
faulted, and the bytes of a buffer read in two parts. -/

namespace Sys2Proof

/-- An exclusive-or with a block of one repeated byte is an exclusive-or of every byte with it. -/
theorem xorBytes_replicate (X : List Byte) (b : Byte) : xorBytes X (List.replicate X.length b) = X.map (· ^^^ b) := by
  refine List.ext_getElem (by simp) fun k _ _ => ?_
  simp [xorBytes]

end Sys2Proof

namespace Sys2Proof.Machine

open Sys2Proof.Claims

/-! ## HMAC -/

/-- The key block holds the key, or its hash when the key is longer than a block, and `00` beyond it (spec/43_hmac_pbkdf2.md R191). -/
theorem hmacKeyBlock_getD (K : List Byte) (n : Nat) : (hmacKeyBlock K).getD n 0 = (if 128 < K.length then hash512 K else K).getD n 0 := by
  change (_ ++ List.replicate _ 0).getD n 0 = List.getD (if Config.hashBlock < K.length then hash512 K else K) n 0
  generalize (if Config.hashBlock < K.length then hash512 K else K) = K0
  rcases Nat.lt_or_ge n K0.length with h | h
  · exact List.getD_append _ _ _ _ h
  · rw [List.getD_append_right _ _ _ _ h, List.getD_eq_default _ _ h, List.getD_eq_getElem?_getD, List.getElem?_getD_replicate_default_eq]

/-- HMAC with its pads taken byte by byte (spec/43_hmac_pbkdf2.md R191). -/
theorem hmac512_eq (K M : List Byte) : hmac512 K M =
    hash512 ((hmacKeyBlock K).map (· ^^^ 0x5C) ++ hash512 ((hmacKeyBlock K).map (· ^^^ 0x36) ++ M)) := by
  rw [← xorBytes_replicate, ← xorBytes_replicate, hmacKeyBlock_length]
  rfl

/-! ## PBKDF2 -/

/-- `U j`: the salt with the block index, and from `U 1` on the HMAC of the one before (spec/43_hmac_pbkdf2.md R192). -/
def pbkdf2U (Pw S : List Byte) : Nat → List Byte
  | 0 => S ++ be 1 4
  | j + 1 => hmac512 Pw (pbkdf2U Pw S j)

/-- The exclusive-or of `U 1 .. U (n + 1)` (spec/43_hmac_pbkdf2.md R192). -/
def pbkdf2Xor (Pw S : List Byte) : Nat → List Byte
  | 0 => pbkdf2U Pw S 1
  | n + 1 => xorBytes (pbkdf2Xor Pw S n) (pbkdf2U Pw S (n + 2))

/-- The loop runs through the values `U j`: `n` more turns take in `n` more of them. -/
theorem pbkdf2Loop_eq_pbkdf2Xor (Pw S : List Byte) (n j : Nat) :
    pbkdf2Loop Pw n (pbkdf2U Pw S (j + 1)) (pbkdf2Xor Pw S j) = pbkdf2Xor Pw S (j + n) := by
  induction n generalizing j with
  | zero => rfl
  | succ n ih => exact (ih (j + 1)).trans (congrArg _ (by omega))

theorem pbkdf2_512_eq_pbkdf2Xor (Pw S : List Byte) : pbkdf2_512 Pw S = pbkdf2Xor Pw S 2047 := pbkdf2Loop_eq_pbkdf2Xor Pw S 2047 0

/-! ## The commands at a unit that is not faulted -/

/-- A hash command checks the two lengths, and then writes its 64-byte digest of the buffers' bytes (spec/43_hmac_pbkdf2.md R193). -/
theorem exec_hashEffect {i : Instr} {digest : List Byte → List Byte → List Byte} {s : State} (hs : s.err = false) (hm : Memory.wf s.mem = true)
    (hw : i.wf = true) (he : effectOf i s = hashEffect digest s) (hlen : ∀ K M, (digest K M).length = 64) :
    ((256 < s.klen.toNat ∨ 256 < s.mlen.toNat) → exec i s = .next (faulted s 14 (encode i))) ∧
    (s.klen.toNat ≤ 256 → s.mlen.toNat ≤ 256 → ∃ t, exec i s = .next t ∧ t.olen.toNat = 64 ∧
      WroteOut s t (digest (Memory.readBytes s.mem 0x1000 s.klen.toNat) (Memory.readBytes s.mem 0x1100 s.mlen.toNat))) := by
  rcases hashEffect_cases digest s with ⟨hlong, e⟩ | ⟨hk, hl, e⟩
  · exact ⟨fun _ => exec_faults hs hw (he.trans e), fun hk hl => by omega⟩
  · refine ⟨fun hlong => by omega, fun _ _ => ?_⟩
    obtain ⟨t, ht, holen, hout⟩ := exec_writesOut hs hw hm (by rw [hlen]; decide) (he.trans e)
    exact ⟨t, ht, holen.trans (hlen _ _), hout⟩

/-! ## Reading the buffers -/

/-- `BufRead` of `a + b` bytes is `BufRead` of the first `a` and of the next `b`. -/
theorem Memory.readBytes_add (m : Memory) (x a b : Nat) : Memory.readBytes m x (a + b) = Memory.readBytes m x a ++ Memory.readBytes m (x + a) b := by
  simp [Memory.readBytes, List.range_add, Nat.add_assoc]

/-- Equal results of at most 68 bytes leave `OLEN` and `OUTBUF` equal. -/
theorem eq_of_wroteOut {s s' t t' : State} {X : List Byte} (h : WroteOut s t X) (h' : WroteOut s' t' X) :
    t.olen = t'.olen ∧ ∀ k < 68, Memory.read t.mem (0x1200 + k) = Memory.read t'.mem (0x1200 + k) := by
  obtain ⟨hread, -, holen, -⟩ := h
  obtain ⟨hread', -, holen', -⟩ := h'
  exact ⟨BitVec.eq_of_toNat_eq (holen.trans holen'.symm), fun k hk => (hread k hk).trans (hread' k hk).symm⟩

end Sys2Proof.Machine

namespace Sys2Proof.Proofs

open Sys2Proof.Machine

/-- Settles O53: `HMAC` is the hash command of `hmac512`. -/
theorem hmacWritesTheDigest : Obligations.HmacWritesTheDigest :=
  fun _ hs hm => ⟨by simp [encode, packWord_toNat], exec_hashEffect hs hm rfl rfl hmac512_length⟩

/-- Settles O54: `PBKDF2` is the hash command of `pbkdf2_512`. -/
theorem pbkdf2WritesTheDerivedKey : Obligations.Pbkdf2WritesTheDerivedKey :=
  fun _ hs hm => ⟨by simp [encode, packWord_toNat], exec_hashEffect hs hm rfl rfl pbkdf2_512_length⟩

/-- Settles O55: `MSEED` is the hash command of `mnemonicSeed`, which puts `SEED_PREFIX` before the salt. -/
theorem mseedPrependsMnemonicToTheSalt : Obligations.MseedPrependsMnemonicToTheSalt :=
  fun _ hs hm => ⟨by simp [encode, packWord_toNat], exec_hashEffect (digest := mnemonicSeed) hs hm rfl rfl mnemonicSeed_length⟩

/-- Settles O56, with `hmacKeyBlock` as the key block. -/
theorem hmacConstruction : Obligations.HmacConstruction := by
  intro K M
  exact ⟨hmacKeyBlock K, hmacKeyBlock_length K, fun n _ => hmacKeyBlock_getD K n, hmac512_eq K M, hmac512_length K M⟩

/-- Settles O57: the loop's two values after `n` turns are `pbkdf2U` and `pbkdf2Xor`. -/
theorem pbkdf2Construction : Obligations.Pbkdf2Construction := by
  intro Pw S
  refine ⟨pbkdf2U Pw S, fun j => pbkdf2Xor Pw S (j - 1), rfl, fun _ _ => rfl, rfl, fun j hj => ?_, pbkdf2_512_eq_pbkdf2Xor Pw S, pbkdf2_512_length Pw S⟩
  obtain ⟨n, rfl⟩ := Nat.exists_eq_add_of_le' hj
  rfl

/-- Settles O59: both commands derive the key of the same password and the same salt, "mnemonic" and the passphrase. -/
theorem mseedIsPbkdf2WithTheHostsPrefix : Obligations.MseedIsPbkdf2WithTheHostsPrefix := by
  intro s s' t t' hs hs' hm hm' hk hk' hl hl' hK hmnemonic hpass ht ht'
  obtain ⟨-, -, hseed⟩ := mseedPrependsMnemonicToTheSalt s hs hm
  obtain ⟨u, hu, -, hout⟩ := hseed hk (by omega)
  obtain ⟨-, -, hkey⟩ := pbkdf2WritesTheDerivedKey s' hs' hm'
  obtain ⟨u', hu', -, hout'⟩ := hkey (hk' ▸ hk) (by omega)
  have hpw : Memory.readBytes s'.mem 0x1000 s'.klen.toNat = Memory.readBytes s.mem 0x1000 s.klen.toNat := by
    rw [hk', Memory.readBytes_congr hK]
  have hpass' : Memory.readBytes s'.mem (0x1100 + 8) s.mlen.toNat = Memory.readBytes s.mem 0x1100 s.mlen.toNat :=
    List.map_congr_left fun k hk => hpass k (List.mem_range.mp hk)
  have hsalt : Memory.readBytes s'.mem 0x1100 s'.mlen.toNat =
      [0x6D, 0x6E, 0x65, 0x6D, 0x6F, 0x6E, 0x69, 0x63] ++ Memory.readBytes s.mem 0x1100 s.mlen.toNat := by
    rw [hl', Nat.add_comm, Memory.readBytes_add, hmnemonic, hpass']
  rw [hpw, hsalt] at hout'
  cases hu.symm.trans ht
  cases hu'.symm.trans ht'
  exact eq_of_wroteOut hout hout'

end Sys2Proof.Proofs
end

section
/-! SUPPORT. The system commands (spec/44_system.md R210 to R212), and the fault that `CLRERR` undoes (spec/60_exceptions.md R247, R248). -/

namespace Sys2Proof.Machine

/-- A command that runs while the unit is faulted succeeds there as it does anywhere (spec/44_system.md R210). -/
theorem runCommand_ok_of_runsWhileFaulted {i : Instr} (hr : runsWhileFaulted i = true) (hw : i.wf = true) (s t : State) :
    runCommand i s (.ok t) = .next t.retire := by
  simp [runCommand, hr, hw]

/-- `CLRERR` clears the record, faulted or not (spec/44_system.md R211). -/
theorem exec_clrerr (s : State) : exec .clrerr s = .next s.clearRecord.retire := by
  rw [exec_eq]
  exact runCommand_ok_of_runsWhileFaulted rfl rfl s _

/-- A command that succeeds does not fault the unit. -/
theorem effectOf_err {i : Instr} {s t : State} (h : effectOf i s = .ok t) (hs : s.err = false) : t.err = false := by
  rcases effectOf_ok h with ⟨-, rfl⟩ | ⟨-, rfl⟩ | ⟨-, rfl⟩ | ⟨j, e, -, rfl, -⟩ | ⟨j, P, -, rfl, -⟩ | ⟨-, X, rfl, -⟩
  · rfl
  all_goals exact hs

/-- A command that faults the unit did nothing but fault entry, with a kind it can raise (spec/60_exceptions.md R242, R245). -/
theorem eq_raise_of_exec {i : Instr} {s t : State} (hw : i.wf = true) (hs : s.err = false) (h : exec i s = .next t) (ht : t.err = true) :
    ∃ k ∈ raisable i, t = s.raise k (encode i) := by
  rcases exec_cases i s with ⟨hs', -⟩ | ⟨-, hw', -⟩ | ⟨-, -, k, hk, he⟩ | ⟨-, -, u, hu, he⟩
  · simp [hs] at hs'
  · simp [hw] at hw'
  · rw [he] at h
    cases h
    exact ⟨k, hk, rfl⟩
  · rw [he] at h
    cases h
    simp [effectOf_err hu hs] at ht

/-- Clearing the record of a fault gives back the idle, record-free state it was raised in (spec/60_exceptions.md R248). -/
theorem State.clearRecord_retire_raise {s : State} (hs : s.err = false) (hc : s.ecode = 0) (hm : s.ecmd = 0) (hp : s.pend = none)
    (hk : s.work = Work.cleared) (k : ErrKind) (w : Word) : (s.raise k w).clearRecord.retire = s := by
  cases s
  cases hs; cases hc; cases hm; cases hp; cases hk
  rfl

end Sys2Proof.Machine

namespace Sys2Proof.Proofs

open Sys2Proof.Machine

/-- Settles O28: the record is cleared before the command retires. -/
theorem clrerrClearsTheRecord : Obligations.ClrerrClearsTheRecord :=
  ⟨rfl, exec_clrerr⟩

/-- Settles O29: the wipe puts all but the record, the events and the replies at its reset value. -/
theorem zeroLeavesTheResetStateButTheRecord : Obligations.ZeroLeavesTheResetStateButTheRecord :=
  ⟨rfl, fun s => ⟨_, exec_zero s, rfl, State.readF_wipe s, State.readP_wipe s, rfl, rfl, Memory.read_nil, rfl, rfl, rfl, rfl, rfl⟩⟩

/-- Settles O21: the frame of every command drops it before its effect is looked at. -/
theorem faultedUnitDropsCommands : Obligations.FaultedUnitDropsCommands :=
  fun _ _ => exec_faulted

/-- Settles O22: the fault wrote its record and nothing else, so `CLRERR` gives back the very state in which the command faulted. -/
theorem clearedFaultRecurs : Obligations.ClearedFaultRecurs := by
  intro i s t hw hs hc hm hp hk ht he
  obtain ⟨k, -, rfl⟩ := eq_raise_of_exec hw hs ht he
  exact ⟨s, by rw [exec_clrerr, State.clearRecord_retire_raise hs hc hm hp hk], rfl, ht⟩

end Sys2Proof.Proofs
end

section
/-! The family of the hash function SHA-512 (spec/45_sha512.md R221). -/

namespace Sys2Proof.Proofs

open Sys2Proof.Machine

/-- Settles O58: `shaPad_zeros` counts the `00` bytes, and with fewer than 128 of them no shorter filling ends a block. -/
theorem sha512PaddingAndDigestLength : Obligations.Sha512PaddingAndDigestLength := by
  intro M
  obtain ⟨z, hz, hpad, -⟩ := shaPad_zeros M
  exact ⟨⟨z, hz, hpad⟩, shaPad_length M, sha512_length M⟩

end Sys2Proof.Proofs
end

section
/-! SUPPORT. The record of a fault (spec/60_exceptions.md R241 to R246): which kinds are ever recorded, and what a command, an illegal word, an event and a
step leave in `ECODE`. -/

namespace Sys2Proof.Machine

/-- The kinds the unit can record: those of some command, and that of an illegal word (spec/60_exceptions.md R241, R242). -/
def ErrKind.Recorded (k : ErrKind) : Prop := k = .illegalCommand ∨ ∃ i, k ∈ raisable i

/-- The codes of the recorded kinds leave 6 to 10 and 15 out (spec/60_exceptions.md R241). -/
theorem ErrKind.Recorded.code_not_mem {k : ErrKind} (h : k.Recorded) : k.code.toNat ∉ [6, 7, 8, 9, 10, 15] := by
  obtain rfl | ⟨i, hi⟩ := h
  · decide
  · cases k
    case invalidSeedLength | invalidPathFormat | invalidPathComponent | derivedKeyInvalid | insecureEntropySize =>
      cases i <;> simp [raisable] at hi
    all_goals decide

/-- `ECODE` is left as it was, cleared, or set to the code of a recorded kind. -/
def EcodeFrom (s t : State) : Prop := t.ecode = s.ecode ∨ t.ecode = 0 ∨ ∃ k : ErrKind, k.Recorded ∧ t.ecode = k.code

/-- A command that succeeds keeps `ECODE`, or is `CLRERR`, which clears it. -/
theorem effectOf_ecode {i : Instr} {s t : State} (h : effectOf i s = .ok t) : t.ecode = s.ecode ∨ t.ecode = 0 := by
  rcases effectOf_ok h with ⟨-, rfl⟩ | ⟨-, rfl⟩ | ⟨-, rfl⟩ | ⟨j, e, -, rfl, -⟩ | ⟨j, P, -, rfl, -⟩ | ⟨-, X, rfl, -⟩
  · exact .inr rfl
  all_goals exact .inl rfl

theorem ecodeFrom_of_exec {i : Instr} {s t : State} (h : exec i s = .next t) : EcodeFrom s t := by
  rcases exec_cases i s with ⟨-, -, he⟩ | ⟨-, -, he⟩ | ⟨-, -, k, hk, he⟩ | ⟨-, -, u, hu, he⟩
  all_goals rw [he] at h; cases h
  · exact .inl rfl
  · exact .inr (.inr ⟨.illegalCommand, .inl rfl, rfl⟩)
  · exact .inr (.inr ⟨k, .inr ⟨i, hk⟩, rfl⟩)
  · exact (effectOf_ecode hu).imp_right .inl

theorem ecodeFrom_illegalWord (s : State) (w : Word) : EcodeFrom s (s.illegalWord w) := by
  unfold State.illegalWord
  split
  · exact .inl rfl
  · exact .inr (.inr ⟨.illegalCommand, .inl rfl, rfl⟩)

theorem State.issue_ecode (s : State) (w : Word) : (s.issue w).ecode = s.ecode := by
  unfold State.issue
  split <;> rfl

theorem writeRow_ecode (s : State) (r : MapRow) (off : Nat) (data : List Byte) : (writeRow s r off data).ecode = s.ecode := by
  rw [writeRow_frame]

/-- No access writes `ECODE`; a reset clears it. -/
theorem ecodeFrom_of_hostAction {a : HostAction} {s t : State} (h : hostAction a s = .next t) : EcodeFrom s t := by
  rcases hostAction_cases h with ⟨bs, rfl⟩ | ⟨w, rfl⟩ | rfl | ⟨r, -, -, off, data, -, -, -, -, rfl⟩
  · exact .inl rfl
  · exact .inl (s.issue_ecode w)
  · exact .inr (.inl rfl)
  · exact .inl (writeRow_ecode s r off data)

theorem ecodeFrom_of_step {s t : State} (h : step s = .next t) : EcodeFrom s t := by
  rcases step_cases s with ⟨w, i, -, -, hs⟩ | ⟨w, e, -, -, hs⟩ | ⟨-, -, hs⟩ | ⟨e, rest, -, -, hs⟩ <;> rw [hs] at h
  · exact ecodeFrom_of_exec h
  · cases h
    exact ecodeFrom_illegalWord s w
  · cases h
    exact .inl rfl
  · exact ecodeFrom_of_hostAction (s := { s with inputs := rest }) h

end Sys2Proof.Machine

namespace Sys2Proof.Proofs

open Sys2Proof.Machine

/-- Settles O9: a step that changes `ECODE` clears it or records a kind, and no recorded kind has one of these codes. -/
theorem codesSixToTenAndFifteenAreNeverProduced : Obligations.CodesSixToTenAndFifteenAreNeverProduced := by
  intro s t ht hcode
  rcases ecodeFrom_of_step ht with hkept | hzero | ⟨k, hk, he⟩
  · exact hkept
  · rw [hzero] at hcode
    exact absurd hcode (by decide)
  · rw [he] at hcode
    exact absurd hcode hk.code_not_mem

/-- Settles O19: a command is dropped, raises a kind, or retires, and each of the three leaves nothing pending. -/
theorem everyCommandAnswersANextState : Obligations.EveryCommandAnswersANextState := by
  intro i s
  rcases exec_cases i s with ⟨-, -, he⟩ | ⟨-, -, he⟩ | ⟨-, -, k, -, he⟩ | ⟨-, -, u, -, he⟩
  · exact ⟨_, he, s.drop_pend⟩
  · exact ⟨_, he, s.raise_pend _ _⟩
  · exact ⟨_, he, s.raise_pend _ _⟩
  · exact ⟨_, he, u.retire_pend⟩

/-- Settles O20: a command faults the unit only by fault entry, and the completion of an illegal word is fault entry too. -/
theorem faultEntryWritesTheRecordAndNothingElse : Obligations.FaultEntryWritesTheRecordAndNothingElse := by
  refine ⟨fun i s t hw hs => eq_raise_of_exec hw hs, fun s w e hd hp hs hn => ?_⟩
  rw [(completes_of_nothingGetsIn hp hn).2 e hd, hs, if_neg Bool.false_ne_true]

end Sys2Proof.Proofs
end
